-- ==== Sys2Proof/Word.lean ====
section
/-!
DEFINITION. Word.lean: the widths of spec/00_scope.md R13.
The hardware has unsigned quantities of 8, 16 and 32 bits and nothing else.
-/
namespace Sys2Proof

/-- One byte on either link (`u8`). -/
abbrev Byte := BitVec 8

/-- The 16-bit device id (`u16`). -/
abbrev Half := BitVec 16

/-- An address, a length or a counter of the block (`u32`). -/
abbrev Word := BitVec 32

end Sys2Proof
end

