-- ==== Sys2Proof/Config.lean ====
section
/-!
DEFINITION. Config.lean: the configuration record (spec/00_scope.md R6 to R11), its constraints (R7), the
reference profile `G` of spec/30_encoding.md R96 with the test geometries of spec/95_test_vectors.md, and the
free values the spec leaves open.
-/
namespace Sys2Proof

/-- `HOST_FLOW_POLICY` (R175): what the host does with a byte other than 0x42 where a ready byte is due. -/
inductive FlowPolicy where
  | lenient
  | strict
  deriving DecidableEq, Repr

/-- One value of the configuration record: one flash variant on one board (R6, R8, R9, R11).
`rxDepth = none` is the unbounded receive holding of R40. `BAUD_RATE` is a number no rule uses (R11). -/
structure Config where
  totalSize     : Nat
  sectorSize    : Nat
  /-- 0: the variant has no page write. -/
  pageSize      : Nat
  expMfr        : Byte
  expDev        : Half
  addrBytes     : Nat
  cmdReadId     : Byte
  cmdRead       : Byte
  cmdProgram    : Byte
  cmdSectorErase : Byte
  cmdChipErase  : Byte
  cmdReadStatus : Byte
  wipMask       : Byte
  initPrelude   : List (List Byte)
  writePrelude  : List (List Byte)
  dummy         : Byte
  rxDepth       : Option Nat
  flowPolicy    : FlowPolicy
  baudRate      : Nat
  deriving DecidableEq, Repr

/-- The three protocol constants the source fixes (R10). -/
abbrev opReadFlash : Byte := 0x10#8

/-- See `opReadFlash`. -/
abbrev opWriteFlash : Byte := 0x20#8

/-- See `opReadFlash`. -/
abbrev readyByte : Byte := 0x42#8

namespace Config

/-- `SECTOR_COUNT` (R6). -/
def sectorCount (c : Config) : Nat := c.totalSize / c.sectorSize

/-- The three sizes are unsigned 32-bit values (R6). -/
def sizesFit (c : Config) : Bool :=
  decide (c.totalSize < 2 ^ 32) && decide (c.sectorSize < 2 ^ 32) && decide (c.pageSize < 2 ^ 32)

/-- The constraints of R7, with the parameter types of R6 and R9 (32-bit sizes, `ADDR_BYTES` 3 or 4, one bit in
`WIP_MASK`, no empty transaction in a prelude). A configuration that breaks one is refused. Log 21. -/
def ok (c : Config) : Bool :=
  decide (1 ≤ c.sectorSize) && decide (1 ≤ c.totalSize) && decide (c.totalSize % c.sectorSize = 0)
    && (decide (c.pageSize = 0) || decide (c.sectorSize % c.pageSize = 0))
    && decide (c.totalSize ≤ 2 ^ (8 * c.addrBytes))
    && (decide (c.addrBytes = 3) || decide (c.addrBytes = 4))
    && decide (c.wipMask ≠ 0) && decide (c.wipMask &&& (c.wipMask - 1) = 0)
    && c.initPrelude.all (fun t => !t.isEmpty) && c.writePrelude.all (fun t => !t.isEmpty)
    && c.sizesFit

/-- The six command bytes a chip tells transactions apart by. -/
def commandBytes (c : Config) : List Byte :=
  [c.cmdReadId, c.cmdReadStatus, c.cmdRead, c.cmdProgram, c.cmdSectorErase, c.cmdChipErase]

/-- Reference profile `G` (R96, PRESUMED by the spec itself: general knowledge, GK1) over a geometry, with the test
identity of spec/95_test_vectors.md (GK9) and the depth-1 receive holding of the source (R11). Log 1. -/
def profileG (total sector page : Nat) : Config where
  totalSize      := total
  sectorSize     := sector
  pageSize       := page
  expMfr         := 0xEF#8
  expDev         := 0x4014#16
  addrBytes      := 3
  cmdReadId      := 0x9F#8
  cmdRead        := 0x03#8
  cmdProgram     := 0x02#8
  cmdSectorErase := 0x20#8
  cmdChipErase   := 0xC7#8
  cmdReadStatus  := 0x05#8
  wipMask        := 0x01#8
  initPrelude    := []
  writePrelude   := [[0x06#8]]
  dummy          := 0x00#8
  rxDepth        := some 1
  flowPolicy     := .lenient
  baudRate       := 0

/-- Test configuration T1 of spec/95_test_vectors.md. -/
def t1 : Config := profileG 0x100000 4096 256

/-- Test configuration T2. -/
def t2 : Config := profileG 32 8 4

/-- Test configuration T3: no page write. -/
def t3 : Config := profileG 16 8 0

/-- FREE VALUE: the bits of a status byte that nobody names (R59, U2), one draw for each status read. Log 6. -/
opaque statusNoise : Nat → Byte

/-- FREE VALUE: what a reset in the middle of a flash operation leaves at an address (R223, U8): the draw, then the
address. Log 17. -/
opaque tornByte : Nat → Nat → Byte

end Config
end Sys2Proof
end

