-- ==== Sys2Proof/Syntax.lean ====
section
/-!
DEFINITION. Syntax.lean: the instructions of spec/opcode_table.json, one constructor per row, and the links they
travel on.
-/
namespace Sys2Proof

/-- One row of the opcode table per constructor (spec/30_encoding.md). -/
inductive Instr where
  /-- `READ_FLASH address, length` (R83, R155): a decoded frame. -/
  | readFlash (address length : Word)
  /-- `WRITE_FLASH address, length` (R83, R156): a decoded frame; its payload follows on the serial link. -/
  | writeFlash (address length : Word)
  /-- `IGNORED`: any byte that is neither opcode (R83, R87, R142). -/
  | ignored (b : Byte)
  /-- `READY`: the byte 0x42 the block sends before each payload byte (R88). -/
  | ready
  /-- `T_RAW(b)`: one element of a prelude (R97). -/
  | tRaw (bytes : List Byte)
  /-- `T_READ_ID` (R95). -/
  | tReadId
  /-- `T_READ_STATUS` (R95). -/
  | tReadStatus
  /-- `T_READ(a, n)` (R92). -/
  | tRead (address count : Word)
  /-- `T_PROGRAM(a, d)` (R93). -/
  | tProgram (address : Word) (data : List Byte)
  /-- `T_SECTOR_ERASE(a)` (R94). -/
  | tSectorErase (address : Word)
  /-- `T_CHIP_ERASE` (R94). -/
  | tChipErase
  /-- Command line `r <address> <byte-count> <file>` (R98, R99, R174). -/
  | cliR (address count : Word)
  /-- Command line `w <address> <file>` (R98, R99, R173): the size the host finds, and the bytes the file yields
  (fewer than the size if the source is exhausted early; of more than the size, the first `size` are sent). -/
  | cliW (address size : Word) (file : List Byte)
  /-- Command line `d <address> <instruction-count>` (R98, R99, R177). -/
  | cliD (address count : Word)
  deriving DecidableEq, Repr

/-- What the user typed on the host: the three forms of R98. -/
inductive CommandLine where
  | r (address count : Word)
  | w (address size : Word) (file : List Byte)
  | d (address count : Word)
  deriving DecidableEq, Repr

/-- The row of the opcode table a command line stands for. -/
def CommandLine.toInstr : CommandLine → Instr
  | .r a n => .cliR a n
  | .w a size file => .cliW a size file
  | .d a c => .cliD a c

/-- The four byte streams an instruction's encoding can lie on: host to block, block to host, block to flash, and the
frames a host command line is turned into (R99). -/
inductive Link where
  | serialDown
  | serialUp
  | spi
  | hostLine
  deriving DecidableEq, Repr

/-- The link of each row (its "direction" in the opcode table). -/
def Instr.link : Instr → Link
  | .readFlash _ _ => .serialDown
  | .writeFlash _ _ => .serialDown
  | .ignored _ => .serialDown
  | .ready => .serialUp
  | .tRaw _ => .spi
  | .tReadId => .spi
  | .tReadStatus => .spi
  | .tRead _ _ => .spi
  | .tProgram _ _ => .spi
  | .tSectorErase _ => .spi
  | .tChipErase => .spi
  | .cliR _ _ => .hostLine
  | .cliW _ _ _ => .hostLine
  | .cliD _ _ => .hostLine

end Sys2Proof
end

