-- ==== Sys2Proof/Machine/State.lean ====
section
/-!
DEFINITION. Machine/State.lean: the state of the three agents (spec/10_state.md, 20_memory.md R55, 42_host_environment.md),
the reasons a step can stop, and the state after reset (R45).
-/
namespace Sys2Proof.Machine

/-- Driver state `drv` (R21). -/
inductive DrvState where
  | uninitialized
  | verifying
  | ready
  | faulted
  deriving DecidableEq, Repr

/-- Executor control state `seq` (R22). -/
inductive Seq where
  | reset
  | init
  | halt
  | waitCmd
  | hdr
  | chunk
  | rdFill
  | rdDrain
  | wrReady
  | wrRecv
  | wrErase
  | wrProgram
  deriving DecidableEq, Repr

/-- Where a driver operation is between two SPI transactions (R111, R117, R124, R126): about to issue transaction `k`
of its prelude (or its own transaction, once the prelude is done), or polling. Log 22. -/
inductive Micro where
  | issue (k : Nat)
  | poll
  deriving DecidableEq, Repr

/-- `fault_cause` (R34, R190). -/
inductive FaultCause where
  | none
  | identityMismatch
  deriving DecidableEq, Repr

/-- The event alphabet (R12). A returned SPI byte the block discards is `none` (written `-` in R92, `--` in
spec/95_test_vectors.md). Log 7. -/
inductive Event where
  | rx (b : Byte)
  | tx (b : Byte)
  | cs (v : Bool)
  | xfer (m : Byte) (s : Option Byte)
  | led (v : Bool)
  deriving DecidableEq, Repr

/-- One thing the host does next: send a byte, take a byte that should be the ready byte, take a byte of flash
content (R173, R174). -/
inductive HostAct where
  | send (b : Byte)
  | awaitReady
  | takeData
  deriving DecidableEq, Repr

/-- What happens next: a move of one of the three agents (R20), or the hardware reset (R220), between two transactions
or, `cut k`, after `k` exchanges of the SPI transaction the block is about to issue (R223). Logs 4 and 8. -/
inductive Turn where
  | block
  | host
  | flash
  | reset
  | cut (k : Nat)
  deriving DecidableEq, Repr

/-- Flash content: cells with strictly rising addresses, none equal to what an unlisted address reads as. -/
abbrev Memory := List Host.Cell

/-- The flash chip (R55, R59, R60, R61). -/
structure Flash where
  mem       : Memory
  /-- The operation in progress. -/
  wip       : Bool
  /-- First byte and number of bytes the last program or erase works on (R223). -/
  opBase    : Nat
  opLen     : Nat
  /-- How many more polls see the operation busy; `none`: every one, unless a turn of the chip comes (R59, U1). Log 5. -/
  busyPolls : Option Nat
  /-- The same for each later operation. -/
  draws     : List (Option Nat)
  chipMfr   : Byte
  chipDev   : Half
  /-- The raw transactions that came directly before now (R60). Log 9. -/
  rawRun    : List (List Byte)
  deriving DecidableEq, Repr

/-- The host computer (R170, R173 to R175). Log 18. -/
structure HostSide where
  commands : List CommandLine
  script   : List HostAct
  /-- Bytes the block has sent and the host has not taken: the serial transmit stream. -/
  inbox    : List Byte
  /-- Bytes written to the destination of the current `r` or `d`. -/
  sink     : List Byte
  /-- How many more bytes that destination takes; `none`: any number (R174). -/
  sinkRoom : Option Nat
  /-- The same for the destination of each later `r` or `d`; unlisted ones take any number. Log 32. -/
  rooms    : List (Option Nat)
  /-- Unexpected flow-control bytes seen (R175). -/
  warnings : Nat
  deriving DecidableEq, Repr

/-- Everything the spec gives the machine, with the fields of INVENTORY.md's "## State". -/
structure State where
  /-- The configuration record: a constant of the run (R37). Log 1. -/
  cfg        : Config
  drv        : DrvState
  seq        : Seq
  micro      : Micro
  op         : Byte
  reqAddr    : Word
  reqLen     : Word
  hdrIdx     : BitVec 3
  curAddr    : Word
  rem        : Word
  chunkLen   : Word
  bufIdx     : Word
  idMfr      : Byte
  idDev      : Half
  status     : Byte
  buf        : List Byte
  wrOff      : Word
  wrPageMode : Bool
  erAddr     : Word
  erCount    : Word
  erIdx      : Word
  cs         : Bool
  ledBusy    : Bool
  faultCause : FaultCause
  rxQ        : List Byte
  txFinished : Bool
  trace      : List Event
  flash      : Flash
  host       : HostSide
  turns      : List Turn
  /-- Draws made from the free values of Config. Logs 6 and 17. -/
  noise      : Nat
  deriving DecidableEq, Repr

/-- Why the machine stops with a fault. -/
inductive Fault where
  /-- A staging-buffer index at or above `SECTOR_SIZE`: R30 gives the buffer the indexes 0 to `SECTOR_SIZE - 1` and no
  other. Raised by `T_READ` with a count above `SECTOR_SIZE`, and by `S_RD_DRAIN` and `S_WR_RECV` in states no run
  reaches. Safe: the block's own calls never do it (R114). Log 15. -/
  | stagingIndex
  deriving DecidableEq, Repr

/-- Why an instruction or a step has no meaning. -/
inductive Refusal where
  /-- The instruction of this mnemonic has no meaning yet. -/
  | notModelled (mnemonic : String)
  /-- The configuration breaks R7 (U16: "refuse"). Raised by `step`. Safe. -/
  | badConfiguration
  /-- `req_addr + req_len > TOTAL_SIZE` (R146, U3: "refuses"). Raised by `READ_FLASH` and `WRITE_FLASH`. Safe. -/
  | outOfContract
  /-- An operation the driver state does not allow (R110: "In `drv = Faulted` no driver operation is run"; "All data
  operations require `Ready`"). Raised by the frames, `READY` and the SPI transactions. Safe. -/
  | driverNotReady
  /-- A transaction without a byte, which R90 and R97 exclude. Raised by `T_RAW`. Safe. -/
  | emptyTransaction
  /-- A flash address at or beyond `TOTAL_SIZE` (R52: "the model refuses such a request"). Raised by `T_READ`,
  `T_PROGRAM` and `T_SECTOR_ERASE`. Safe. -/
  | flashAddress
  /-- A sector erase that is not sector aligned (R58, U4, U19). Raised by `T_SECTOR_ERASE`. Safe. -/
  | eraseUnaligned
  /-- A read, program or erase sent to a busy chip (R59: "What the chip does with a read, program or erase transaction
  received while `wip = 1` is not in the source"; U10: "*refuse* in the flash model"). Raised by `T_READ`, `T_PROGRAM`,
  `T_SECTOR_ERASE` and `T_CHIP_ERASE`. Safe: a chip left to itself ends its operation by its own step (`flashMove`). -/
  | flashBusy
  /-- `erase_region` outside its precondition (R121, U4: "refuse"). Raised by the block's move in `S_WR_ERASE`. Safe. -/
  | eraseRegion
  /-- Serial receive overrun (R40, U6: "refuse the run"). Raised by the host's move. Safe. -/
  | rxOverrun
  /-- `instruction_count * 4` does not fit 32 bits (R99, U22: "refuse in a host model"). Raised by `d`. Safe. -/
  | dumpOverflow
  deriving DecidableEq, Repr

/-- What a step answers. -/
abbrev Outcome := Host.Outcome State Fault Refusal

/-- The configuration of the reset state: profile `G`, geometry T1. DESIGN CHOICE; no claim rests on it. Log 1. -/
def resetConfig : Config := Config.t1

/-- The chip at reset: freshly erased, idle, reporting the expected identity. DESIGN CHOICE (U12, U15). Log 3. -/
def Flash.atReset (c : Config) : Flash where
  mem       := []
  wip       := false
  opBase    := 0
  opLen     := 0
  busyPolls := some 0
  draws     := []
  chipMfr   := c.expMfr
  chipDev   := c.expDev
  rawRun    := []

/-- A silent host. DESIGN CHOICE. Log 18. -/
def HostSide.atReset : HostSide where
  commands := []
  script   := []
  inbox    := []
  sink     := []
  sinkRoom := none
  rooms    := []
  warnings := 0

/-- The block right after reset over a configuration: the values of R45; a register R45 leaves without a value is 0
(DESIGN CHOICE, log 2). -/
def State.atReset (c : Config) : State where
  cfg        := c
  drv        := .uninitialized
  seq        := .reset
  micro      := .issue 0
  op         := 0
  reqAddr    := 0
  reqLen     := 0
  hdrIdx     := 0
  curAddr    := 0
  rem        := 0
  chunkLen   := 0
  bufIdx     := 0
  idMfr      := 0
  idDev      := 0
  status     := 0
  buf        := List.replicate c.sectorSize 0
  wrOff      := 0
  wrPageMode := false
  erAddr     := 0
  erCount    := 0
  erIdx      := 0
  cs         := false
  ledBusy    := false
  faultCause := .none
  rxQ        := []
  txFinished := true
  trace      := []
  flash      := Flash.atReset c
  host       := HostSide.atReset
  turns      := []
  noise      := 0

/-- The machine right after reset. -/
def State.reset : State := State.atReset resetConfig

end Sys2Proof.Machine
end

