-- ==== Sys2Proof/Machine/Flags.lean ====
section
/-!
DEFINITION. Machine/Flags.lean: the one-bit conditions of spec/10_state.md R32, R33 and R35. The block has no
arithmetic flags.
-/
namespace Sys2Proof.Machine

/-- `faulted`: true exactly when `drv = Faulted` (R16, R32). -/
def State.faulted (s : State) : Bool := s.drv == .faulted

/-- *byte received* (R33 a): set while the receive holding has a byte. -/
def State.byteReceived (s : State) : Bool := !s.rxQ.isEmpty

/-- The result of `is_busy` on a status byte (R125): only the `WIP_MASK` bit counts. -/
def busyBit (c : Config) (status : Byte) : Bool := (status &&& c.wipMask) != 0

/-- *flash busy* (R33 c): the last status byte the block sampled. -/
def State.flashBusy (s : State) : Bool := busyBit s.cfg s.status

/-- The status byte of the chip: the `WIP_MASK` bit tells the operation in progress, every other bit is free (R59, U2).
`d` is the draw. Log 6. -/
def statusByte (c : Config) (wip : Bool) (d : Nat) : Byte :=
  if wip then Config.statusNoise d ||| c.wipMask else Config.statusNoise d &&& ~~~c.wipMask

/-- The write-enable latch (R39, R55, R60): the transactions of `WRITE_PRELUDE` came directly before now. With an empty
prelude every program and erase takes effect. Log 9. -/
def Flash.wel (c : Config) (f : Flash) : Bool := c.writePrelude.isSuffixOf f.rawRun

end Sys2Proof.Machine
end

