-- ==== Sys2Proof/WellFormed.lean ====
section
/-!
DEFINITION. WellFormed.lean: which instruction terms the encodings of spec/30_encoding.md can carry under a
configuration.
-/
namespace Sys2Proof

/-- The bytes one program transaction may carry (R93, R57): a page, or one byte on a variant without pages. -/
def Config.programLimit (c : Config) : Nat := if c.pageSize = 0 then 1 else c.pageSize

/-- An address that `ADDR_BYTES` bytes carry whole (R91). -/
def Config.addressFits (c : Config) (a : Word) : Bool := decide (a.toNat < 2 ^ (8 * c.addrBytes))

/-- Is the term one the encoding admits? Frames have no reserved field values (R87). -/
def Instr.wellFormed (c : Config) : Instr → Bool
  | .readFlash _ _ => true
  | .writeFlash _ _ => true
  | .ignored b => decide (b ≠ opReadFlash) && decide (b ≠ opWriteFlash)
  | .ready => true
  | .tRaw bytes => !bytes.isEmpty
  | .tReadId => true
  | .tReadStatus => true
  | .tRead a n => c.addressFits a && decide (1 ≤ n.toNat)
  | .tProgram a d => c.addressFits a && !d.isEmpty && decide (d.length ≤ c.programLimit)
  | .tSectorErase a => c.addressFits a && decide (a.toNat % c.sectorSize = 0)
  | .tChipErase => true
  | .cliR _ _ => true
  | .cliW _ _ _ => true
  | .cliD _ count => decide (count.toNat * 4 < 2 ^ 32)

end Sys2Proof
end

