-- ==== Sys2Proof/Decode.lean ====
section
/-!
DEFINITION. Decode.lean: the byte layouts of spec/30_encoding.md, read (decoders, one for each link) and written
(encoder). Every decoder is total and rejects by name.
-/
namespace Sys2Proof

/-- Why bytes are no instruction of their link. -/
inductive DecodeError where
  /-- No byte at all. -/
  | empty
  /-- An opcode byte with fewer than 8 header bytes after it: the frame is not complete yet (R81, R193). -/
  | shortHeader
  /-- A byte other than 0x42 where a ready byte is due (R88, R175). -/
  | notReady
  deriving DecidableEq, Repr

/-- What a decoder answers: the instruction and the bytes after it, or a named rejection. -/
inductive Decoded where
  | instr (i : Instr) (rest : List Byte)
  | rejected (e : DecodeError)
  deriving DecidableEq, Repr

/-- The instruction alone. -/
def Decoded.instr? : Decoded → Option Instr
  | .instr i _ => some i
  | .rejected _ => none

/-! ## Fields -/

/-- The four bytes of a 32-bit field, most significant first (R81). -/
def be32 (v : Word) : List Byte :=
  [v.extractLsb' 24 8, v.extractLsb' 16 8, v.extractLsb' 8 8, v.extractLsb' 0 8]

/-- Field assembly: `h1 ++ h2 ++ h3 ++ h4` (R84). -/
def joinBe32 (b3 b2 b1 b0 : Byte) : Word := b3 ++ b2 ++ b1 ++ b0

/-- One header byte shifted into a field: `(v * 256 + h) mod 2^32` (R140, R143, R159). -/
def shiftIn (v : Word) (h : Byte) : Word := v * 256#32 + h.setWidth 32

/-- `AddrBytes(a)`: the low `ADDR_BYTES` bytes of the address, most significant first (R51, R91). -/
def addrBytesOf (c : Config) (a : Word) : List Byte := (be32 a).drop (4 - c.addrBytes)

/-- The address a list of address bytes stands for, most significant first (R91). -/
def joinAddr (bs : List Byte) : Word := bs.foldl shiftIn 0

/-- Is the byte one of the two opcodes? All 8 bits are compared (R83). -/
def isOpcode (b : Byte) : Bool := b == opReadFlash || b == opWriteFlash

/-- The command a complete header stands for: opcode 0x10 is `READ_FLASH`; the executor's other branch is
`WRITE_FLASH` (R83, R140). -/
def commandOf (op : Byte) (address length : Word) : Instr :=
  if op = opReadFlash then .readFlash address length else .writeFlash address length

/-! ## Decoders -/

/-- Host to block: one byte, or a 9-byte header (R81, R83, R86). What follows a `WRITE_FLASH` header is its payload,
which has no encoding (R85). -/
def decodeFrame : List Byte → Decoded
  | [] => .rejected .empty
  | b :: rest =>
    if isOpcode b then
      match rest with
      | a3 :: a2 :: a1 :: a0 :: n3 :: n2 :: n1 :: n0 :: tail =>
        .instr (commandOf b (joinBe32 a3 a2 a1 a0) (joinBe32 n3 n2 n1 n0)) tail
      | _ => .rejected .shortHeader
    else .instr (.ignored b) rest

/-- Block to host, where a ready byte is due: 0x42 and nothing else (R88). -/
def decodeReply : List Byte → Decoded
  | [] => .rejected .empty
  | b :: rest => if b = readyByte then .instr .ready rest else .rejected .notReady

/-- Block to flash: the bytes driven in one transaction (R90 to R95, R97), told apart by the command byte and the
length. What carries no command of the record is a raw transaction. -/
def decodeSpi (c : Config) : List Byte → Decoded
  | [] => .rejected .empty
  | m :: rest =>
    if m = c.cmdReadId ∧ rest.length = 3 then .instr .tReadId []
    else if m = c.cmdReadStatus ∧ rest.length = 1 then .instr .tReadStatus []
    else if m = c.cmdRead ∧ c.addrBytes < rest.length then
      .instr (.tRead (joinAddr (rest.take c.addrBytes)) (BitVec.ofNat 32 (rest.length - c.addrBytes))) []
    else if m = c.cmdProgram ∧ c.addrBytes < rest.length then
      .instr (.tProgram (joinAddr (rest.take c.addrBytes)) (rest.drop c.addrBytes)) []
    else if m = c.cmdSectorErase ∧ rest.length = c.addrBytes then .instr (.tSectorErase (joinAddr rest)) []
    else if m = c.cmdChipErase ∧ rest = [] then .instr .tChipErase []
    else .instr (.tRaw (m :: rest)) []

/-- The decoder of each link. A command line's bytes are the frame it was expanded into (R99). -/
def decode (c : Config) : Link → List Byte → Decoded
  | .serialDown, bs => decodeFrame bs
  | .serialUp, bs => decodeReply bs
  | .spi, bs => decodeSpi c bs
  | .hostLine, bs => decodeFrame bs

/-! ## Encoder -/

/-- The 9 header bytes of a frame (R81, R100). -/
def frameHeader (op : Byte) (address length : Word) : List Byte := op :: (be32 address ++ be32 length)

/-- The byte count of a dump: `instruction_count * 4` (R99); its product is below `2^32` in a well-formed line. -/
def dumpLength (count : Word) : Word := BitVec.ofNat 32 (count.toNat * 4)

/-- The bytes of an instruction on its link: what the host sends for a frame (R81), the byte the block sends (R88),
the bytes the block drives in an SPI transaction (the summary table of spec/30_encoding.md), the frame and payload of
a command line (R99). -/
def encode (c : Config) : Instr → List Byte
  | .readFlash a n => frameHeader opReadFlash a n
  | .writeFlash a n => frameHeader opWriteFlash a n
  | .ignored b => [b]
  | .ready => [readyByte]
  | .tRaw bytes => bytes
  | .tReadId => [c.cmdReadId, c.dummy, c.dummy, c.dummy]
  | .tReadStatus => [c.cmdReadStatus, c.dummy]
  | .tRead a n => c.cmdRead :: (addrBytesOf c a ++ List.replicate n.toNat c.dummy)
  | .tProgram a d => c.cmdProgram :: (addrBytesOf c a ++ d)
  | .tSectorErase a => c.cmdSectorErase :: addrBytesOf c a
  | .tChipErase => [c.cmdChipErase]
  | .cliR a n => frameHeader opReadFlash a n
  | .cliW a size file => frameHeader opWriteFlash a size ++ file.take size.toNat
  | .cliD a count => frameHeader opReadFlash a (dumpLength count)

/-- The instruction the bytes of `i` decode to: itself, but for a command line, which is another name for the frame
it sends (R99). -/
def Instr.direct : Instr → Instr
  | .cliR a n => .readFlash a n
  | .cliW a size _ => .writeFlash a size
  | .cliD a count => .readFlash a (dumpLength count)
  | .readFlash a n => .readFlash a n
  | .writeFlash a n => .writeFlash a n
  | .ignored b => .ignored b
  | .ready => .ready
  | .tRaw bytes => .tRaw bytes
  | .tReadId => .tReadId
  | .tReadStatus => .tReadStatus
  | .tRead a n => .tRead a n
  | .tProgram a d => .tProgram a d
  | .tSectorErase a => .tSectorErase a
  | .tChipErase => .tChipErase

/-- What follows an instruction's own bytes in its encoding: the payload of a `w` line, at most `size` bytes (R173). -/
def Instr.payload : Instr → List Byte
  | .cliW _ size file => file.take size.toNat
  | .readFlash _ _ | .writeFlash _ _ | .ignored _ | .ready | .tRaw _ | .tReadId | .tReadStatus | .tRead _ _ => []
  | .tProgram _ _ | .tSectorErase _ | .tChipErase | .cliR _ _ | .cliD _ _ => []

/-! ## The table's numbering -/

/-- Byte `k` of a word numbered as the opcode table numbers it: the first byte is bits 7..0, the next 15..8. -/
def tableByte (w k : Nat) : Byte := BitVec.ofNat 8 (w >>> (8 * k))

/-- The 9 bytes of the longest frame, of which only the first `nbits` bits are the table's and the rest are 0. -/
def tableBytes (nbits w : Nat) : List Byte := (List.range 9).map (tableByte (w % 2 ^ nbits))

/-- The instruction the block's decoder reads from a table word. Log 20: the row READY (0x42) is a byte the block
produces; as a received byte the same value is `IGNORED` (R87). -/
def decodeTableWord (nbits w : Nat) : Option Instr := (decodeFrame (tableBytes nbits w)).instr?

end Sys2Proof
end

