-- ==== Sys2Proof/Machine/Operands.lean ====
section
/-!
DEFINITION. Machine/Operands.lean: the operands of the driver operations and of the chip (spec/20_memory.md,
40_flash_driver.md, 41_command_executor.md), computed in unbounded naturals (R159).
-/
namespace Sys2Proof.Machine

/-! ## Addresses -/

/-- The address the chip sees: the low `8*ADDR_BYTES` bits (R51). -/
def spiAddr (c : Config) (a : Word) : Nat := a.toNat % 2 ^ (8 * c.addrBytes)

/-- The page a program transaction stays in: `PAGE_SIZE`, or 1 on a variant without pages (R57). -/
def progPage (c : Config) : Nat := if c.pageSize = 0 then 1 else c.pageSize

/-- The address data byte `i` of a program transaction at `a` goes to: it wraps inside the page (R57). -/
def progTarget (c : Config) (a i : Nat) : Nat := a / progPage c * progPage c + (a % progPage c + i) % progPage c

/-- A request in contract (R146). -/
def inContract (c : Config) (address length : Word) : Bool := decide (address.toNat + length.toNat ≤ c.totalSize)

/-- `identity_ok` (R112): all 24 bits match. -/
def identityOk (c : Config) (mfr : Byte) (dev : Half) : Bool := mfr == c.expMfr && dev == c.expDev

/-! ## Chunks (R145, R152) -/

/-- `min(rem, SECTOR_SIZE)` (R145). -/
def State.chunkSize (s : State) : Nat := min s.rem.toNat s.cfg.sectorSize

/-- First covering sector of the chunk (R152). -/
def State.coverFirst (s : State) : Nat := s.curAddr.toNat / s.cfg.sectorSize

/-- Last covering sector of the chunk (R152). -/
def State.coverLast (s : State) : Nat := (s.curAddr.toNat + s.chunkLen.toNat - 1) / s.cfg.sectorSize

/-- Number of covering sectors (R152). -/
def State.coverCount (s : State) : Nat := s.coverLast - s.coverFirst + 1

/-! ## erase_region (R121, R122) -/

/-- The precondition of `erase_region` (R121). -/
def eraseRegionOk (c : Config) (address count : Word) : Bool :=
  decide (address.toNat % c.sectorSize = 0) && decide (address.toNat + count.toNat * c.sectorSize ≤ c.totalSize)

/-- The region is the whole chip, so the chip erase serves (R122). -/
def eraseWholeChip (c : Config) (address count : Word) : Bool :=
  address == 0 && decide (count.toNat = c.sectorCount)

/-- The erase operation number `er_idx` of the call in progress (R122, R124). -/
def State.eraseInstr (s : State) : Instr :=
  if eraseWholeChip s.cfg s.erAddr s.erCount then .tChipErase
  else .tSectorErase (BitVec.ofNat 32 (s.erAddr.toNat + s.erIdx.toNat * s.cfg.sectorSize))

/-- Is there another erase operation (R122)? The chip erase is one, before the first poll; `er_idx` counts the sectors. -/
def State.erasePending (s : State) : Bool :=
  decide (s.erCount ≠ 0) && (eraseWholeChip s.cfg s.erAddr s.erCount || decide (s.erIdx.toNat < s.erCount.toNat))

/-! ## write_bytes (R118) -/

/-- Page mode: the variant has pages and the call's address is page aligned (R118). -/
def pageAligned (c : Config) (a : Word) : Bool := decide (c.pageSize ≠ 0) && decide (a.toNat % c.pageSize = 0)

/-- Length of the next program transaction (R118). -/
def State.programLen (s : State) : Nat :=
  if s.wrPageMode then min s.cfg.pageSize (s.chunkLen.toNat - s.wrOff.toNat) else 1

/-- Its address (R118). -/
def State.programAddr (s : State) : Word := s.curAddr + s.wrOff

/-- Its data: `data[wr_off .. wr_off+k-1]` of the staging buffer (R118). -/
def State.programData (s : State) : List Byte := (s.buf.drop s.wrOff.toNat).take s.programLen

/-- The next program transaction. -/
def State.programInstr (s : State) : Instr := .tProgram s.programAddr s.programData

/-- `wr_off < length` (R118). -/
def State.programPending (s : State) : Bool := decide (s.wrOff.toNat < s.chunkLen.toNat)

end Sys2Proof.Machine
end

