-- ==== Sys2Proof/Machine/Ops.lean ====
section
/-!
DEFINITION. Machine/Ops.lean: the shared operations: flash content, the chip's operations, the byte primitives of
spec/00_scope.md R14, SPI transactions (R90), the one exception (60_exceptions.md R190) and the hardware reset, the
only way out of it (R195, R220).
-/
namespace Sys2Proof.Machine

/-! ## Flash content (R50, R55) -/

/-- What an unlisted byte reads as: erased flash (DESIGN CHOICE for the reset content, log 3). -/
def Memory.blank : Byte := 0xFF#8

/-- Reading one byte. -/
def Memory.read : Memory → Nat → Byte
  | [], _ => Memory.blank
  | (k, v) :: rest, a => if k = a then v else Memory.read rest a

/-- The entry for one address, if it must be listed. -/
def Memory.entry (a : Nat) (v : Byte) : Memory := if v = Memory.blank then [] else [(a, v)]

/-- Writing one byte; the canonical form is kept. -/
def Memory.write : Memory → Nat → Byte → Memory
  | [], a, v => Memory.entry a v
  | (k, w) :: rest, a, v =>
    if a < k then Memory.entry a v ++ (k, w) :: rest
    else if a = k then Memory.entry a v ++ rest
    else (k, w) :: Memory.write rest a v

/-- Setting `n` bytes from `a` to 0xFF (R58): they are no longer listed. -/
def Memory.erase (m : Memory) (a n : Nat) : Memory := m.filter (fun c => !(decide (a ≤ c.1) && decide (c.1 < a + n)))

/-- The bytes `a .. a+n-1` in ascending order (R56). -/
def Memory.slice (m : Memory) (a n : Nat) : List Byte := (List.range n).map (fun i => Memory.read m (a + i))

/-- Every address is above `lo` and they rise strictly; no entry equals the blank byte. -/
def Memory.wfFrom : Nat → Memory → Bool
  | _, [] => true
  | lo, (k, v) :: rest => decide (lo ≤ k) && decide (v ≠ Memory.blank) && Memory.wfFrom (k + 1) rest

/-- The canonical form. -/
def Memory.wf (m : Memory) : Bool := Memory.wfFrom 0 m

/-- Every listed address exists (R50). -/
def Memory.below (m : Memory) (total : Nat) : Bool := m.all (fun c => decide (c.1 < total))

/-- Programming (R57): byte `i` is ANDed into its target, in order. `i` counts from the first byte of the
transaction. -/
def Memory.programFrom (c : Config) (a : Nat) : Nat → List Byte → Memory → Memory
  | _, [], m => m
  | i, d :: ds, m =>
    Memory.programFrom c a (i + 1) ds
      (Memory.write m (progTarget c a i) (Memory.read m (progTarget c a i) &&& d))

/-- `T_PROGRAM(a, d)` on the content (R57). -/
def Memory.program (c : Config) (m : Memory) (a : Nat) (d : List Byte) : Memory := Memory.programFrom c a 0 d m

/-- Setting `n` bytes from `a`, one after the other, to what a reset left there (R223). -/
def Memory.tear (m : Memory) (d a : Nat) : Nat → Memory
  | 0 => m
  | n + 1 => Memory.write (Memory.tear m d a n) (a + n) (Config.tornByte d (a + n))

/-! ## The chip (R55 to R61) -/

/-- A raw transaction: it counts towards the write enable (R60, R97). Log 10. -/
def Flash.raw (f : Flash) (b : List Byte) : Flash := { f with rawRun := f.rawRun ++ [b] }

/-- Any other transaction ends the run of raw ones (R60: "directly before"). -/
def Flash.endRaw (f : Flash) : Flash := { f with rawRun := [] }

/-- A program or erase takes effect on the content and the operation begins: `wip <- 1` (R57, R58); how many polls will
see it busy is the next draw (R59, U1). The latch stays as it is until the operation ends (`Flash.finish`). -/
def Flash.begin (f : Flash) (m : Memory) (base len : Nat) : Flash :=
  { f with mem := m, wip := true, opBase := base, opLen := len, busyPolls := f.draws.headD (some 0),
           draws := f.draws.tail }

/-- A program or erase: ignored unless write enabled (R60). -/
def Flash.modify (c : Config) (f : Flash) (m : Memory) (base len : Nat) : Flash :=
  if f.wel c then f.begin m base len else f.endRaw

/-- `T_PROGRAM` as the chip takes it, at `CS(0)` (R57). -/
def Flash.program (c : Config) (f : Flash) (a : Nat) (d : List Byte) : Flash :=
  f.modify c (Memory.program c f.mem a d) (a / progPage c * progPage c) (progPage c)

/-- `T_SECTOR_ERASE` as the chip takes it (R58). -/
def Flash.sectorErase (c : Config) (f : Flash) (a : Nat) : Flash :=
  f.modify c (Memory.erase f.mem a c.sectorSize) a c.sectorSize

/-- `T_CHIP_ERASE` as the chip takes it: every byte 0xFF (R58). -/
def Flash.chipErase (c : Config) (f : Flash) : Flash := f.modify c [] 0 c.totalSize

/-- The chip's own step: the operation in progress ends (R20, R59), and with it the write-enable latch is cleared (R39,
R60). An idle chip has none to end. Log 9. -/
def Flash.finish (f : Flash) : Flash := { f with wip := false, rawRun := if f.wip then [] else f.rawRun }

/-- The chip at a status read: its own step comes first if the draw has run out (R59). A status read that sees the
operation in progress leaves the latch, which clears when it ends (R39, R60). Logs 5 and 9. -/
def Flash.poll (f : Flash) : Flash :=
  match f.wip, f.busyPolls with
  | true, some 0 => f.finish
  | true, some (k + 1) => { f with busyPolls := some k }
  | true, none => f
  | false, _ => f.endRaw

/-! ## Events and outputs (R12, R14) -/

/-- Appending events to the trace. -/
def State.emit (s : State) (es : List Event) : State := { s with trace := s.trace ++ es }

/-- `Led(v)`: an event only if the level changes (R14). -/
def State.led (s : State) (v : Bool) : State :=
  { s with ledBusy := v, trace := if s.ledBusy = v then s.trace else s.trace ++ [.led v] }

/-- The host's side of the serial transmit stream takes a byte. -/
def HostSide.receive (h : HostSide) (b : Byte) : HostSide := { h with inbox := h.inbox ++ [b] }

/-- `SerialWrite(b)`: event `TX(b)`; the transfer completes (R12, R14, R193) and sets the transmission-finished flag
(R33 b). Log 26. -/
def State.serialWrite (s : State) (b : Byte) : State :=
  { s with trace := s.trace ++ [.tx b], host := s.host.receive b, txFinished := true }

/-- `SerialRead()` when the byte `b` is the oldest waiting: event `RX(b)`, and the byte is consumed (R14, R40). The block
calls it only when a byte is there; else it waits. -/
def State.serialTake (s : State) (b : Byte) : State :=
  { s with rxQ := s.rxQ.tail, trace := s.trace ++ [.rx b] }

/-- One SPI transaction (R90): `CS(1)`, the exchanges, `CS(0)`. -/
def State.spi (s : State) (xs : List Event) : State :=
  { s with cs := false, trace := s.trace ++ (.cs true :: xs ++ [.cs false]) }

/-- Exchanges whose returned byte is discarded (R90). -/
def sent (bs : List Byte) : List Event := bs.map (fun b => .xfer b none)

/-- Exchanges that drive `DUMMY` and keep what returns (R90). -/
def kept (c : Config) (bs : List Byte) : List Event := bs.map (fun b => .xfer c.dummy (some b))

/-- Replacing the chip. -/
def State.setFlash (s : State) (f : Flash) : State := { s with flash := f }

/-- Replacing the host. -/
def State.setHost (s : State) (h : HostSide) : State := { s with host := h }

/-- The first bytes of the staging buffer are replaced; the others keep what they held (R30, R114, U13). -/
def State.fillBuf (s : State) (bs : List Byte) : State := { s with buf := bs ++ s.buf.drop bs.length }

/-! ## Gates -/

/-- "All data operations require `Ready`" (R110). -/
def whenReady (s : State) (k : Outcome) : Outcome :=
  if s.drv = .ready then k else .refused .driverNotReady

/-- "In `drv = Faulted` no driver operation is run and no SPI event occurs, ever" (R110, R201). -/
def unlessFaulted (s : State) (k : Outcome) : Outcome :=
  if s.drv = .faulted then .refused .driverNotReady else k

/-- A read, program or erase sent while the chip is busy: what the chip does is not in the source, and the flash model
refuses (R59, U10). Log 14. -/
def unlessBusy (s : State) (k : Outcome) : Outcome :=
  if s.flash.wip then .refused .flashBusy else k

/-- Going on from a next state; a fault or a refusal stops. -/
def andThen (o : Outcome) (k : State → Outcome) : Outcome :=
  match o with
  | .next s => k s
  | .fault r => .fault r
  | .refused r => .refused r

/-! ## Taking the exception, and the way out -/

/-- Taking `IdentityMismatch` (R190, R194): `drv <- Faulted`, `fault_cause <- IdentityMismatch`, `seq <- S_HALT`. The
identity read stays latched; there is no handler and no saved program counter. -/
def State.raiseIdentityMismatch (s : State) : State :=
  { s with drv := .faulted, faultCause := .identityMismatch, seq := .halt }

/-- The chip when the block is reset: an operation in progress leaves any value in its bytes (R223, U8). Log 17. -/
def Flash.torn (f : Flash) (d : Nat) : Flash :=
  if f.wip then { f with mem := Memory.tear f.mem d f.opBase f.opLen } else f

/-- The hardware reset of a running machine (R220, R223), the only way out of `S_HALT` (R195): every register of the
block takes its reset value; the chip, the host and the record of events stay. Neither rule says whether an output that
the reset takes from 1 to 0 (`led_busy`, `cs`) is an event of the trace (R12); here it is none: DESIGN CHOICE, log 31. -/
def State.hardReset (s : State) : State :=
  { State.atReset s.cfg with
      trace := s.trace, flash := s.flash.torn s.noise, host := s.host, turns := s.turns, noise := s.noise + 1 }

end Sys2Proof.Machine
end

