-- ==== Sys2Proof/Machine/Frames.lean ====
section
/-!
DEFINITION. Machine/Frames.lean: the three decoded rows, `READ_FLASH`, `WRITE_FLASH` and `IGNORED`
(spec/41_command_executor.md R142, R144, R146, R155, R156).
The two commands are long instructions: their meaning accepts the request and loads the cursor; the loop of R155 and
R156 is then run by the control states `S_CHUNK` to `S_WR_PROGRAM` (Machine/Sequencer.lean, R23), one step an event or
an SPI transaction, because the block can wait inside it for the host and for the chip (R192, R193). Log 29.
-/
namespace Sys2Proof.Machine

/-- The request registers and the cursor take the decoded fields; the indicator shows busy; `seq <- S_CHUNK` (R24, R26,
R141, R144). -/
def State.loadCursor (s : State) (op : Byte) (address length : Word) : State :=
  { s.led true with
      op := op, reqAddr := address, reqLen := length, curAddr := address, rem := length, seq := .chunk }

/-- Accepting a request: refused out of contract (R146), else the cursor load (R144). -/
def acceptRequest (s : State) (op : Byte) (address length : Word) : Outcome :=
  whenReady s (if inContract s.cfg address length then .next (s.loadCursor op address length) else .refused .outOfContract)

/-- `READ_FLASH address, length` (R155). -/
def execReadFlash (address length : Word) (s : State) : Outcome := acceptRequest s opReadFlash address length

/-- `WRITE_FLASH address, length` (R156). -/
def execWriteFlash (address length : Word) (s : State) : Outcome := acceptRequest s opWriteFlash address length

/-- `IGNORED` (R142): the byte has been consumed and nothing else happens. -/
def execIgnored (_b : Byte) (s : State) : Outcome := .next s

end Sys2Proof.Machine
end

