-- ==== Sys2Proof/Machine/HostLines.lean ====
section
/-!
DEFINITION. Machine/HostLines.lean: the three command lines of the host (spec/30_encoding.md R98, R99), as the host
driver runs them (42_host_environment.md R173, R174, R177), and what the host does on its turn (R170 to R175). Log 18.
-/
namespace Sys2Proof.Machine

/-- Sending bytes, with nothing awaited between them (the header is not paced, R143, R233). -/
def sendAll (bs : List Byte) : List HostAct := bs.map .send

/-- Sending payload: before each byte the host takes one byte and compares it with 0x42 (R173). -/
def sendPaced (bs : List Byte) : List HostAct := bs.flatMap (fun b => [.awaitReady, .send b])

/-- What a command makes the host do is queued. -/
def HostSide.enqueue (h : HostSide) (acts : List HostAct) : HostSide := { h with script := h.script ++ acts }

/-- The destination of an `r` or a `d`: empty, with room of its own (R174). That a dump has one that can fail too, and that
the room is the next of `rooms`, is the model's: DESIGN CHOICE, log 32. -/
def HostSide.openSink (h : HostSide) : HostSide :=
  { h with sink := [], sinkRoom := h.rooms.headD none, rooms := h.rooms.tail }

/-- `r <address> <byte-count> <file>`: the frame `READ_FLASH address, count`, then `count` bytes are taken (R99, R174). -/
def execCliR (address count : Word) (s : State) : Outcome :=
  .next (s.setHost (s.host.openSink.enqueue
    (sendAll (frameHeader opReadFlash address count) ++ List.replicate count.toNat .takeData)))

/-- The payload of a `w` line (R173): `size` times, the host takes a byte, compares it with 0x42 and sends a byte of the
file. Where the file has ended the host has taken its byte already, and stops. -/
def payloadScript (size : Nat) (file : List Byte) : List HostAct :=
  sendPaced (file.take size) ++ if file.length < size then [.awaitReady] else []

/-- `w <address> <file>`: the frame `WRITE_FLASH address, size`, then the bytes the file yields, paced (R99, R173). -/
def execCliW (address size : Word) (file : List Byte) (s : State) : Outcome :=
  .next (s.setHost (s.host.enqueue
    (sendAll (frameHeader opWriteFlash address size) ++ payloadScript size.toNat file)))

/-- `d <address> <instruction-count>`: the frame `READ_FLASH address, count*4` (R99, R177); a product past 32 bits is
refused (U22). -/
def execCliD (address count : Word) (s : State) : Outcome :=
  if 2 ^ 32 ≤ count.toNat * 4 then .refused .dumpOverflow
  else .next (s.setHost (s.host.openSink.enqueue
    (sendAll (frameHeader opReadFlash address (dumpLength count))
      ++ List.replicate (dumpLength count).toNat .takeData)))

/-! ## The host's turn -/

/-- Room in the receive holding (R40). -/
def State.rxRoom (s : State) : Bool :=
  match s.cfg.rxDepth with
  | none => true
  | some d => decide (s.rxQ.length < d)

/-- A byte arrives at the block (R40). -/
def State.rxArrive (s : State) (b : Byte) : State := { s with rxQ := s.rxQ ++ [b] }

/-- The rest of the host's script. -/
def HostSide.goOn (h : HostSide) (rest : List HostAct) : HostSide := { h with script := rest }

/-- Sending: the byte is held if there is room; else an overrun, refused (U6), but without consequence in `S_HALT`
(R194). -/
def hostSend (b : Byte) (rest : List HostAct) (s : State) : Outcome :=
  if s.rxRoom then .next ((s.rxArrive b).setHost (s.host.goOn rest))
  else if s.seq = .halt then .next (s.setHost (s.host.goOn rest))
  else .refused .rxOverrun

/-- Taking the byte that should be the ready byte (R173, R175): another value is a warning, and stops a strict host. R175
gives the warning to a lenient host and says of a strict one only that it stops sending: that it counts the warning too is
DESIGN CHOICE, log 18. -/
def HostSide.takeReady (p : FlowPolicy) (h : HostSide) (rest : List HostAct) : HostSide :=
  match h.inbox with
  | [] => h
  | b :: more =>
    if b = readyByte then { h with inbox := more, script := rest }
    else match p with
      | .lenient => { h with inbox := more, script := rest, warnings := h.warnings + 1 }
      | .strict => { h with inbox := more, script := [], warnings := h.warnings + 1 }

/-- Taking a byte of flash content to the destination; a full destination stops the host (R174). R174 does not say what
becomes of the bytes the host then leaves: here they stay in `inbox`, and the next command line takes them first: DESIGN
CHOICE, log 32. -/
def HostSide.takeData (h : HostSide) (rest : List HostAct) : HostSide :=
  match h.inbox with
  | [] => h
  | b :: more =>
    match h.sinkRoom with
    | none => { h with inbox := more, script := rest, sink := h.sink ++ [b] }
    | some 0 => { h with inbox := more, script := [] }
    | some (k + 1) => { h with inbox := more, script := rest, sink := h.sink ++ [b], sinkRoom := some k }

/-- One thing the host does. A byte it waits for may not be there yet; then nothing happens. -/
def hostAct (a : HostAct) (rest : List HostAct) (s : State) : Outcome :=
  match a with
  | .send b => hostSend b rest s
  | .awaitReady => .next (s.setHost (s.host.takeReady s.cfg.flowPolicy rest))
  | .takeData => .next (s.setHost (s.host.takeData rest))

/-- Can the host move now? -/
def State.hostCanMove (s : State) : Bool :=
  match s.host.script with
  | .send _ :: _ => true
  | .awaitReady :: _ => !s.host.inbox.isEmpty
  | .takeData :: _ => !s.host.inbox.isEmpty
  | [] => !s.host.commands.isEmpty

/-! ## What `d` prints (R177) -/

/-- Four bytes as a little-endian word: `b3 ++ b2 ++ b1 ++ b0` (R177). -/
def dumpWord (b0 b1 b2 b3 : Byte) : Word := b3 ++ b2 ++ b1 ++ b0

/-- The words of a received stream (R177). R177 does not say what a dump shows of a stream that stops inside a word, as it
can where the dump's destination fails: here the 1 to 3 bytes after the last whole word are shown in no word: DESIGN CHOICE,
log 32. -/
def dumpWords : List Byte → List Word
  | b0 :: b1 :: b2 :: b3 :: rest => dumpWord b0 b1 b2 b3 :: dumpWords rest
  | _ => []

/-- One upper-case hexadecimal digit. -/
def hexDigit (n : Nat) : Char := if n < 10 then Char.ofNat (48 + n) else Char.ofNat (55 + n)

/-- Eight upper-case hexadecimal digits. -/
def hexWord (w : Word) : List Char := (List.range 8).map (fun i => hexDigit (w.toNat / 16 ^ (7 - i) % 16))

/-- One line: the address, then four words (R177). -/
def dumpLine (address w0 w1 w2 w3 : Word) : List Char :=
  ['0', 'x'] ++ hexWord address ++ [' ', '-'] ++ [w0, w1, w2, w3].flatMap (fun w => ' ' :: hexWord w)

/-- All lines, line `L` labelled `address + 16*L`; the format of a last line with fewer than four words is not in the
source, so such a dump has no printed form here (U22): DESIGN CHOICE, log 32. -/
def dumpLines : Word → List Word → Option (List (List Char))
  | _, [] => some []
  | a, w0 :: w1 :: w2 :: w3 :: rest => (dumpLines (a + 16#32) rest).map (dumpLine a w0 w1 w2 w3 :: ·)
  | _, _ => none

end Sys2Proof.Machine
end

