-- ==== Sys2Proof/Machine/Serial.lean ====
section
/-!
DEFINITION. Machine/Serial.lean: the produced row `READY` (spec/30_encoding.md R88, 41_command_executor.md R150).
-/
namespace Sys2Proof.Machine

/-- `READY`: one byte 0x42 to the host; the block does not look at the receive side (R150). No serial byte is sent
unless the driver is ready (R194, R110). -/
def execReady (s : State) : Outcome := whenReady s (.next (s.serialWrite readyByte))

end Sys2Proof.Machine
end

