-- ==== Sys2Proof/Machine/Spi.lean ====
section
/-!
DEFINITION. Machine/Spi.lean: the seven emitted rows, each one SPI transaction: the bytes driven and kept
(spec/30_encoding.md R90 to R97), the block registers written (40_flash_driver.md R113, R114, R125) and the chip's
answer (20_memory.md R56 to R61). A transaction is one step. Log 8.
-/
namespace Sys2Proof.Machine

/-- `T_RAW(b)` (R97). A busy chip takes it as an idle one does, and its operation goes on: DESIGN CHOICE, log 33. -/
def execTRaw (bytes : List Byte) (s : State) : Outcome :=
  unlessFaulted s
    (if bytes = [] then .refused .emptyTransaction
     else .next ((s.spi (sent bytes)).setFlash (s.flash.raw bytes)))

/-- The identity latches take what the chip reports (R28, R113). -/
def State.latchIdentity (s : State) (mfr : Byte) (dev : Half) : State := { s with idMfr := mfr, idDev := dev }

/-- The three bytes of an identity read, manufacturer first, then the device id high byte first (R61). -/
def identityBytes (f : Flash) : List Byte := [f.chipMfr, f.chipDev.extractLsb' 8 8, f.chipDev.extractLsb' 0 8]

/-- `id_dev = h ++ l` (R95, R113). -/
def deviceId (h l : Byte) : Half := h ++ l

/-- `T_READ_ID` with `read_identity`'s latches (R95, R113, R61). A busy chip answers it as an idle one does, and its
operation goes on: DESIGN CHOICE, log 33. -/
def execTReadId (s : State) : Outcome :=
  unlessFaulted s
    (.next
      (((s.spi (sent [s.cfg.cmdReadId] ++ kept s.cfg (identityBytes s.flash))).setFlash s.flash.endRaw).latchIdentity
        s.flash.chipMfr (deviceId (s.flash.chipDev.extractLsb' 8 8) (s.flash.chipDev.extractLsb' 0 8))))

/-- The status latch takes the byte read; one draw has been made (R29, R125). -/
def State.latchStatus (s : State) (b : Byte) : State := { s with status := b, noise := s.noise + 1 }

/-- `T_READ_STATUS` with `is_busy`'s latch (R95, R125, R59). -/
def execTReadStatus (s : State) : Outcome :=
  whenReady s
    (.next
      (((s.spi (sent [s.cfg.cmdReadStatus] ++ kept s.cfg [statusByte s.cfg s.flash.poll.wip s.noise])).setFlash
        s.flash.poll).latchStatus (statusByte s.cfg s.flash.poll.wip s.noise)))

/-- The bytes driven before the data of an addressed transaction: the command byte, then the address bytes (R90, R91). -/
def addressed (c : Config) (cmd : Byte) (a : Word) : List Byte := cmd :: addrBytesOf c a

/-- `T_READ(a, n)` with `read_bytes`' store to the staging buffer (R92, R114, R56). A count of 0 is no transaction
(R114). -/
def execTRead (address count : Word) (s : State) : Outcome :=
  whenReady s
    (if count = 0 then .next s
     else if s.cfg.sectorSize < count.toNat then .fault .stagingIndex
     else if s.cfg.totalSize < spiAddr s.cfg address + count.toNat then .refused .flashAddress
     else unlessBusy s
      (.next
        (((s.spi (sent (addressed s.cfg s.cfg.cmdRead address)
            ++ kept s.cfg (Memory.slice s.flash.mem (spiAddr s.cfg address) count.toNat))).setFlash s.flash.endRaw).fillBuf
          (Memory.slice s.flash.mem (spiAddr s.cfg address) count.toNat))))

/-- `T_PROGRAM(a, d)` (R93, R57). No data is no transaction (R120). -/
def execTProgram (address : Word) (data : List Byte) (s : State) : Outcome :=
  whenReady s
    (if data = [] then .next s
     else if s.cfg.totalSize ≤ spiAddr s.cfg address then .refused .flashAddress
     else unlessBusy s
      (.next ((s.spi (sent (addressed s.cfg s.cfg.cmdProgram address ++ data))).setFlash
        (s.flash.program s.cfg (spiAddr s.cfg address) data))))

/-- `T_SECTOR_ERASE(a)` (R94, R58). -/
def execTSectorErase (address : Word) (s : State) : Outcome :=
  whenReady s
    (if spiAddr s.cfg address % s.cfg.sectorSize ≠ 0 then .refused .eraseUnaligned
     else if s.cfg.totalSize < spiAddr s.cfg address + s.cfg.sectorSize then .refused .flashAddress
     else unlessBusy s
      (.next ((s.spi (sent (addressed s.cfg s.cfg.cmdSectorErase address))).setFlash
        (s.flash.sectorErase s.cfg (spiAddr s.cfg address)))))

/-- `T_CHIP_ERASE` (R94, R58). -/
def execTChipErase (s : State) : Outcome :=
  whenReady s
    (unlessBusy s (.next ((s.spi (sent [s.cfg.cmdChipErase])).setFlash (s.flash.chipErase s.cfg))))

end Sys2Proof.Machine
end

