-- ==== Sys2Proof/Machine/Dispatch.lean ====
section
/-!
DEFINITION. Machine/Dispatch.lean: one arm per row of spec/opcode_table.json.
-/
namespace Sys2Proof.Machine

/-- The meaning of an instruction in a state. -/
def exec (i : Instr) (s : State) : Host.Outcome State Fault Refusal :=
  match i with
  | .readFlash a n => Sys2Proof.Machine.execReadFlash a n s
  | .writeFlash a n => Sys2Proof.Machine.execWriteFlash a n s
  | .ignored b => Sys2Proof.Machine.execIgnored b s
  | .ready => Sys2Proof.Machine.execReady s
  | .tRaw b => Sys2Proof.Machine.execTRaw b s
  | .tReadId => Sys2Proof.Machine.execTReadId s
  | .tReadStatus => Sys2Proof.Machine.execTReadStatus s
  | .tRead a n => Sys2Proof.Machine.execTRead a n s
  | .tProgram a d => Sys2Proof.Machine.execTProgram a d s
  | .tSectorErase a => Sys2Proof.Machine.execTSectorErase a s
  | .tChipErase => Sys2Proof.Machine.execTChipErase s
  | .cliR a n => Sys2Proof.Machine.execCliR a n s
  | .cliW a n file => Sys2Proof.Machine.execCliW a n file s
  | .cliD a n => Sys2Proof.Machine.execCliD a n s

end Sys2Proof.Machine
end

