-- ==== Sys2Proof/Machine/Sequencer.lean ====
section
/-!
DEFINITION. Machine/Sequencer.lean: the control states of spec/10_state.md R22 and R23: which instruction a control
state runs (`fetch`), what goes with it before and after, the moves that run none, and the moves of the block and of
the host.
-/
namespace Sys2Proof.Machine

/-! ## Moves between control states -/

/-- `S_RESET -> S_INIT`; `initialize` begins: `drv <- Verifying` (R221, R111). -/
def State.enterInit (s : State) : State := { s with seq := .init, drv := .verifying, micro := .issue 0 }

/-- `drv <- Ready ; seq <- S_WAIT_CMD` (R111). -/
def State.becomeReady (s : State) : State := { s with drv := .ready, seq := .waitCmd }

/-- The end of `initialize`: the identity decides (R111, R112, R190). -/
def State.checkIdentity (s : State) : State :=
  if identityOk s.cfg s.idMfr s.idDev then s.becomeReady else s.raiseIdentityMismatch

/-- The next transaction of a driver operation. -/
def State.setMicro (s : State) (m : Micro) : State := { s with micro := m }

/-- An opcode has been read: `op <- b`, `Led(1)`, `hdr_idx <- 0`, `seq <- S_HDR` (R140, R141), in one move with `RX(b)`:
DESIGN CHOICE, log 34. -/
def State.openHeader (s : State) (b : Byte) : State :=
  { s.led true with op := b, reqAddr := 0, reqLen := 0, hdrIdx := 0, seq := .hdr }

/-- Header byte `hdr_idx` goes to the address (0 to 3) or the length (4 to 7) (R140, R143). -/
def State.latchHeader (s : State) (h : Byte) : State :=
  if s.hdrIdx.toNat < 4 then { s with reqAddr := shiftIn s.reqAddr h } else { s with reqLen := shiftIn s.reqLen h }

/-- `hdr_idx + 1` (R23). -/
def State.nextHeader (s : State) : State := { s with hdrIdx := s.hdrIdx + 1 }

/-- The command is complete: `Led(0)`, `seq <- S_WAIT_CMD` (R154). -/
def State.endCommand (s : State) : State := { s.led false with seq := .waitCmd }

/-- Another chunk: its length is `min(rem, SECTOR_SIZE)` (R145). -/
def State.beginChunk (s : State) : State :=
  { s with chunkLen := BitVec.ofNat 32 s.chunkSize, bufIdx := if s.op = opReadFlash then s.bufIdx else 0,
           seq := if s.op = opReadFlash then .rdFill else .wrReady }

/-- `S_CHUNK` (R145). -/
def State.decideChunk (s : State) : State := if s.rem = 0 then s.endCommand else s.beginChunk

/-- Cursor advance (R149). -/
def State.advanceCursor (s : State) : State :=
  { s with curAddr := s.curAddr + s.chunkLen, rem := s.rem - s.chunkLen, seq := .chunk }

/-- `S_RD_FILL` is done: `buf_idx <- 0`, `seq <- S_RD_DRAIN` (R147). -/
def State.beginDrain (s : State) : State := { s with bufIdx := 0, seq := .rdDrain }

/-- The next byte of the chunk, in control state `q` (R148, R151). -/
def State.nextByte (s : State) (q : Seq) : State := { s with bufIdx := s.bufIdx + 1, seq := q }

/-- The ready byte is out: `seq <- S_WR_RECV` (R150). -/
def State.beginRecv (s : State) : State := { s with seq := .wrRecv }

/-- Is there another byte in the chunk (R148, R151)? -/
def State.moreBytes (s : State) : Bool := decide (s.bufIdx.toNat + 1 < s.chunkLen.toNat)

/-- `erase_region(first * SECTOR_SIZE, last - first + 1)` begins (R152, R122). `er_idx <- 0` unless it is the whole chip,
which has no loop. R31 gives the loop variables `wr_off`, `wr_page_mode` and `er_idx` no value between calls; here each
keeps what it held until the next call that uses it: DESIGN CHOICE, log 30. -/
def State.beginErase (s : State) : State :=
  { s with
      erAddr := BitVec.ofNat 32 (s.coverFirst * s.cfg.sectorSize), erCount := BitVec.ofNat 32 s.coverCount,
      erIdx := if eraseWholeChip s.cfg (BitVec.ofNat 32 (s.coverFirst * s.cfg.sectorSize)) (BitVec.ofNat 32 s.coverCount)
        then s.erIdx else 0,
      micro := .issue 0, seq := .wrErase }

/-- `write_bytes(cur_addr, chunk_len, buf)` begins: the mode is chosen once, from the address (R118, R153). -/
def State.beginProgram (s : State) : State :=
  { s with wrPageMode := pageAligned s.cfg s.curAddr, wrOff := 0, micro := .issue 0, seq := .wrProgram }

/-- The next sector of the region (R122). -/
def State.nextSector (s : State) : State := { s with erIdx := s.erIdx + 1, micro := .issue 0 }

/-- An `erase_step` has ended (R122): the whole chip is one step; else the next sector, if there is one. -/
def State.eraseStepDone (s : State) : State :=
  if eraseWholeChip s.cfg s.erAddr s.erCount then s.beginProgram
  else if s.nextSector.erasePending then s.nextSector
  else s.nextSector.beginProgram

/-- `wr_off <- wr_off + k` (R118). -/
def State.nextProgram (s : State) : State :=
  { s with wrOff := s.wrOff + BitVec.ofNat 32 s.programLen, micro := .issue 0 }

/-- A `program_step` has ended (R118, R153): the next one, or the end of the chunk. -/
def State.programStepDone (s : State) : State :=
  if s.nextProgram.programPending then s.nextProgram else s.nextProgram.advanceCursor

/-! ## The instruction a control state runs -/

/-- Transaction `k` of an operation with prelude `p` and own transaction `main` (R111, R117, R124). -/
def preludeOr (p : List (List Byte)) (k : Nat) (main : Instr) : Instr :=
  match p[k]? with
  | some t => .tRaw t
  | none => main

/-- The transaction of a step of `erase_region` or `write_bytes`: prelude, own transaction, then the polls of `wait_ready`
(R117, R124, R126). -/
def State.stepInstr (s : State) (main : Instr) : Instr :=
  match s.micro with
  | .issue k => preludeOr s.cfg.writePrelude k main
  | .poll => .tReadStatus

/-- The transaction of `initialize` (R111). -/
def State.initInstr (s : State) : Instr :=
  match s.micro with
  | .issue k => preludeOr s.cfg.initPrelude k .tReadId
  | .poll => .tReadId

/-- The instruction the block runs in its control state, if it runs one (R23): a decoded frame when its last byte is
there, a byte that is no opcode, the ready byte, or the next SPI transaction of the driver operation. -/
def State.fetch (s : State) : Option Instr :=
  match s.seq with
  | .reset => none
  | .init => some s.initInstr
  | .halt => none
  | .waitCmd =>
    match s.rxQ with
    | [] => none
    | b :: _ => if isOpcode b then none else some (.ignored b)
  | .hdr =>
    match s.rxQ with
    | [] => none
    | h :: _ => if s.hdrIdx = 7 then some (commandOf s.op s.reqAddr (shiftIn s.reqLen h)) else none
  | .chunk => none
  | .rdFill => some (.tRead s.curAddr s.chunkLen)
  | .rdDrain => none
  | .wrReady => some .ready
  | .wrRecv => none
  | .wrErase => if s.erasePending then some (s.stepInstr s.eraseInstr) else none
  | .wrProgram => if s.programPending then some (s.stepInstr s.programInstr) else none

/-- What is done before the fetched instruction runs: the byte that completes it is taken from the serial link. -/
def State.beforeInstr (s : State) : State :=
  match s.seq, s.rxQ with
  | .waitCmd, b :: _ => s.serialTake b
  | .hdr, h :: _ => (s.serialTake h).latchHeader h
  | _, _ => s

/-- What follows a transaction of a prelude-own-poll sequence: the next of the prelude, the first poll after the own
transaction; a poll that reads busy is repeated (R126, R192); `done` after one that does not. -/
def State.afterTransaction (s : State) (done : State) : State :=
  match s.micro with
  | .issue k => if k < s.cfg.writePrelude.length then s.setMicro (.issue (k + 1)) else s.setMicro .poll
  | .poll => if s.flashBusy then s else done

/-- What follows a transaction of `initialize` (R111). -/
def State.afterInit (s : State) : State :=
  match s.micro with
  | .issue k => if k < s.cfg.initPrelude.length then s.setMicro (.issue (k + 1)) else s.checkIdentity
  | .poll => s.checkIdentity

/-- What follows the fetched instruction in each control state (R23). -/
def State.afterInstr (s : State) : State :=
  match s.seq with
  | .init => s.afterInit
  | .rdFill => s.beginDrain
  | .wrReady => s.beginRecv
  | .wrErase => s.afterTransaction s.eraseStepDone
  | .wrProgram => s.afterTransaction s.programStepDone
  | .reset => s
  | .halt => s
  | .waitCmd => s
  | .hdr => s
  | .chunk => s
  | .rdDrain => s
  | .wrRecv => s

/-! ## The moves that run no instruction -/

/-- `S_RD_DRAIN` (R148). -/
def drainByte (s : State) : Outcome :=
  match s.buf[s.bufIdx.toNat]? with
  | none => .fault .stagingIndex
  | some b =>
    if s.moreBytes then .next ((s.serialWrite b).nextByte .rdDrain) else .next (s.serialWrite b).advanceCursor

/-- `buf[buf_idx] <- b` (R151). -/
def State.storeByte (s : State) (b : Byte) : State := { s with buf := s.buf.set s.bufIdx.toNat b }

/-- `S_WR_RECV` when the byte `b` is there (R151). -/
def recvByte (s : State) (b : Byte) : Outcome :=
  if s.bufIdx.toNat < s.buf.length then
    if s.moreBytes then .next (((s.serialTake b).storeByte b).nextByte .wrReady)
    else .next ((s.serialTake b).storeByte b).beginErase
  else .fault .stagingIndex

/-- A move of the block that runs no instruction (R23). With no byte to read, the block waits: a busy-wait that changes
nothing (R193, R206); in `S_HALT` it does nothing for good (R194). Log 11. A move is whole: nothing of the host or the chip, and no
reset, falls between the `RX(b)` and the `LED(1)` of an opcode, or between an event and the registers written after it:
DESIGN CHOICE, log 34. -/
def internalMove (s : State) : Outcome :=
  match s.seq with
  | .reset => .next s.enterInit
  | .init => .next s
  | .halt => .next s
  | .waitCmd =>
    match s.rxQ with
    | [] => .next s
    | b :: _ => .next ((s.serialTake b).openHeader b)
  | .hdr =>
    match s.rxQ with
    | [] => .next s
    | h :: _ => .next ((s.serialTake h).latchHeader h).nextHeader
  | .chunk => .next s.decideChunk
  | .rdFill => .next s
  | .rdDrain => drainByte s
  | .wrReady => .next s
  | .wrRecv =>
    match s.rxQ with
    | [] => .next s
    | b :: _ => recvByte s b
  | .wrErase => .next s.beginProgram
  | .wrProgram => .next s.advanceCursor

/-- The control states in which the block reads a serial byte (R160, R231). -/
def State.reads (s : State) : Bool := s.seq == .waitCmd || s.seq == .hdr || s.seq == .wrRecv

/-- Can the block move? Not in `S_HALT`, and not while it waits for a byte that is not there (R193, R194). -/
def State.blockCanMove (s : State) : Bool := s.seq != .halt && !(s.reads && s.rxQ.isEmpty)

/-- `erase_region` is called outside its precondition (R121). -/
def State.eraseRefused (s : State) : Bool :=
  s.seq == .wrErase && s.erasePending && !eraseRegionOk s.cfg s.erAddr s.erCount

/-- One move of the block (R23). It is whole: DESIGN CHOICE, log 34. -/
def blockMove (s : State) : Outcome :=
  match s.fetch with
  | some i =>
    if s.eraseRefused then .refused .eraseRegion
    else andThen (exec i s.beforeInstr) (fun t => .next t.afterInstr)
  | none => internalMove s

/-- One move of the host (R170): the next thing of its script, or the next command line. -/
def hostMove (s : State) : Outcome :=
  match s.host.script with
  | a :: rest => hostAct a rest s
  | [] =>
    match s.host.commands with
    | [] => .next s
    | c :: cs => exec c.toInstr (s.setHost { s.host with commands := cs })

/-- One move of the chip: the operation in progress ends, and the write-enable latch with it (R20, R39, R59, R60). -/
def flashMove (s : State) : Outcome := .next (s.setFlash s.flash.finish)

/-- Does the chip, left to itself, still end its operation? -/
def State.flashCanMove (s : State) : Bool := s.flash.wip && s.flash.busyPolls.isSome

/-- With no turn scheduled the block moves while it can, then the chip, then the host. Log 4. -/
def unscheduledMove (s : State) : Outcome :=
  if s.blockCanMove then blockMove s else if s.flashCanMove then flashMove s
  else if s.hostCanMove then hostMove s else .next s

/-! ## A reset inside an SPI transaction (R223) -/

/-- Have enough bytes of a transaction gone out for its operation to begin, when chip-select falls after `k` exchanges?
A program needs a data byte ("the bytes sent so far are programmed"), an erase all its bytes. Log 8. -/
def opBegins (c : Config) (k : Nat) : Instr → Bool
  | .tProgram _ _ => decide (1 + c.addrBytes < k)
  | .tSectorErase _ => decide (1 + c.addrBytes ≤ k)
  | .tChipErase => decide (1 ≤ k)
  | .tRaw _ | .tReadId | .tReadStatus | .tRead _ _ => true
  | .readFlash _ _ | .writeFlash _ _ | .ignored _ | .ready | .cliR _ _ | .cliW _ _ _ | .cliD _ _ => true

/-- The chip after a transaction cut after `k` exchanges: `f` before it, `g` after the whole of it. -/
def Flash.cutShort (k : Nat) (i : Instr) (f g : Flash) : Flash :=
  match i with
  | .tRaw b => f.raw (b.take k)
  | .tReadId | .tReadStatus | .tRead _ _ | .tProgram _ _ | .tSectorErase _ | .tChipErase => g
  | .readFlash _ _ | .writeFlash _ _ | .ignored _ | .ready | .cliR _ _ | .cliW _ _ _ | .cliD _ _ => g

/-- The reset after `k` exchanges of the transaction of `i`, whose whole is the step from `s` to `t`: chip-select falls
there; the page or sector a program or erase works on holds any value (R223, U8), whether or not its operation begins.
One that does not begin is over at once. -/
def State.cutShort (s : State) (k : Nat) (i : Instr) (t : State) : State :=
  let r := { t with
    trace := s.trace ++ (t.trace.drop s.trace.length).dropLast.take (k + 1),
    flash := Flash.cutShort k i s.flash t.flash }.hardReset
  { r with flash := if opBegins s.cfg k i then r.flash else r.flash.finish }

/-- A reset inside the block's next SPI transaction; where none is due it is a reset. -/
def cutMove (k : Nat) (s : State) : Outcome :=
  match s.fetch with
  | some i =>
    if i.link = .spi then
      if s.eraseRefused then .refused .eraseRegion else andThen (exec i s) (fun t => .next (s.cutShort k i t))
    else .next s.hardReset
  | none => .next s.hardReset

/-- Dropping the turn that is being taken. -/
def State.takeTurn (s : State) : State := { s with turns := s.turns.tail }

/-- The move of the agent whose turn it is, or the reset. Log 4. -/
def turnMove (s : State) : Outcome :=
  match s.turns with
  | [] => unscheduledMove s
  | .block :: _ => blockMove s.takeTurn
  | .host :: _ => hostMove s.takeTurn
  | .flash :: _ => flashMove s.takeTurn
  | .reset :: _ => .next s.takeTurn.hardReset
  | .cut k :: _ => cutMove k s.takeTurn

/-- One step: a configuration that breaks R7 is refused (U16). -/
def stepOnce (s : State) : Outcome := if s.cfg.ok then turnMove s else .refused .badConfiguration

/-! ## Placing a frame where the block fetches -/

/-- The latches as they are when the first 8 bytes of a frame have been read and the last one waits; or, for a byte that
is no opcode, that byte waiting in `S_WAIT_CMD`. Log 19. -/
def State.withFrame (s : State) (bs : List Byte) : State :=
  match bs with
  | b :: a3 :: a2 :: a1 :: a0 :: n3 :: n2 :: n1 :: n0 :: _ =>
    if isOpcode b then
      { s with
          drv := .ready, seq := .hdr, op := b, reqAddr := joinBe32 a3 a2 a1 a0,
          reqLen := joinAddr [n3, n2, n1], hdrIdx := 7, rxQ := [n0], turns := [] }
    else { s with drv := .ready, seq := .waitCmd, rxQ := [b], turns := [] }
  | _ => s

end Sys2Proof.Machine
end

