-- ==== Sys2Proof/Machine/Step.lean ====
section
/-!
DEFINITION. Machine/Step.lean: one step of the machine, and the state in which a given frame is what the next step runs.
-/
namespace Sys2Proof.Machine

/-- One step. -/
def step : State → Host.Outcome State Fault Refusal := stepOnce

/-- The state whose very next step fetches and runs the frame of a table word. Log 19. -/
def State.withFetchWord (s : State) (nbits w : Nat) : State := s.withFrame (tableBytes nbits w)

end Sys2Proof.Machine
end

