-- ==== Sys2Proof/Safety.lean ====
section
/-!
DEFINITION. Safety.lean: the end of a run (spec/42_host_environment.md R180, 60_exceptions.md R192, R193), and the
invariants claims are stated in.
-/
namespace Sys2Proof.Machine

/-! ## The end of a run -/

/-- The block is blocked in `SerialRead()` (R193). -/
def State.blocked (s : State) : Prop := s.reads = true ∧ s.rxQ = []

/-- The host has nothing more to send: no byte to send is left on it, or it waits for a byte that is not there (and that
a blocked block never sends). -/
def State.hostSilent (s : State) : Prop :=
  (s.host.commands = [] ∧ ∀ b, HostAct.send b ∉ s.host.script) ∨ s.hostCanMove = false

/-- The run is over: blocked, and the host has nothing more to send (R180). -/
def State.over (s : State) : Prop := s.blocked ∧ s.hostSilent

/-- The run ended well (R180): over, in `S_WAIT_CMD`, chip deselected, idle, driver ready, flash not busy. -/
def State.final (s : State) : Prop :=
  s.over ∧ s.seq = .waitCmd ∧ s.cs = false ∧ s.ledBusy = false ∧ s.drv = .ready ∧ s.flash.wip = false

/-- A turn that leaves the chip alone and resets nothing. -/
def Turn.sparesChip : Turn → Bool
  | .block => true
  | .host => true
  | .flash => false
  | .reset => false
  | .cut _ => false

/-- Busy for ever (R192): the block polls a chip that no poll and no scheduled turn finds ready. -/
def State.hung (s : State) : Prop :=
  (s.seq = .wrErase ∧ s.erasePending = true ∨ s.seq = .wrProgram ∧ s.programPending = true) ∧
    s.micro = .poll ∧ s.flash.wip = true ∧ s.flash.busyPolls = none ∧ s.turns.all Turn.sparesChip = true

/-- The run ended badly (R180): a truncated frame, an identity mismatch, or a run that is infinite (busy for ever). -/
def State.endedBadly (s : State) : Prop :=
  (s.over ∧ (s.seq = .hdr ∨ s.seq = .wrRecv)) ∨ s.seq = .halt ∨ s.hung

/-! ## Control invariants -/

/-- The last column of R22. -/
def Seq.drvOf : Seq → DrvState
  | .reset => .uninitialized
  | .init => .verifying
  | .halt => .faulted
  | .waitCmd => .ready
  | .hdr => .ready
  | .chunk => .ready
  | .rdFill => .ready
  | .rdDrain => .ready
  | .wrReady => .ready
  | .wrRecv => .ready
  | .wrErase => .ready
  | .wrProgram => .ready

/-- A command is being read or run. -/
def Seq.inCommand : Seq → Bool
  | .reset => false
  | .init => false
  | .halt => false
  | .waitCmd => false
  | .hdr => true
  | .chunk => true
  | .rdFill => true
  | .rdDrain => true
  | .wrReady => true
  | .wrRecv => true
  | .wrErase => true
  | .wrProgram => true

/-- The control registers agree: `drv` with `seq` (R22), the fault cause with the fault (R190, R194), the indicator with
the command (R141, R154), and the chip is deselected between transactions (R90, D13). -/
structure ControlInv (s : State) : Prop where
  drv_eq   : s.drv = s.seq.drvOf
  cause_iff : s.faultCause = .identityMismatch ↔ s.drv = .faulted
  led_eq   : s.ledBusy = s.seq.inCommand
  cs_low   : s.cs = false

/-! ## Memory invariant -/

/-- Flash content is canonical and lies in the chip (R50), an operation in progress works on bytes of the chip, and the
staging buffer has `SECTOR_SIZE` bytes (R30). -/
structure MemoryInv (s : State) : Prop where
  cfg_ok  : s.cfg.ok = true
  mem_wf  : s.flash.mem.wf = true
  mem_in  : s.flash.mem.below s.cfg.totalSize = true
  op_in   : s.flash.wip = true → s.flash.opBase + s.flash.opLen ≤ s.cfg.totalSize
  buf_len : s.buf.length = s.cfg.sectorSize

/-! ## The run invariant -/

/-- The opcode of the control state: `READ_FLASH` states hold 0x10, `WRITE_FLASH` states 0x20, the shared ones either
(R24). -/
def State.opOk (s : State) : Prop :=
  match s.seq with
  | .hdr => isOpcode s.op = true
  | .chunk => isOpcode s.op = true
  | .rdFill => s.op = opReadFlash
  | .rdDrain => s.op = opReadFlash
  | .wrReady => s.op = opWriteFlash
  | .wrRecv => s.op = opWriteFlash
  | .wrErase => s.op = opWriteFlash
  | .wrProgram => s.op = opWriteFlash
  | .reset => True
  | .init => True
  | .halt => True
  | .waitCmd => True

/-- What is left of the request lies in the chip (R146). -/
def State.cursorIn (s : State) : Prop := s.curAddr.toNat + s.rem.toNat ≤ s.cfg.totalSize

/-- A chunk in progress (R27, R145): not empty, at most a sector, part of what is left. -/
def State.chunkIn (s : State) : Prop :=
  s.cursorIn ∧ 1 ≤ s.chunkLen.toNat ∧ s.chunkLen.toNat ≤ s.cfg.sectorSize ∧ s.chunkLen.toNat ≤ s.rem.toNat

/-- Position in a prelude (R111, R117, R124). -/
def Micro.within (m : Micro) (p : List (List Byte)) : Prop :=
  match m with
  | .issue k => k ≤ p.length
  | .poll => True

/-- The chip is busy only while the block polls (R67, R235). -/
def State.busyOnlyPolling (s : State) : Prop := s.micro = .poll ∨ s.flash.wip = false

/-- The call of `erase_region` in progress is the one R152 makes, and a sector is pending (R122). -/
def State.eraseIn (s : State) : Prop :=
  s.erAddr.toNat = s.coverFirst * s.cfg.sectorSize ∧ s.erCount.toNat = s.coverCount ∧ s.erasePending = true

/-- The call of `write_bytes` in progress is the one R153 makes, and bytes are pending (R118). -/
def State.programIn (s : State) : Prop :=
  s.wrPageMode = pageAligned s.cfg s.curAddr ∧ s.wrOff.toNat < s.chunkLen.toNat ∧
    (s.wrPageMode = true → s.wrOff.toNat % s.cfg.pageSize = 0)

/-- What each control state may assume of the data registers (R23 to R31). -/
def State.dataIn (s : State) : Prop :=
  match s.seq with
  | .reset => s.flash.wip = false
  | .init => s.flash.wip = false ∧ s.micro.within s.cfg.initPrelude
  | .halt => s.flash.wip = false
  | .waitCmd => s.flash.wip = false
  | .hdr => s.flash.wip = false
  | .chunk => s.flash.wip = false ∧ s.cursorIn
  | .rdFill => s.flash.wip = false ∧ s.chunkIn
  | .rdDrain => s.flash.wip = false ∧ s.chunkIn ∧ s.bufIdx.toNat < s.chunkLen.toNat
  | .wrReady => s.flash.wip = false ∧ s.chunkIn ∧ s.bufIdx.toNat < s.chunkLen.toNat
  | .wrRecv => s.flash.wip = false ∧ s.chunkIn ∧ s.bufIdx.toNat < s.chunkLen.toNat
  | .wrErase => s.busyOnlyPolling ∧ s.chunkIn ∧ s.micro.within s.cfg.writePrelude ∧ s.eraseIn
  | .wrProgram => s.busyOnlyPolling ∧ s.chunkIn ∧ s.micro.within s.cfg.writePrelude ∧ s.programIn

/-- The invariant of a run without a reset in the middle (R180): everything the rules of spec/41_command_executor.md
rely on. -/
structure RunInv (s : State) : Prop where
  control : ControlInv s
  memory  : MemoryInv s
  op_ok   : s.opOk
  data_in : s.dataIn

/-- A hardware reset, between two transactions or inside one (R220, R223). -/
def Turn.isReset : Turn → Bool
  | .block => false
  | .host => false
  | .flash => false
  | .reset => true
  | .cut _ => true

/-- No hardware reset is scheduled (R180: "no reset or power loss during the run"). -/
def State.noReset (s : State) : Prop := ∀ t ∈ s.turns, t.isReset = false

/-- The next step is a hardware reset. -/
def State.resetNow (s : State) : Prop := ∃ t, s.turns.head? = some t ∧ t.isReset = true

/-- The next step is a move of the block (R20). -/
def State.blockTurn (s : State) : Prop :=
  s.turns.head? = some .block ∨ (s.turns = [] ∧ s.blockCanMove = true)

/-- The next step is a move of the chip (R20). -/
def State.flashTurn (s : State) : Prop :=
  s.turns.head? = some .flash ∨ (s.turns = [] ∧ s.blockCanMove = false ∧ s.flashCanMove = true)

/-- The next step is a move of the host (R20). -/
def State.hostTurn (s : State) : Prop :=
  s.turns.head? = some .host ∨
    (s.turns = [] ∧ s.blockCanMove = false ∧ s.flashCanMove = false ∧ s.hostCanMove = true)

/-! ## Runs of the machine -/

/-- `k` steps of the machine from `s` answer `t`. -/
def Reaches (k : Nat) (s t : State) : Prop := Host.Core.run Sys2Proof.core k s = .next t

/-- The events a step appends to the trace. -/
def Appends (s t : State) (es : List Event) : Prop := t.trace = s.trace ++ es

/-- An event of the serial link. -/
def Event.onSerial : Event → Bool
  | .rx _ => true
  | .tx _ => true
  | .cs _ => false
  | .xfer _ _ => false
  | .led _ => false

/-- How the payload `D` of a `WRITE_FLASH` gets to the block (R158, R172). -/
inductive Delivery where
  /-- All of it waits on the serial link, with `rest` after it. -/
  | waiting (rest : List Byte)
  /-- The host sends each byte when it has taken a ready byte, and then goes on with `acts`. -/
  | paced (acts : List HostAct)

/-- The payload `D` is there; or the host is about to send it, paced, over a receive holding with room for a byte, and the
chip is idle. -/
def State.delivers (s : State) (D : List Byte) : Delivery → Prop
  | .waiting rest => s.rxQ = D ++ rest
  | .paced acts => s.rxQ = [] ∧ s.host.inbox = [] ∧ s.host.script = sendPaced D ++ acts ∧ s.cfg.rxDepth ≠ some 0 ∧
      s.flashCanMove = false

/-- The payload has been taken: what followed it on the link or on the host is next, and each of its `n` ready bytes has
gone to the host, which a pacing host has taken. `h` is the host before. -/
def State.delivered (s : State) (n : Nat) (h : HostSide) : Delivery → Prop
  | .waiting rest => s.rxQ = rest ∧ s.host = { h with inbox := h.inbox ++ List.replicate n readyByte }
  | .paced acts => s.rxQ = [] ∧ s.host = { h with script := acts }

end Sys2Proof.Machine
end

