-- ==== Sys2Proof/Certificates/Slice0/Obligations.lean ====
section
/-!
DEFINITION. Certificates/Slice0/Obligations.lean: the statements about the model, from the numbered rules of spec/.
A docstring names the rule a statement formalises; where a clause is the model's choice it names the log entry.
-/

open Sys2Proof Sys2Proof.Machine

/-! ## Encodings -/

/-- R83: all 8 bits of header byte 0 decide; 0x10 and 0x20 are the commands, every other value is a one-byte frame. -/
def Obligations.OpcodeByteDecidesTheFrame : Prop :=
  ∀ (b a3 a2 a1 a0 n3 n2 n1 n0 : Byte) (rest : List Byte),
    decodeFrame (b :: a3 :: a2 :: a1 :: a0 :: n3 :: n2 :: n1 :: n0 :: rest) =
      if b = 0x10#8 then .instr (.readFlash (joinBe32 a3 a2 a1 a0) (joinBe32 n3 n2 n1 n0)) rest
      else if b = 0x20#8 then .instr (.writeFlash (joinBe32 a3 a2 a1 a0) (joinBe32 n3 n2 n1 n0)) rest
      else .instr (.ignored b) (a3 :: a2 :: a1 :: a0 :: n3 :: n2 :: n1 :: n0 :: rest)

/-- R84: `address = h1*2^24 + h2*2^16 + h3*2^8 + h4`, `length` likewise, for both commands. -/
def Obligations.HeaderFieldsAreBigEndian : Prop :=
  ∀ (h1 h2 h3 h4 h5 h6 h7 h8 : Byte) (rest : List Byte), ∃ a n : Word,
    decodeFrame (0x10#8 :: h1 :: h2 :: h3 :: h4 :: h5 :: h6 :: h7 :: h8 :: rest) = .instr (.readFlash a n) rest ∧
    decodeFrame (0x20#8 :: h1 :: h2 :: h3 :: h4 :: h5 :: h6 :: h7 :: h8 :: rest) = .instr (.writeFlash a n) rest ∧
    a.toNat = h1.toNat * 2 ^ 24 + h2.toNat * 2 ^ 16 + h3.toNat * 2 ^ 8 + h4.toNat ∧
    n.toNat = h5.toNat * 2 ^ 24 + h6.toNat * 2 ^ 16 + h7.toNat * 2 ^ 8 + h8.toNat

/-- Every well-formed instruction comes back from its bytes, on its link, whatever follows it there; a command line comes
back as the frame it stands for (R99). On the SPI link the chip tells transactions apart by the command byte, so the
record's six command bytes must differ and a raw transaction must begin with none of them (log 24). -/
def Obligations.DecodeEncodeAgree : Prop :=
  ∀ (c : Config) (i : Instr) (rest : List Byte), c.ok = true → i.wellFormed c = true →
    (i.link ≠ .spi → decode c i.link (encode c i ++ rest) = .instr i.direct (i.payload ++ rest)) ∧
    (i.link = .spi → c.commandBytes.Nodup → (∀ m bs, i = .tRaw (m :: bs) → m ∉ c.commandBytes) →
      decode c .spi (encode c i) = .instr i [])

/-- Words written out from the spec: the frames V-D1 and V-D2 of spec/95_test_vectors.md; the byte 42 of V-D6, here with a
byte after it that is left for the next frame; and transactions of R111, R114, R120 and R124 under profile `G`. -/
def Obligations.SpecWordsDecode : Prop :=
  decodeFrame [0x10, 0x00, 0x00, 0x10, 0x00, 0x00, 0x00, 0x10, 0x00] = .instr (.readFlash 0x1000 0x1000) [] ∧
  decodeFrame [0x20, 0x12, 0x34, 0x56, 0x78, 0x9A, 0xBC, 0xDE, 0xF0] = .instr (.writeFlash 0x12345678 0x9ABCDEF0) [] ∧
  decodeFrame [0x42, 0x10] = .instr (.ignored 0x42) [0x10] ∧
  decodeReply [0x42] = .instr .ready [] ∧
  decodeSpi Config.t2 [0x9F, 0x00, 0x00, 0x00] = .instr .tReadId [] ∧
  decodeSpi Config.t2 [0x05, 0x00] = .instr .tReadStatus [] ∧
  decodeSpi Config.t2 [0x03, 0x00, 0x00, 0x1D, 0x00, 0x00, 0x00] = .instr (.tRead 0x1D 3) [] ∧
  decodeSpi Config.t2 [0x02, 0x00, 0x00, 0x04, 0x05, 0x06] = .instr (.tProgram 4 [0x05, 0x06]) [] ∧
  decodeSpi Config.t2 [0x20, 0x00, 0x00, 0x08] = .instr (.tSectorErase 8) [] ∧
  decodeSpi Config.t2 [0xC7] = .instr .tChipErase [] ∧
  decodeSpi Config.t2 [0x06] = .instr (.tRaw [0x06]) []

/-- R91: `AddrBytes(a)`, most significant byte first. -/
def Obligations.AddressBytesMostSignificantFirst : Prop :=
  ∀ (c : Config) (a : Word),
    (c.addrBytes = 3 → addrBytesOf c a = [a.extractLsb' 16 8, a.extractLsb' 8 8, a.extractLsb' 0 8]) ∧
    (c.addrBytes = 4 →
      addrBytesOf c a = [a.extractLsb' 24 8, a.extractLsb' 16 8, a.extractLsb' 8 8, a.extractLsb' 0 8])

/-! ## Reset, initialisation, the exception -/

/-- R45, R220: the values the spec gives for reset, in the reset state and after a hardware reset of any state. The
values of the registers R45 leaves open are the model's (log 2) and are not stated. -/
def Obligations.ResetValues : Prop :=
  (∀ s : State, (s.hardReset.drv = .uninitialized ∧ s.hardReset.seq = .reset ∧ s.hardReset.faultCause = .none ∧
    s.hardReset.cs = false ∧ s.hardReset.ledBusy = false ∧ s.hardReset.faulted = false ∧ s.hardReset.rxQ = [] ∧
    s.hardReset.byteReceived = false ∧ s.hardReset.txFinished = true ∧ s.hardReset.cfg = s.cfg)) ∧
  (State.reset.drv = .uninitialized ∧ State.reset.seq = .reset ∧ State.reset.faultCause = .none ∧
    State.reset.cs = false ∧ State.reset.ledBusy = false ∧ State.reset.faulted = false ∧ State.reset.rxQ = [] ∧
    State.reset.byteReceived = false ∧ State.reset.txFinished = true)

/-- R111, R112, R113, R221: out of reset the prelude goes out in list order, then the identity is read once, and it
decides between `Ready` and `Faulted`; all 24 bits must match. (That this holds over a chip still busy after a reset too is
the model's choice, log 33.) -/
def Obligations.InitializeRunsPreludeThenChecksIdentity : Prop :=
  (∀ (c : Config) (m : Byte) (d : Half), identityOk c m d = true ↔ m = c.expMfr ∧ d = c.expDev) ∧
  ∀ s : State, s.cfg.ok = true → s.seq = .reset → s.turns = [] → ∃ u,
    Reaches (s.cfg.initPrelude.length + 2) s u ∧
    Appends s u
      (s.cfg.initPrelude.flatMap (fun t => .cs true :: t.map (fun b => .xfer b none) ++ [.cs false])
        ++ [.cs true, .xfer s.cfg.cmdReadId none, .xfer s.cfg.dummy (some s.flash.chipMfr),
            .xfer s.cfg.dummy (some (s.flash.chipDev.extractLsb' 8 8)),
            .xfer s.cfg.dummy (some (s.flash.chipDev.extractLsb' 0 8)), .cs false]) ∧
    u.idMfr = s.flash.chipMfr ∧ u.idDev = s.flash.chipDev ∧ u.cs = false ∧
    (if s.flash.chipMfr = s.cfg.expMfr ∧ s.flash.chipDev = s.cfg.expDev then
      u.drv = .ready ∧ u.seq = .waitCmd ∧ u.faultCause = s.faultCause
    else u.drv = .faulted ∧ u.seq = .halt ∧ u.faultCause = .identityMismatch)

/-- R190: what taking `IdentityMismatch` does, after the `CS(0)` of the identity read, and that nothing else changes.
(That a chip still busy answers the read, and goes on being busy, is the model's choice, log 33.) -/
def Obligations.IdentityMismatchEntry : Prop :=
  ∀ s : State, s.cfg.ok = true → s.blockTurn → s.seq = .init → s.drv = .verifying →
    (∀ k, s.micro = .issue k → s.cfg.initPrelude.length ≤ k) →
    ¬(s.flash.chipMfr = s.cfg.expMfr ∧ s.flash.chipDev = s.cfg.expDev) →
    step s = .next { s with
      turns := s.turns.tail, drv := .faulted, faultCause := .identityMismatch, seq := .halt, cs := false,
      idMfr := s.flash.chipMfr, idDev := s.flash.chipDev,
      trace := s.trace ++ [.cs true, .xfer s.cfg.cmdReadId none, .xfer s.cfg.dummy (some s.flash.chipMfr),
        .xfer s.cfg.dummy (some (s.flash.chipDev.extractLsb' 8 8)),
        .xfer s.cfg.dummy (some (s.flash.chipDev.extractLsb' 0 8)), .cs false],
      flash := { s.flash with rawRun := [] } }

/-- R194: in `S_HALT` the block's own move does nothing, and whatever step is taken short of a reset, no event occurs, no
byte is taken or sent, and nothing of the block changes but the bytes that pile up. (Of the chip only an operation still
in progress can end, by the chip's own step, R59, which clears the latch, log 9.) -/
def Obligations.HaltedBlockIsSilent : Prop :=
  ∀ s : State, s.seq = .halt → blockMove s = .next s ∧
    ∀ t, ¬s.resetNow → step s = .next t →
      t.seq = .halt ∧ t.drv = s.drv ∧ t.faultCause = s.faultCause ∧ t.trace = s.trace ∧ t.cs = s.cs ∧
      t.ledBusy = s.ledBusy ∧ t.idMfr = s.idMfr ∧ t.idDev = s.idDev ∧
      (t.flash = s.flash ∨ (s.flashTurn ∧ s.flash.wip = true ∧ t.flash = { s.flash with wip := false, rawRun := [] })) ∧
      (∃ more, t.rxQ = s.rxQ ++ more) ∧ t.host.inbox <:+ s.host.inbox

/-- R21, R195: `Ready` and `Faulted` are never left except by reset. -/
def Obligations.ReadyAndFaultedAreLeftOnlyByReset : Prop :=
  ∀ s t : State, ControlInv s → ¬s.resetNow → step s = .next t →
    (s.drv = .ready → t.drv = .ready) ∧ (s.drv = .faulted → t.drv = .faulted)

/-! ## SPI transactions -/

/-- R97: a raw transaction drives its bytes and keeps none. (That the chip only counts it towards the write enable is
the model's, logs 9 and 10, and that a busy chip takes it too is the model's, log 33.) -/
def Obligations.RawTransactionDrivesItsBytes : Prop :=
  ∀ (b : List Byte) (s : State), b ≠ [] → s.drv ≠ .faulted →
    exec (.tRaw b) s = .next { s with
      cs := false, trace := s.trace ++ (.cs true :: b.map (fun x => .xfer x none) ++ [.cs false]),
      flash := { s.flash with rawRun := s.flash.rawRun ++ [b] } }

/-- R61, R95, R113: the identity read, its events and its latches; every other register and the content stay. (That it
ends the run of raw transactions is log 9; that a busy chip answers it, and goes on being busy, is the model's choice, log
33.) -/
def Obligations.IdentityReadLatchesWhatTheChipReports : Prop :=
  ∀ s : State, s.drv ≠ .faulted →
    exec .tReadId s = .next { s with
      cs := false, idMfr := s.flash.chipMfr, idDev := s.flash.chipDev,
      trace := s.trace ++ [.cs true, .xfer s.cfg.cmdReadId none, .xfer s.cfg.dummy (some s.flash.chipMfr),
        .xfer s.cfg.dummy (some (s.flash.chipDev.extractLsb' 8 8)),
        .xfer s.cfg.dummy (some (s.flash.chipDev.extractLsb' 0 8)), .cs false],
      flash := { s.flash with rawRun := [] } }

/-- R59, R95, R125: one status byte per transaction; its `WIP_MASK` bit is set exactly while the operation is in
progress, whatever the other bits are; no content changes. When the operation ends is the chip's draw (log 5). -/
def Obligations.StatusReadReportsTheOperation : Prop :=
  ∀ s : State, s.cfg.ok = true → s.drv = .ready → ∃ (b : Byte) (f : Flash),
    exec .tReadStatus s = .next { s with
      cs := false, status := b, noise := s.noise + 1, flash := f,
      trace := s.trace ++ [.cs true, .xfer s.cfg.cmdReadStatus none, .xfer s.cfg.dummy (some b), .cs false] } ∧
    (b &&& s.cfg.wipMask ≠ 0 ↔ f.wip = true) ∧
    (f.wip = true ↔ s.flash.wip = true ∧ s.flash.busyPolls ≠ some 0) ∧
    f.mem = s.flash.mem ∧ f.opBase = s.flash.opBase ∧ f.opLen = s.flash.opLen ∧ f.draws = s.flash.draws ∧
    f.chipMfr = s.flash.chipMfr ∧ f.chipDev = s.flash.chipDev

/-- R56, R92, R114: one read burst; data byte `i` is `mem[a + i]`; the first `n` bytes of the staging buffer take it and
the others keep what they held; the content is unchanged. (That the burst ends the run of raw transactions, `rawRun`, is
the model's, log 9.) -/
def Obligations.ReadBurstFillsTheStagingBuffer : Prop :=
  ∀ (a n : Word) (s : State), s.drv = .ready → 1 ≤ n.toNat → n.toNat ≤ s.cfg.sectorSize →
    a.toNat % 2 ^ (8 * s.cfg.addrBytes) + n.toNat ≤ s.cfg.totalSize → s.flash.wip = false →
    ∀ data : List Byte,
      data = (List.range n.toNat).map
        (fun i => Memory.read s.flash.mem (a.toNat % 2 ^ (8 * s.cfg.addrBytes) + i)) →
      exec (.tRead a n) s = .next { s with
        cs := false, buf := data ++ s.buf.drop n.toNat,
        trace := s.trace ++ (.cs true :: .xfer s.cfg.cmdRead none ::
          (addrBytesOf s.cfg a).map (fun x => .xfer x none) ++ data.map (fun x => .xfer s.cfg.dummy (some x))
          ++ [.cs false]),
        flash := { s.flash with rawRun := [] } }

/-- Where an SPI transaction stops, each under its own name. From the rules: addresses the chip does not have (R52), a
sector erase that is not aligned (R58), a busy chip (R59, U10), a raw transaction without a byte (R97). The model's own
stops: any transaction in a fault state and a data operation outside `Ready` (log 13, deduced from R110), more bytes than
the staging buffer has (log 15, deduced from R30). A burst or a program of no bytes is no transaction (R114, R120). -/
def Obligations.WhereTransactionsStop : Prop :=
  ∀ (s : State) (a n : Word) (b : Byte) (bs : List Byte),
    (s.drv = .faulted → exec (.tRaw bs) s = .refused .driverNotReady ∧ exec .tReadId s = .refused .driverNotReady) ∧
    (s.drv ≠ .faulted → exec (.tRaw []) s = .refused .emptyTransaction) ∧
    (s.drv ≠ .ready →
      exec .tReadStatus s = .refused .driverNotReady ∧ exec (.tRead a n) s = .refused .driverNotReady ∧
      exec (.tProgram a bs) s = .refused .driverNotReady ∧ exec (.tSectorErase a) s = .refused .driverNotReady ∧
      exec .tChipErase s = .refused .driverNotReady) ∧
    (s.drv = .ready →
      exec (.tRead a 0) s = .next s ∧ exec (.tProgram a []) s = .next s ∧
      (s.cfg.sectorSize < n.toNat → exec (.tRead a n) s = .fault .stagingIndex) ∧
      (1 ≤ n.toNat → n.toNat ≤ s.cfg.sectorSize →
        s.cfg.totalSize < a.toNat % 2 ^ (8 * s.cfg.addrBytes) + n.toNat →
        exec (.tRead a n) s = .refused .flashAddress) ∧
      (1 ≤ n.toNat → n.toNat ≤ s.cfg.sectorSize →
        a.toNat % 2 ^ (8 * s.cfg.addrBytes) + n.toNat ≤ s.cfg.totalSize → s.flash.wip = true →
        exec (.tRead a n) s = .refused .flashBusy) ∧
      (s.cfg.totalSize ≤ a.toNat % 2 ^ (8 * s.cfg.addrBytes) →
        exec (.tProgram a (b :: bs)) s = .refused .flashAddress) ∧
      (a.toNat % 2 ^ (8 * s.cfg.addrBytes) < s.cfg.totalSize → s.flash.wip = true →
        exec (.tProgram a (b :: bs)) s = .refused .flashBusy) ∧
      (a.toNat % 2 ^ (8 * s.cfg.addrBytes) % s.cfg.sectorSize ≠ 0 →
        exec (.tSectorErase a) s = .refused .eraseUnaligned) ∧
      (a.toNat % 2 ^ (8 * s.cfg.addrBytes) % s.cfg.sectorSize = 0 →
        s.cfg.totalSize < a.toNat % 2 ^ (8 * s.cfg.addrBytes) + s.cfg.sectorSize →
        exec (.tSectorErase a) s = .refused .flashAddress) ∧
      (a.toNat % 2 ^ (8 * s.cfg.addrBytes) % s.cfg.sectorSize = 0 →
        a.toNat % 2 ^ (8 * s.cfg.addrBytes) + s.cfg.sectorSize ≤ s.cfg.totalSize → s.flash.wip = true →
        exec (.tSectorErase a) s = .refused .flashBusy) ∧
      (s.flash.wip = true → exec .tChipErase s = .refused .flashBusy))

/-- R57, R93: a write-enabled program transaction ANDs data byte `i`, in order, into
`(a div P)*P + ((a mod P + i) mod P)`; every other byte and every block register but `cs` stays; `wip <- 1`. -/
def Obligations.ProgramAndsIntoThePage : Prop :=
  ∀ (a : Word) (d : List Byte) (s : State), s.cfg.ok = true → s.drv = .ready → d ≠ [] →
    a.toNat % 2 ^ (8 * s.cfg.addrBytes) < s.cfg.totalSize → s.flash.wip = false → s.flash.mem.wf = true →
    s.cfg.writePrelude <:+ s.flash.rawRun →
    ∀ A P : Nat, A = a.toNat % 2 ^ (8 * s.cfg.addrBytes) → P = (if s.cfg.pageSize = 0 then 1 else s.cfg.pageSize) →
    ∃ f : Flash,
      exec (.tProgram a d) s = .next { s with
        cs := false, flash := f,
        trace := s.trace ++ (.cs true :: .xfer s.cfg.cmdProgram none ::
          (addrBytesOf s.cfg a ++ d).map (fun x => .xfer x none) ++ [.cs false]) } ∧
      (∀ x, Memory.read f.mem x =
        (List.range d.length).foldl
          (fun v i => if A / P * P + (A % P + i) % P = x then v &&& d.getD i 0 else v) (Memory.read s.flash.mem x)) ∧
      f.mem.wf = true ∧ f.wip = true ∧ f.chipMfr = s.flash.chipMfr ∧ f.chipDev = s.flash.chipDev

/-- R57, its last sentences: on erased bytes, without crossing a page boundary, the data is what the flash holds, and
every byte outside `a .. a+k-1` reads as before. -/
def Obligations.ProgramOnErasedBytesStoresTheData : Prop :=
  ∀ (a : Word) (d : List Byte) (s t : State), s.cfg.ok = true → s.flash.mem.wf = true →
    s.cfg.writePrelude <:+ s.flash.rawRun → d ≠ [] →
    ∀ A P : Nat, A = a.toNat % 2 ^ (8 * s.cfg.addrBytes) → P = (if s.cfg.pageSize = 0 then 1 else s.cfg.pageSize) →
    A % P + d.length ≤ P → (∀ i, i < d.length → Memory.read s.flash.mem (A + i) = 0xFF#8) →
    exec (.tProgram a d) s = .next t →
    (∀ i, i < d.length → some (Memory.read t.flash.mem (A + i)) = d[i]?) ∧
    (∀ x, x < A ∨ A + d.length ≤ x → Memory.read t.flash.mem x = Memory.read s.flash.mem x)

/-- R58, R94: a write-enabled sector erase sets the bytes of its sector, a write-enabled chip erase every byte. -/
def Obligations.ErasesSetTheirBytes : Prop :=
  (∀ (a : Word) (s : State), s.drv = .ready → s.flash.wip = false → s.cfg.writePrelude <:+ s.flash.rawRun →
    ∀ A : Nat, A = a.toNat % 2 ^ (8 * s.cfg.addrBytes) → A % s.cfg.sectorSize = 0 →
    A + s.cfg.sectorSize ≤ s.cfg.totalSize →
    ∃ f : Flash,
      exec (.tSectorErase a) s = .next { s with
        cs := false, flash := f,
        trace := s.trace ++ (.cs true :: .xfer s.cfg.cmdSectorErase none ::
          (addrBytesOf s.cfg a).map (fun x => .xfer x none) ++ [.cs false]) } ∧
      (∀ x, Memory.read f.mem x =
        if A ≤ x ∧ x < A + s.cfg.sectorSize then 0xFF#8 else Memory.read s.flash.mem x) ∧
      f.wip = true ∧ f.chipMfr = s.flash.chipMfr ∧ f.chipDev = s.flash.chipDev) ∧
  (∀ s : State, s.drv = .ready → s.flash.wip = false → s.cfg.writePrelude <:+ s.flash.rawRun →
    ∃ f : Flash,
      exec .tChipErase s = .next { s with
        cs := false, flash := f,
        trace := s.trace ++ [.cs true, .xfer s.cfg.cmdChipErase none, .cs false] } ∧
      (∀ x, Memory.read f.mem x = 0xFF#8) ∧
      f.wip = true ∧ f.chipMfr = s.flash.chipMfr ∧ f.chipDev = s.flash.chipDev)

/-- R60 (general knowledge in the spec itself; log 9): without the prelude directly before it, the chip ignores a program
or an erase: content and `wip` stay, the events are the same. -/
def Obligations.WithoutWriteEnableNothingIsStored : Prop :=
  ∀ (a : Word) (d : List Byte) (s : State), s.drv = .ready → s.flash.wip = false →
    ¬ s.cfg.writePrelude <:+ s.flash.rawRun →
    ∀ A : Nat, A = a.toNat % 2 ^ (8 * s.cfg.addrBytes) →
    (d ≠ [] → A < s.cfg.totalSize → exec (.tProgram a d) s = .next { s with
        cs := false, flash := { s.flash with rawRun := [] },
        trace := s.trace ++ (.cs true :: .xfer s.cfg.cmdProgram none ::
          (addrBytesOf s.cfg a ++ d).map (fun x => .xfer x none) ++ [.cs false]) }) ∧
    (A % s.cfg.sectorSize = 0 → A + s.cfg.sectorSize ≤ s.cfg.totalSize → exec (.tSectorErase a) s = .next { s with
        cs := false, flash := { s.flash with rawRun := [] },
        trace := s.trace ++ (.cs true :: .xfer s.cfg.cmdSectorErase none ::
          (addrBytesOf s.cfg a).map (fun x => .xfer x none) ++ [.cs false]) }) ∧
    exec .tChipErase s = .next { s with
        cs := false, flash := { s.flash with rawRun := [] },
        trace := s.trace ++ [.cs true, .xfer s.cfg.cmdChipErase none, .cs false] }

/-- R123: the chip erase leaves the content that erasing every sector in turn leaves; each is write enabled. -/
def Obligations.ChipEraseEqualsSectorErases : Prop :=
  ∀ (c : Config) (f : Flash), c.ok = true → f.mem.below c.totalSize = true →
    (Flash.chipErase c { f with rawRun := c.writePrelude }).mem =
      ((List.range c.sectorCount).foldl
        (fun g k => Flash.sectorErase c { g with rawRun := c.writePrelude } (k * c.sectorSize)) f).mem

/-! ## The executor -/

/-- R142: the byte is consumed and nothing else happens; events: `RX(b)` only. -/
def Obligations.IgnoredByteIsOnlyConsumed : Prop :=
  (∀ (b : Byte) (s : State), exec (.ignored b) s = .next s) ∧
  ∀ (b : Byte) (rest : List Byte) (s : State), s.cfg.ok = true → s.blockTurn → s.seq = .waitCmd → s.rxQ = b :: rest →
    b ≠ 0x10#8 → b ≠ 0x20#8 →
    step s = .next { s with turns := s.turns.tail, rxQ := rest, trace := s.trace ++ [.rx b] }

/-- R141: with no byte there the block waits and does nothing; an opcode opens the header; events: `RX(b)`, then `LED(1)`
if the indicator was off. (That the request latches start from 0 is R140's. That both events are one step, which no reset
splits, is the model's choice, log 34.) -/
def Obligations.OpcodeOpensTheHeader : Prop :=
  (∀ s : State, s.seq = .waitCmd → s.rxQ = [] → blockMove s = .next s) ∧
  ∀ (b : Byte) (rest : List Byte) (s : State), s.cfg.ok = true → s.blockTurn → s.seq = .waitCmd → s.rxQ = b :: rest →
    b = 0x10#8 ∨ b = 0x20#8 →
    step s = .next { s with
      turns := s.turns.tail, rxQ := rest, op := b, reqAddr := 0, reqLen := 0, hdrIdx := 0, seq := .hdr, ledBusy := true,
      trace := s.trace ++ (.rx b :: if s.ledBusy = true then [] else [.led true]) }

/-- R143, R25: header bytes 0 to 3 go to the address, 4 to 6 to the length, most significant first; nothing is sent. -/
def Obligations.HeaderByteIsShiftedIn : Prop :=
  ∀ (h : Byte) (rest : List Byte) (s : State), s.cfg.ok = true → s.blockTurn → s.seq = .hdr → s.rxQ = h :: rest →
    s.hdrIdx ≠ 7#3 →
    step s = .next { s with
      turns := s.turns.tail, rxQ := rest, hdrIdx := s.hdrIdx + 1#3, trace := s.trace ++ [.rx h],
      reqAddr := if s.hdrIdx.toNat < 4 then s.reqAddr * 256#32 + h.setWidth 32 else s.reqAddr,
      reqLen := if s.hdrIdx.toNat < 4 then s.reqLen else s.reqLen * 256#32 + h.setWidth 32 }

/-- R82, R140, R143, R144: the nine bytes of a frame are taken one a step; the step that takes the last one runs the
command the decoder reads from them. (That each byte, with the `LED(1)` of the first, is one step is the model's choice, log
34.) -/
def Obligations.FrameIsRunByItsLastByte : Prop :=
  ∀ (b h1 h2 h3 h4 h5 h6 h7 h8 : Byte) (rest : List Byte) (i : Instr) (s : State),
    s.cfg.ok = true → s.seq = .waitCmd → s.turns = [] → b = 0x10#8 ∨ b = 0x20#8 →
    s.rxQ = b :: h1 :: h2 :: h3 :: h4 :: h5 :: h6 :: h7 :: h8 :: rest →
    decodeFrame s.rxQ = .instr i rest →
    ∃ w v : State, Reaches 8 s w ∧ w.fetch = some i ∧ v = w.beforeInstr ∧ step w = exec i v ∧ v.rxQ = rest ∧
      v.op = b ∧ v.ledBusy = true ∧ v.flash = s.flash ∧ v.host = s.host ∧ v.drv = s.drv ∧ v.cfg = s.cfg ∧
      v.reqAddr = joinBe32 h1 h2 h3 h4 ∧ v.reqLen = joinBe32 h5 h6 h7 h8 ∧
      Appends s v ((.rx b :: if s.ledBusy = true then [] else [.led true])
        ++ [.rx h1, .rx h2, .rx h3, .rx h4, .rx h5, .rx h6, .rx h7, .rx h8])

/-- R24, R26, R144: accepting a request in contract loads the request registers and the cursor; every other register, the
flash and the queues stay. (The rest of the command is R23's control states: ReadFlashSendsFlashContent,
WriteFlashStoresThePayload. That `Led(1)` and the request registers are written here too is log 29.) -/
def Obligations.RequestInContractIsAccepted : Prop :=
  ∀ (a n : Word) (s : State), s.drv = .ready → a.toNat + n.toNat ≤ s.cfg.totalSize →
    exec (.readFlash a n) s = .next { s with
      op := 0x10#8, reqAddr := a, reqLen := n, curAddr := a, rem := n, seq := .chunk, ledBusy := true,
      trace := if s.ledBusy = true then s.trace else s.trace ++ [.led true] } ∧
    exec (.writeFlash a n) s = .next { s with
      op := 0x20#8, reqAddr := a, reqLen := n, curAddr := a, rem := n, seq := .chunk, ledBusy := true,
      trace := if s.ledBusy = true then s.trace else s.trace ++ [.led true] }

/-- R146: a request whose end, in unbounded naturals, lies beyond `TOTAL_SIZE` is refused. (That a command is refused
outside `Ready`, the second clause, is the model's: log 13, deduced from R110.) -/
def Obligations.RequestOutOfContractIsRefused : Prop :=
  ∀ (a n : Word) (s : State),
    (s.drv = .ready → s.cfg.totalSize < a.toNat + n.toNat →
      exec (.readFlash a n) s = .refused .outOfContract ∧ exec (.writeFlash a n) s = .refused .outOfContract) ∧
    (s.drv ≠ .ready →
      exec (.readFlash a n) s = .refused .driverNotReady ∧ exec (.writeFlash a n) s = .refused .driverNotReady)

/-- R145, R154: `S_CHUNK`. -/
def Obligations.ChunkDecision : Prop :=
  ∀ s : State, s.cfg.ok = true → s.blockTurn → s.seq = .chunk →
    (s.rem = 0 → step s = .next { s with
      turns := s.turns.tail, seq := .waitCmd, ledBusy := false,
      trace := if s.ledBusy = false then s.trace else s.trace ++ [.led false] }) ∧
    (s.rem ≠ 0 → s.op = 0x10#8 → step s = .next { s with
      turns := s.turns.tail, seq := .rdFill, chunkLen := BitVec.ofNat 32 (min s.rem.toNat s.cfg.sectorSize) }) ∧
    (s.rem ≠ 0 → s.op = 0x20#8 → step s = .next { s with
      turns := s.turns.tail, seq := .wrReady, bufIdx := 0,
      chunkLen := BitVec.ofNat 32 (min s.rem.toNat s.cfg.sectorSize) })

/-- R148, R149: `S_RD_DRAIN` sends `buf[buf_idx]`; after the last byte of the chunk the cursor advances. -/
def Obligations.DrainSendsOneByte : Prop :=
  ∀ (b : Byte) (s : State), s.cfg.ok = true → s.blockTurn → s.seq = .rdDrain → s.buf[s.bufIdx.toNat]? = some b →
    (s.bufIdx.toNat + 1 < s.chunkLen.toNat → step s = .next { s with
      turns := s.turns.tail, trace := s.trace ++ [.tx b], txFinished := true, bufIdx := s.bufIdx + 1,
      host := { s.host with inbox := s.host.inbox ++ [b] } }) ∧
    (s.chunkLen.toNat ≤ s.bufIdx.toNat + 1 → step s = .next { s with
      turns := s.turns.tail, trace := s.trace ++ [.tx b], txFinished := true, seq := .chunk,
      curAddr := s.curAddr + s.chunkLen, rem := s.rem - s.chunkLen,
      host := { s.host with inbox := s.host.inbox ++ [b] } })

/-- R88, R150: the ready byte is 0x42, sent whether or not a byte is waiting; then `S_WR_RECV`. (That the ready byte is
refused outside `Ready`, the second clause, is the model's: log 13, deduced from R110.) -/
def Obligations.ReadyByteIsSent : Prop :=
  (∀ s : State, s.drv = .ready → exec .ready s = .next { s with
    trace := s.trace ++ [.tx 0x42#8], txFinished := true, host := { s.host with inbox := s.host.inbox ++ [0x42#8] } }) ∧
  (∀ s : State, s.drv ≠ .ready → exec .ready s = .refused .driverNotReady) ∧
  ∀ s : State, s.cfg.ok = true → s.drv = .ready → s.blockTurn → s.seq = .wrReady → step s = .next { s with
    turns := s.turns.tail, seq := .wrRecv, trace := s.trace ++ [.tx 0x42#8], txFinished := true,
    host := { s.host with inbox := s.host.inbox ++ [0x42#8] } }

/-- R151: `S_WR_RECV` waits without limit; it stores the oldest byte; while the chunk is not whole the next ready byte
follows, then `S_WR_ERASE`. -/
def Obligations.PayloadByteIsStored : Prop :=
  (∀ s : State, s.seq = .wrRecv → s.rxQ = [] → blockMove s = .next s) ∧
  ∀ (b : Byte) (rest : List Byte) (s : State), s.cfg.ok = true → s.blockTurn → s.seq = .wrRecv → s.rxQ = b :: rest →
    s.bufIdx.toNat < s.buf.length →
    (s.bufIdx.toNat + 1 < s.chunkLen.toNat → step s = .next { s with
      turns := s.turns.tail, seq := .wrReady, rxQ := rest, trace := s.trace ++ [.rx b], bufIdx := s.bufIdx + 1,
      buf := s.buf.set s.bufIdx.toNat b }) ∧
    (s.chunkLen.toNat ≤ s.bufIdx.toNat + 1 → ∃ t, step s = .next t ∧ t.seq = .wrErase ∧ t.rxQ = rest ∧
      t.trace = s.trace ++ [.rx b] ∧ t.buf = s.buf.set s.bufIdx.toNat b)

/-- R152: when the last byte of a chunk is taken, the call of `erase_region` that begins has the covering sectors as its
operands: aligned, one or two of them, inside the chip. (What the call does is EraseStepIssuesPreludeEraseThenPolls and
PollsUntilNotBusy.) -/
def Obligations.EraseCallCoversTheChunk : Prop :=
  ∀ (b : Byte) (rest : List Byte) (s : State), s.cfg.ok = true → s.blockTurn → s.seq = .wrRecv → s.rxQ = b :: rest →
    s.bufIdx.toNat < s.buf.length → s.chunkLen.toNat = s.bufIdx.toNat + 1 → s.chunkIn →
    ∃ t, step s = .next t ∧ t.seq = .wrErase ∧ t.micro = .issue 0 ∧ t.buf = s.buf.set s.bufIdx.toNat b ∧
      t.rxQ = rest ∧ t.trace = s.trace ++ [.rx b] ∧
      t.erAddr.toNat = s.curAddr.toNat / s.cfg.sectorSize * s.cfg.sectorSize ∧
      t.erCount.toNat = (s.curAddr.toNat + s.chunkLen.toNat - 1) / s.cfg.sectorSize
        - s.curAddr.toNat / s.cfg.sectorSize + 1 ∧
      (t.erCount.toNat = 1 ∨ t.erCount.toNat = 2) ∧
      t.erAddr.toNat + t.erCount.toNat * s.cfg.sectorSize ≤ s.cfg.totalSize ∧
      t.curAddr = s.curAddr ∧ t.chunkLen = s.chunkLen ∧ t.rem = s.rem ∧ t.flash = s.flash ∧ t.host = s.host

/-- R122, R124: an `erase_step` is the write prelude in order, then the chip erase if the region is the whole chip, else
the erase of sector `er_idx` of the region, then the polls: transaction `k` of the prelude is followed by transaction
`k + 1`, the last by the erase, the erase by the first poll. (What follows a poll is PollsUntilNotBusy. That a busy chip,
which no run has here, takes the prelude too is log 33.) -/
def Obligations.EraseStepIssuesPreludeEraseThenPolls : Prop :=
  ∀ s : State, s.cfg.ok = true → s.blockTurn → s.drv = .ready → s.seq = .wrErase → s.erasePending = true →
    s.eraseRefused = false →
    (∀ k p, s.micro = .issue k → s.cfg.writePrelude[k]? = some p → s.fetch = some (.tRaw p) ∧
      ∃ u, exec (.tRaw p) s.takeTurn = .next u ∧ step s = .next { u with micro := .issue (k + 1) }) ∧
    (∀ k i, s.micro = .issue k → s.cfg.writePrelude.length ≤ k →
      i = (if s.erAddr = 0 ∧ s.erCount.toNat = s.cfg.sectorCount then .tChipErase
        else .tSectorErase (BitVec.ofNat 32 (s.erAddr.toNat + s.erIdx.toNat * s.cfg.sectorSize))) →
      s.fetch = some i ∧
      (s.flash.wip = false → ∃ u, exec i s.takeTurn = .next u ∧ step s = .next { u with micro := .poll })) ∧
    (s.micro = .poll → s.fetch = some .tReadStatus)

/-- R117, R118: a `program_step` is the write prelude in order, then a program of the next bytes of the staging buffer at
their address (up to a page in page mode, else one), then the polls: transaction `k` of the prelude is followed by
transaction `k + 1`, the last by the program, the program by the first poll. (What follows a poll is
PollsUntilNotBusy. That a busy chip, which no run has here, takes the prelude too is log 33.) -/
def Obligations.ProgramStepIssuesPreludeProgramThenPolls : Prop :=
  ∀ s : State, s.cfg.ok = true → s.blockTurn → s.drv = .ready → s.seq = .wrProgram →
    s.wrOff.toNat < s.chunkLen.toNat →
    (∀ k p, s.micro = .issue k → s.cfg.writePrelude[k]? = some p → s.fetch = some (.tRaw p) ∧
      ∃ u, exec (.tRaw p) s.takeTurn = .next u ∧ step s = .next { u with micro := .issue (k + 1) }) ∧
    (∀ k a d, s.micro = .issue k → s.cfg.writePrelude.length ≤ k → a = s.curAddr + s.wrOff →
      d = (s.buf.drop s.wrOff.toNat).take
        (if s.wrPageMode = true then min s.cfg.pageSize (s.chunkLen.toNat - s.wrOff.toNat) else 1) →
      s.fetch = some (.tProgram a d) ∧
      (s.flash.wip = false → a.toNat < s.cfg.totalSize →
        ∃ u, exec (.tProgram a d) s.takeTurn = .next u ∧ step s = .next { u with micro := .poll })) ∧
    (s.micro = .poll → s.fetch = some .tReadStatus)

/-- R118, R153: the mode of `write_bytes` is chosen when the call begins, from its address, and not again. -/
def Obligations.WriteModeIsChosenOncePerCall : Prop :=
  ∀ s t : State, ¬s.resetNow → step s = .next t → t.seq = .wrProgram →
    (s.seq = .wrProgram → t.wrPageMode = s.wrPageMode) ∧
    (s.seq = .wrErase → t.wrOff = 0 ∧
      (t.wrPageMode = true ↔ s.cfg.pageSize ≠ 0 ∧ s.curAddr.toNat % s.cfg.pageSize = 0))

/-- R119, R227: no program transaction the block issues crosses a page boundary; in page mode it begins at a multiple of
`PAGE_SIZE` and is at most that long, otherwise it is one byte. -/
def Obligations.NoProgramCrossesAPage : Prop :=
  ∀ (s : State) (a : Word) (d : List Byte), RunInv s → s.fetch = some (.tProgram a d) →
    1 ≤ d.length ∧ a.toNat + d.length ≤ s.cfg.totalSize ∧
    (∀ P : Nat, P = (if s.cfg.pageSize = 0 then 1 else s.cfg.pageSize) → a.toNat % P + d.length ≤ P) ∧
    (s.wrPageMode = true → s.cfg.pageSize ≠ 0 ∧ a.toNat % s.cfg.pageSize = 0 ∧ d.length ≤ s.cfg.pageSize) ∧
    (s.wrPageMode = false → d.length = 1)

/-- R126, R122, R118: a poll is one status transaction, and nothing but what it writes moves while it reads busy. At the
first that does not, an erase step goes on to the next sector of the region, or to the program of the chunk if the region
is done; a program step goes on to the next bytes, or to the end of the chunk if all are programmed. -/
def Obligations.PollsUntilNotBusy : Prop :=
  ∀ s : State, s.cfg.ok = true → s.blockTurn → s.drv = .ready → s.micro = .poll → s.eraseRefused = false →
    (s.seq = .wrErase ∧ s.erasePending = true) ∨ (s.seq = .wrProgram ∧ s.programPending = true) →
    ∃ u, exec .tReadStatus s.takeTurn = .next u ∧
      Appends s u [.cs true, .xfer s.cfg.cmdReadStatus none, .xfer s.cfg.dummy (some u.status), .cs false] ∧
      (u.status &&& s.cfg.wipMask ≠ 0 → step s = .next u) ∧
      (u.status &&& s.cfg.wipMask = 0 → s.seq = .wrErase → ∀ whole : Prop,
        (whole ↔ s.erAddr = 0 ∧ s.erCount.toNat = s.cfg.sectorCount) →
        (¬whole → (s.erIdx + 1).toNat < s.erCount.toNat →
          step s = .next { u with erIdx := s.erIdx + 1, micro := .issue 0 }) ∧
        (whole ∨ s.erCount.toNat ≤ (s.erIdx + 1).toNat → ∃ e : Word, (¬whole → e = s.erIdx + 1) ∧
          step s = .next { u with
            erIdx := e, seq := .wrProgram, micro := .issue 0, wrOff := 0,
            wrPageMode := decide (s.cfg.pageSize ≠ 0) && decide (s.curAddr.toNat % s.cfg.pageSize = 0) })) ∧
      (u.status &&& s.cfg.wipMask = 0 → s.seq = .wrProgram → ∀ w : Word,
        w = s.wrOff + BitVec.ofNat 32
          (if s.wrPageMode = true then min s.cfg.pageSize (s.chunkLen.toNat - s.wrOff.toNat) else 1) →
        (w.toNat < s.chunkLen.toNat → step s = .next { u with wrOff := w, micro := .issue 0 }) ∧
        (s.chunkLen.toNat ≤ w.toNat → step s = .next { u with
          wrOff := w, micro := .issue 0, seq := .chunk,
          curAddr := s.curAddr + s.chunkLen, rem := s.rem - s.chunkLen }))

/-- R192: busy for ever. Every later step is one more poll that reads busy; nothing else happens, and it is not a
fault. -/
def Obligations.BusyForEverPollsForEver : Prop :=
  ∀ s : State, s.cfg.ok = true → s.drv = .ready → s.turns = [] → s.hung → s.eraseRefused = false →
    ∀ k : Nat, ∃ u, Reaches k s u ∧ u.hung ∧ u.seq = s.seq ∧ u.drv = .ready ∧ u.faulted = false ∧
      u.ledBusy = s.ledBusy ∧ u.rxQ = s.rxQ ∧ u.host = s.host ∧ u.flash.mem = s.flash.mem ∧
      ∃ sts : List Byte, sts.length = k ∧ (∀ b, b ∈ sts → b &&& s.cfg.wipMask ≠ 0) ∧
        Appends s u (sts.flatMap (fun b =>
          [.cs true, .xfer s.cfg.cmdReadStatus none, .xfer s.cfg.dummy (some b), .cs false]))

/-- R67, R235: no transaction other than a status read is issued while the chip is busy. -/
def Obligations.OnlyPollsWhileBusy : Prop :=
  ∀ (s : State) (i : Instr), RunInv s → s.flash.wip = true → s.fetch = some i → i = .tReadStatus

/-- R158 (b), (c), R172 (H1): over one chunk, ready bytes and payload bytes alternate one to one, the ready byte first; the
payload is what the staging buffer holds; no SPI event lies between. Whether all the payload waits already, or a host
sends each byte only when it has taken a ready byte (with a receive holding of any depth but 0). -/
def Obligations.ReadyAndPayloadAlternate : Prop :=
  ∀ (D : List Byte) (way : Delivery) (s : State), s.cfg.ok = true → s.seq = .wrReady → s.drv = .ready → s.turns = [] →
    s.bufIdx = 0 → D ≠ [] → s.chunkLen.toNat = D.length → D.length ≤ s.buf.length →
    s.delivers D way →
    ∃ (u : State) (k : Nat), Reaches k s u ∧ Appends s u (D.flatMap (fun d => [.tx 0x42#8, .rx d])) ∧
      u.seq = .wrErase ∧ u.buf = D ++ s.buf.drop D.length ∧ u.flash = s.flash ∧ u.delivered D.length s.host way

/-- R155: a `READ_FLASH` in contract runs to its end and sends exactly `length` bytes, byte `i` equal to
`mem[address + i]`; no byte is taken, the content is unchanged. -/
def Obligations.ReadFlashSendsFlashContent : Prop :=
  ∀ (a n : Word) (s : State), s.cfg.ok = true → s.drv = .ready → s.turns = [] → s.flash.wip = false →
    s.buf.length = s.cfg.sectorSize → s.cs = false → a.toNat + n.toNat ≤ s.cfg.totalSize →
    ∃ (t u : State) (k : Nat), exec (.readFlash a n) s = .next t ∧ Reaches k t u ∧
      u.seq = .waitCmd ∧ u.drv = .ready ∧ u.ledBusy = false ∧ u.cs = false ∧ u.rem = 0 ∧
      u.host.inbox = s.host.inbox ++ (List.range n.toNat).map (fun i => Memory.read s.flash.mem (a.toNat + i)) ∧
      u.rxQ = s.rxQ ∧ u.flash.mem = s.flash.mem ∧ u.flash.wip = false ∧
      u.idMfr = s.idMfr ∧ u.idDev = s.idDev ∧ u.status = s.status ∧ u.faultCause = s.faultCause

/-- R156: a `WRITE_FLASH` in contract whose payload the host delivers, all at once or paced by the ready bytes (R172 H1), on
a chip that gets ready each time, with an aligned address or at most one chunk, runs to its end: `length` ready bytes out,
`length` payload bytes in, `mem[address + i] = D[i]`, every other byte of a covering sector 0xFF, every other byte of the
chip as before. -/
def Obligations.WriteFlashStoresThePayload : Prop :=
  ∀ (a n : Word) (D : List Byte) (way : Delivery) (s : State), s.cfg.ok = true → s.drv = .ready → s.turns = [] →
    s.flash.wip = false → s.flash.mem.wf = true → s.flash.mem.below s.cfg.totalSize = true →
    s.buf.length = s.cfg.sectorSize → s.cs = false →
    (∀ q, q ∈ s.flash.draws → q ≠ none) → a.toNat + n.toNat ≤ s.cfg.totalSize → D.length = n.toNat →
    s.delivers D way → (a.toNat % s.cfg.sectorSize = 0 ∨ n.toNat ≤ s.cfg.sectorSize) →
    ∃ (t u : State) (k : Nat) (es : List Event), exec (.writeFlash a n) s = .next t ∧ Reaches k t u ∧
      u.seq = .waitCmd ∧ u.drv = .ready ∧ u.ledBusy = false ∧ u.cs = false ∧ u.rem = 0 ∧ u.flash.wip = false ∧
      u.delivered n.toNat s.host way ∧
      Appends t u es ∧ es.filter Event.onSerial = D.flatMap (fun d => [.tx 0x42#8, .rx d]) ∧
      (∀ i, i < n.toNat → some (Memory.read u.flash.mem (a.toNat + i)) = D[i]?) ∧
      (∀ x, (x < a.toNat ∨ a.toNat + n.toNat ≤ x) →
        Memory.read u.flash.mem x =
          if 1 ≤ n.toNat ∧ a.toNat / s.cfg.sectorSize ≤ x / s.cfg.sectorSize ∧
              x / s.cfg.sectorSize ≤ (a.toNat + n.toNat - 1) / s.cfg.sectorSize
          then 0xFF#8 else Memory.read s.flash.mem x) ∧
      u.idMfr = s.idMfr ∧ u.idDev = s.idDev ∧ u.faultCause = s.faultCause

/-- R157, R229: with `o = address mod SECTOR_SIZE` not 0 and more than one chunk, of every chunk that is not the last only
its first `SECTOR_SIZE - o` bytes survive; its last `o` bytes read 0xFF; the last chunk survives whole; the bytes outside
the payload read 0xFF in the covering sectors and as before elsewhere; the block raises nothing and sends the serial bytes
of an aligned write. The payload is delivered all at once or paced (R172 H1). -/
def Obligations.UnalignedLongWriteLosesChunkTails : Prop :=
  ∀ (a n : Word) (D : List Byte) (way : Delivery) (s : State), s.cfg.ok = true → s.drv = .ready → s.turns = [] →
    s.flash.wip = false → s.flash.mem.wf = true → s.flash.mem.below s.cfg.totalSize = true →
    s.buf.length = s.cfg.sectorSize →
    (∀ q, q ∈ s.flash.draws → q ≠ none) → a.toNat + n.toNat ≤ s.cfg.totalSize → D.length = n.toNat →
    s.delivers D way →
    ∀ S o : Nat, S = s.cfg.sectorSize → o = a.toNat % S → o ≠ 0 → S < n.toNat →
    ∃ (t u : State) (k : Nat) (es : List Event), exec (.writeFlash a n) s = .next t ∧ Reaches k t u ∧
      u.seq = .waitCmd ∧ u.drv = .ready ∧ u.faultCause = s.faultCause ∧ u.flash.wip = false ∧
      u.delivered n.toNat s.host way ∧
      Appends t u es ∧ es.filter Event.onSerial = D.flatMap (fun d => [.tx 0x42#8, .rx d]) ∧
      (∀ i, i < n.toNat →
        (i / S < (n.toNat - 1) / S ∧ S - o ≤ i % S → Memory.read u.flash.mem (a.toNat + i) = 0xFF#8) ∧
        (i / S = (n.toNat - 1) / S ∨ i % S < S - o → some (Memory.read u.flash.mem (a.toNat + i)) = D[i]?)) ∧
      (∀ x, (x < a.toNat ∨ a.toNat + n.toNat ≤ x) →
        Memory.read u.flash.mem x =
          if a.toNat / S ≤ x / S ∧ x / S ≤ (a.toNat + n.toNat - 1) / S then 0xFF#8
          else Memory.read s.flash.mem x)

/-! ## The host -/

/-- R99, R173, R174: the frame each of `r` and `w` sends, and what the host does after it. `w` takes and compares a byte
before each of the `size` payload bytes; where the file has ended it stops there. (Where the room of the destination of
`r` comes from is the model's, log 32.) -/
def Obligations.CommandLinesSendTheirFrames : Prop :=
  ∀ (a n : Word) (file : List Byte) (s : State),
    exec (.cliR a n) s = .next { s with host := { s.host with
      sink := [], sinkRoom := s.host.rooms.headD none, rooms := s.host.rooms.tail,
      script := s.host.script ++ ((0x10#8 :: (be32 a ++ be32 n)).map .send ++ List.replicate n.toNat .takeData) } } ∧
    (n.toNat ≤ file.length → exec (.cliW a n file) s = .next { s with host := { s.host with
      script := s.host.script ++ ((0x20#8 :: (be32 a ++ be32 n)).map .send
        ++ (file.take n.toNat).flatMap (fun b => [.awaitReady, .send b])) } }) ∧
    (file.length < n.toNat → exec (.cliW a n file) s = .next { s with host := { s.host with
      script := s.host.script ++ ((0x20#8 :: (be32 a ++ be32 n)).map .send
        ++ (file.flatMap (fun b => [.awaitReady, .send b]) ++ [.awaitReady])) } })

/-- R99, R177: `d` is `READ_FLASH` of `C*4` bytes; a product past 32 bits is refused (U22); word `w` of the dump is
`b[4w+3] ++ b[4w+2] ++ b[4w+1] ++ b[4w]`. (Where the room of its destination comes from is the model's, log 32. Of bytes
after the last whole word nothing is said here.) -/
def Obligations.DumpReadsFourBytesAWord : Prop :=
  (∀ (a n : Word) (s : State),
    (n.toNat * 4 < 2 ^ 32 → ∃ len : Word, len.toNat = n.toNat * 4 ∧
      exec (.cliD a n) s = .next { s with host := { s.host with
        sink := [], sinkRoom := s.host.rooms.headD none, rooms := s.host.rooms.tail,
        script := s.host.script ++ ((0x10#8 :: (be32 a ++ be32 len)).map .send
          ++ List.replicate (n.toNat * 4) .takeData) } }) ∧
    (2 ^ 32 ≤ n.toNat * 4 → exec (.cliD a n) s = .refused .dumpOverflow)) ∧
  ∀ (bs : List Byte) (w : Nat), 4 * w + 3 < bs.length → ∃ b0 b1 b2 b3 : Byte,
    bs[4 * w]? = some b0 ∧ bs[4 * w + 1]? = some b1 ∧ bs[4 * w + 2]? = some b2 ∧ bs[4 * w + 3]? = some b3 ∧
    (dumpWords bs)[w]? = some (b3 ++ b2 ++ b1 ++ b0)

/-- R40, R194, R231, U6: an arriving byte is held in order while there is room; an overrun is refused, but in `S_HALT` it
has no consequence. -/
def Obligations.ReceiveHoldingAndOverrun : Prop :=
  ∀ (b : Byte) (rest : List HostAct) (d : Nat) (s : State), s.cfg.ok = true → s.hostTurn →
    s.host.script = .send b :: rest →
    (s.cfg.rxDepth = none ∨ (s.cfg.rxDepth = some d ∧ s.rxQ.length < d) →
      step s = .next { s with
        turns := s.turns.tail, rxQ := s.rxQ ++ [b], host := { s.host with script := rest } }) ∧
    (s.cfg.rxDepth = some d → d ≤ s.rxQ.length → s.seq ≠ .halt → step s = .refused .rxOverrun) ∧
    (s.cfg.rxDepth = some d → d ≤ s.rxQ.length → s.seq = .halt →
      step s = .next { s with turns := s.turns.tail, host := { s.host with script := rest } })

/-- R173, R175: the host's reaction to the byte it takes where a ready byte is due. (That a strict host counts a warning
too is the model's choice, log 18.) -/
def Obligations.HostFlowPolicy : Prop :=
  ∀ (b : Byte) (more : List Byte) (rest : List HostAct) (s : State), s.cfg.ok = true → s.hostTurn →
    s.host.script = .awaitReady :: rest → s.host.inbox = b :: more →
    (b = 0x42#8 → step s = .next { s with
      turns := s.turns.tail, host := { s.host with inbox := more, script := rest } }) ∧
    (b ≠ 0x42#8 → s.cfg.flowPolicy = .lenient → step s = .next { s with
      turns := s.turns.tail, host := { s.host with
        inbox := more, script := rest, warnings := s.host.warnings + 1 } }) ∧
    (b ≠ 0x42#8 → s.cfg.flowPolicy = .strict → step s = .next { s with
      turns := s.turns.tail, host := { s.host with
        inbox := more, script := [], warnings := s.host.warnings + 1 } })

/-- R174: each byte the host receives goes to the destination while that takes it; when it takes no more the host stops
taking bytes, and the block is not told. (That the bytes left stay for the next command line is the model's, log 32.) -/
def Obligations.HostStopsWhenItsDestinationFails : Prop :=
  ∀ (b : Byte) (more : List Byte) (rest : List HostAct) (s : State), s.cfg.ok = true → s.hostTurn →
    s.host.script = .takeData :: rest → s.host.inbox = b :: more →
    (s.host.sinkRoom = none → step s = .next { s with
      turns := s.turns.tail, host := { s.host with inbox := more, script := rest, sink := s.host.sink ++ [b] } }) ∧
    (∀ k, s.host.sinkRoom = some (k + 1) → step s = .next { s with
      turns := s.turns.tail, host := { s.host with
        inbox := more, script := rest, sink := s.host.sink ++ [b], sinkRoom := some k } }) ∧
    (s.host.sinkRoom = some 0 → step s = .next { s with
      turns := s.turns.tail, host := { s.host with inbox := more, script := [] } })

/-! ## The chip -/

/-- R20, R59: the operation in progress ends by a step of the chip alone, which clears the write-enable latch (R39, R60:
general knowledge in the spec itself, log 9) and changes nothing else; on an idle chip its turn changes nothing. Where the
step goes with the status read that first sees the operation ended (log 5), the latch is clear after that read. (With no
turn scheduled the chip takes its step when the block waits or is halted: the model's order, log 4.) -/
def Obligations.ChipEndsItsOperation : Prop :=
  (∀ s : State, s.cfg.ok = true → s.flashTurn →
    (s.flash.wip = true → step s = .next { s with
      turns := s.turns.tail, flash := { s.flash with wip := false, rawRun := [] } }) ∧
    (s.flash.wip = false → step s = .next { s with turns := s.turns.tail })) ∧
  (∀ s t : State, s.flash.wip = true → exec .tReadStatus s = .next t → t.flash.wip = false → t.flash.rawRun = []) ∧
  (∀ (c : Config) (f : Flash), c.writePrelude ≠ [] → f.rawRun = [] → f.wel c = false)

/-! ## The whole machine -/

/-- A step at which the block runs an instruction is `exec` of that instruction, in the state with the byte that completed
it taken, followed by the move to the next control state (R23). -/
def Obligations.StepRunsTheFetchedInstruction : Prop :=
  ∀ (s : State) (i : Instr), s.cfg.ok = true → s.blockTurn → s.fetch = some i → s.eraseRefused = false →
    step s = andThen (exec i s.takeTurn.beforeInstr) (fun t => .next t.afterInstr)

/-- R7, U16: a configuration that breaks a constraint is refused, whatever the state. -/
def Obligations.BadConfigurationIsRefused : Prop :=
  ∀ s : State,
    s.cfg.sectorSize = 0 ∨ s.cfg.totalSize = 0 ∨ s.cfg.totalSize % s.cfg.sectorSize ≠ 0 ∨
      (s.cfg.pageSize ≠ 0 ∧ s.cfg.sectorSize % s.cfg.pageSize ≠ 0) ∨ 2 ^ (8 * s.cfg.addrBytes) < s.cfg.totalSize →
    step s = .refused .badConfiguration

/-- R22, R32, R190: the control registers agree after every step, a reset among them, if they agreed before. -/
def Obligations.StepKeepsControlInv : Prop :=
  ∀ s t : State, ControlInv s → step s = .next t → ControlInv t

/-- Flash content stays canonical and inside the chip, and the staging buffer keeps its size, in every step (R30, R50). -/
def Obligations.StepKeepsMemoryInv : Prop :=
  ∀ s t : State, MemoryInv s → step s = .next t → MemoryInv t

/-- What the rules of the executor rely on holds after every step of a run without a reset (R22 to R31, R67, R146,
R152). -/
def Obligations.StepKeepsRunInv : Prop :=
  ∀ s t : State, RunInv s → s.noReset → step s = .next t → RunInv t ∧ t.noReset

/-- At power-on, over an idle chip, the invariants hold, for every configuration R7 admits. (The idle chip and its content
are the model's, log 3, and so are the registers R45 leaves open, log 2. A reset of a busy chip need not meet `RunInv`.) -/
def Obligations.ResetMeetsTheInvariants : Prop :=
  (∀ c : Config, c.ok = true → RunInv (State.atReset c) ∧ (State.atReset c).noReset) ∧
  ControlInv State.reset ∧ MemoryInv State.reset ∧ RunInv State.reset

/-- From a state that meets the run invariant, the block's move always goes on, but for one thing: the last header byte of
a request out of contract (R146). No other stop of the model is reached (R110, R114, R119, R121, R152). -/
def Obligations.BlockStopsOnlyOutOfContract : Prop :=
  ∀ s : State, RunInv s →
    (∃ t, blockMove s = .next t) ∨
    (s.seq = .hdr ∧ s.hdrIdx = 7#3 ∧ blockMove s = .refused .outOfContract ∧
      ∃ h rest, s.rxQ = h :: rest ∧ s.cfg.totalSize < s.reqAddr.toNat + (shiftIn s.reqLen h).toNat)

/-- R160, R231: the block takes serial bytes only in `S_WAIT_CMD`, `S_HDR` and `S_WR_RECV`, one at a time, the oldest
first. -/
def Obligations.SerialBytesAreTakenOnlyInThreeStates : Prop :=
  ∀ s t : State, blockMove s = .next t → t.rxQ ≠ s.rxQ →
    (s.seq = .waitCmd ∨ s.seq = .hdr ∨ s.seq = .wrRecv) ∧ ∃ b, s.rxQ = b :: t.rxQ ∧ Event.rx b ∈ t.trace

/-- R6, R110, R155: no step changes the configuration or the chip's identity; flash content changes only in `S_WR_ERASE`
and `S_WR_PROGRAM`, or when a reset tears an operation. -/
def Obligations.FlashContentChangesOnlyWhileWriting : Prop :=
  ∀ s t : State, step s = .next t →
    t.cfg = s.cfg ∧ t.flash.chipMfr = s.flash.chipMfr ∧ t.flash.chipDev = s.flash.chipDev ∧
    (t.flash.mem ≠ s.flash.mem →
      s.seq = .wrErase ∨ s.seq = .wrProgram ∨ (s.resetNow ∧ s.flash.wip = true))

/-- R66, R71, R90: the events of one move of the block are one bracketed SPI transaction, or events of the serial link and
the indicator: none of these lies inside a transaction. -/
def Obligations.OneLinkAtATime : Prop :=
  ∀ s t : State, blockMove s = .next t → ∃ es, Appends s t es ∧
    ((∀ e, e ∈ es → (∃ b, e = .rx b) ∨ (∃ b, e = .tx b) ∨ ∃ v, e = .led v) ∨
      ∃ xs, es = .cs true :: xs ++ [.cs false] ∧ xs ≠ [] ∧ ∀ e, e ∈ xs → ∃ m r, e = .xfer m r)

/-- R220, R223: a scheduled reset is taken; the chip keeps every byte outside the operation it was working on, and all of
them if it was idle. (The model's: what the bytes of the operation hold is a free value, and a busy chip stays busy, log
17; the reset adds no event, log 31; it leaves the host as it is, log 17.) -/
def Obligations.ResetKeepsBytesOutsideTheOperation : Prop :=
  ∀ s : State, s.cfg.ok = true → s.turns.head? = some .reset → s.flash.mem.wf = true → ∃ t,
    step s = .next t ∧ t.drv = .uninitialized ∧ t.seq = .reset ∧ t.rxQ = [] ∧ t.cs = false ∧ t.ledBusy = false ∧
    t.faultCause = .none ∧ t.trace = s.trace ∧ t.host = s.host ∧ t.turns = s.turns.tail ∧
    t.flash.wip = s.flash.wip ∧
    ∀ x, s.flash.wip = false ∨ x < s.flash.opBase ∨ s.flash.opBase + s.flash.opLen ≤ x →
      Memory.read t.flash.mem x = Memory.read s.flash.mem x

/-- R223: a reset after `k` exchanges of an SPI transaction: chip-select falls there, the events so far stay, the block is
reset; no byte changes outside the page a program, the sector a sector erase works on. (Those bytes hold any value, U8. The
model's, logs 8 and 31: the fall of chip-select is no event.) -/
def Obligations.ResetInsideATransaction : Prop :=
  ∀ (k : Nat) (i : Instr) (u s : State) (es : List Event), s.cfg.ok = true → s.turns.head? = some (.cut k) →
    s.fetch = some i → i.link = .spi → s.eraseRefused = false → s.flash.wip = false → s.flash.mem.wf = true →
    exec i s.takeTurn = .next u → Appends s u (.cs true :: es ++ [.cs false]) → ∃ t,
    step s = .next t ∧ Appends s t (.cs true :: es.take k) ∧ t.cs = false ∧ t.drv = .uninitialized ∧ t.seq = .reset ∧
    t.rxQ = [] ∧ t.ledBusy = false ∧ t.faultCause = .none ∧ t.host = s.host ∧ t.turns = s.turns.tail ∧
    ((∃ b, i = .tRaw b) ∨ i = .tReadId ∨ i = .tReadStatus ∨ (∃ a n, i = .tRead a n) →
      t.flash.mem = s.flash.mem ∧ t.flash.wip = false) ∧
    (∀ (a : Word) (d : List Byte) (A P : Nat), i = .tProgram a d → A = a.toNat % 2 ^ (8 * s.cfg.addrBytes) →
      P = (if s.cfg.pageSize = 0 then 1 else s.cfg.pageSize) →
      (∀ x, x / P ≠ A / P → Memory.read t.flash.mem x = Memory.read s.flash.mem x) ∧
      (k ≤ 1 + s.cfg.addrBytes → t.flash.wip = false)) ∧
    (∀ (a : Word) (A : Nat), i = .tSectorErase a → A = a.toNat % 2 ^ (8 * s.cfg.addrBytes) →
      (∀ x, x < A ∨ A + s.cfg.sectorSize ≤ x → Memory.read t.flash.mem x = Memory.read s.flash.mem x) ∧
      (k ≤ s.cfg.addrBytes → t.flash.wip = false))
end

