-- ==== Sys2Proof/Laws/Decode.lean ====
section
/-!
SUPPORT. Laws/Decode.lean: the small laws of the byte layouts: a field split into bytes and joined again, and the
lengths of the layouts.
-/
namespace Sys2Proof

/-- Assembly as arithmetic: `h1*2^24 + h2*2^16 + h3*2^8 + h4` (R84). -/
theorem toNat_joinBe32 (a b c d : Byte) :
    (joinBe32 a b c d).toNat = a.toNat * 2 ^ 24 + b.toNat * 2 ^ 16 + c.toNat * 2 ^ 8 + d.toNat := by
  have hb := b.isLt; have hc := c.isLt; have hd := d.isLt
  unfold joinBe32
  simp only [BitVec.toNat_append]
  rw [← Nat.shiftLeft_add_eq_or_of_lt hd, ← Nat.shiftLeft_add_eq_or_of_lt hc, ← Nat.shiftLeft_add_eq_or_of_lt hb]
  simp only [Nat.shiftLeft_eq]
  ring

/-- The bytes of a field, joined again. -/
theorem joinBe32_be32 (v : Word) :
    joinBe32 (v.extractLsb' 24 8) (v.extractLsb' 16 8) (v.extractLsb' 8 8) (v.extractLsb' 0 8) = v := by
  apply BitVec.eq_of_toNat_eq
  rw [toNat_joinBe32]
  have := v.isLt
  simp only [BitVec.extractLsb'_toNat, Nat.shiftRight_eq_div_pow]
  omega

theorem toNat_shiftIn (v : Word) (h : Byte) : (shiftIn v h).toNat = (v.toNat * 256 + h.toNat) % 2 ^ 32 := by
  unfold shiftIn
  have := h.isLt
  have h2 : (h.setWidth 32).toNat = h.toNat := by simp; omega
  rw [BitVec.toNat_add, h2, BitVec.toNat_mul]
  simp [Nat.add_mod]

@[simp] theorem length_be32 (v : Word) : (be32 v).length = 4 := rfl

theorem length_addrBytesOf {c : Config} (h : c.addrBytes ≤ 4) (a : Word) : (addrBytesOf c a).length = c.addrBytes := by
  unfold addrBytesOf; rw [List.length_drop, length_be32]; omega

theorem addrBytesOf_three {c : Config} (h : c.addrBytes = 3) (a : Word) :
    addrBytesOf c a = [a.extractLsb' 16 8, a.extractLsb' 8 8, a.extractLsb' 0 8] := by
  unfold addrBytesOf; rw [h]; rfl

theorem addrBytesOf_four {c : Config} (h : c.addrBytes = 4) (a : Word) : addrBytesOf c a = be32 a := by
  unfold addrBytesOf; rw [h]; rfl

/-- An address that fits comes back from its bytes (R91). -/
theorem joinAddr_addrBytesOf {c : Config} (h : c.addrBytes = 3 ∨ c.addrBytes = 4) {a : Word}
    (ha : a.toNat < 2 ^ (8 * c.addrBytes)) : joinAddr (addrBytesOf c a) = a := by
  apply BitVec.eq_of_toNat_eq
  have := a.isLt
  rcases h with h | h
  · rw [h] at ha
    rw [addrBytesOf_three h]
    simp only [joinAddr, List.foldl, toNat_shiftIn, BitVec.extractLsb'_toNat, Nat.shiftRight_eq_div_pow]
    simp
    omega
  · rw [addrBytesOf_four h]
    simp only [be32, joinAddr, List.foldl, toNat_shiftIn, BitVec.extractLsb'_toNat, Nat.shiftRight_eq_div_pow]
    simp
    omega

/-- Four bytes shifted into an empty field are their assembly (R159). -/
theorem shiftIn_four (a b c d : Byte) : shiftIn (shiftIn (shiftIn (shiftIn 0 a) b) c) d = joinBe32 a b c d := by
  apply BitVec.eq_of_toNat_eq
  have ha := a.isLt; have hb := b.isLt; have hc := c.isLt; have hd := d.isLt
  rw [toNat_joinBe32]
  simp only [toNat_shiftIn]
  simp
  omega

@[simp] theorem length_frameHeader (op : Byte) (a n : Word) : (frameHeader op a n).length = 9 := rfl

/-- A frame header decodes to its command, whatever follows it (R81, R83). -/
theorem decodeFrame_frameHeader {op : Byte} (h : isOpcode op = true) (a n : Word) (rest : List Byte) :
    decodeFrame (frameHeader op a n ++ rest) = .instr (commandOf op a n) rest := by
  simp only [frameHeader, be32, List.cons_append, List.nil_append, decodeFrame, h, if_true, joinBe32_be32]

end Sys2Proof
end

