-- ==== Sys2Proof/Laws/Memory.lean ====
section
/-!
SUPPORT. Laws/Memory.lean: the laws of flash content: a byte read after a write, an erase, a program or a tear, and
that every operation keeps the canonical form and stays below `TOTAL_SIZE`.
-/
namespace Sys2Proof.Machine

/-! ## Reading -/

@[simp] theorem Memory.read_nil (a : Nat) : Memory.read [] a = Memory.blank := rfl

@[simp] theorem Memory.read_cons (k : Nat) (v : Byte) (m : Memory) (a : Nat) :
    Memory.read ((k, v) :: m) a = if k = a then v else Memory.read m a := rfl

theorem Memory.wfFrom_cons {lo k : Nat} {v : Byte} {m : Memory} :
    Memory.wfFrom lo ((k, v) :: m) = true ↔ lo ≤ k ∧ v ≠ Memory.blank ∧ Memory.wfFrom (k + 1) m = true := by
  simp [Memory.wfFrom, and_assoc]

theorem Memory.wfFrom_mono {lo lo' : Nat} (h : lo ≤ lo') :
    ∀ {m : Memory}, Memory.wfFrom lo' m = true → Memory.wfFrom lo m = true
  | [], _ => rfl
  | (k, v) :: m, hm => by
    rw [Memory.wfFrom_cons] at hm ⊢
    exact ⟨by omega, hm.2⟩

/-- Below the first listed address everything is blank. -/
theorem Memory.read_of_lt {lo a : Nat} (ha : a < lo) :
    ∀ {m : Memory}, Memory.wfFrom lo m = true → Memory.read m a = Memory.blank
  | [], _ => rfl
  | (k, v) :: m, hm => by
    rw [Memory.wfFrom_cons] at hm
    rw [Memory.read_cons, if_neg (by omega)]
    exact Memory.read_of_lt (by omega) hm.2.2

theorem Memory.read_entry_append (a : Nat) (v : Byte) (m : Memory) (b : Nat)
    (hm : a = b → Memory.read m b = Memory.blank) :
    Memory.read (Memory.entry a v ++ m) b = if a = b then v else Memory.read m b := by
  unfold Memory.entry
  split <;> split <;> simp_all

theorem Memory.wfFrom_entry_append {lo a : Nat} {v : Byte} {m : Memory} (h : lo ≤ a)
    (hm : Memory.wfFrom (a + 1) m = true) : Memory.wfFrom lo (Memory.entry a v ++ m) = true := by
  unfold Memory.entry
  split
  · exact Memory.wfFrom_mono (by omega) hm
  · exact Memory.wfFrom_cons.2 ⟨h, by assumption, hm⟩

/-! ## Writing -/

/-- A read after a write: the byte written there, every other byte as before. -/
theorem Memory.read_write (a : Nat) (v : Byte) (b : Nat) :
    ∀ {lo : Nat} {m : Memory}, Memory.wfFrom lo m = true →
      Memory.read (Memory.write m a v) b = if a = b then v else Memory.read m b
  | lo, [], _ => by simpa [Memory.write] using Memory.read_entry_append a v [] b (fun _ => rfl)
  | lo, (k, w) :: m, hm => by
    have hk := Memory.wfFrom_cons.1 hm
    unfold Memory.write
    split
    · exact Memory.read_entry_append a v _ b (fun h => Memory.read_of_lt (lo := k) (by omega)
        (Memory.wfFrom_cons.2 ⟨le_refl k, hk.2⟩))
    · split
      · next _ he =>
        subst he
        rw [Memory.read_entry_append a v m b (fun h => by
          subst h; exact Memory.read_of_lt (Nat.lt_succ_self a) hk.2.2)]
        by_cases hb : a = b <;> simp [hb]
      · next _ he =>
        rw [Memory.read_cons, Memory.read_write a v b hk.2.2, Memory.read_cons]
        by_cases h1 : k = b
        · rw [if_pos h1, if_pos h1, if_neg (by omega)]
        · rw [if_neg h1, if_neg h1]

theorem Memory.wfFrom_write {a : Nat} (v : Byte) :
    ∀ {lo : Nat} {m : Memory}, lo ≤ a → Memory.wfFrom lo m = true →
      Memory.wfFrom lo (Memory.write m a v) = true
  | lo, [], h, _ => by simpa [Memory.write] using Memory.wfFrom_entry_append (v := v) h (m := []) rfl
  | lo, (k, w) :: m, h, hm => by
    have hk := Memory.wfFrom_cons.1 hm
    unfold Memory.write
    split
    · exact Memory.wfFrom_entry_append h (Memory.wfFrom_cons.2 ⟨by omega, hk.2⟩)
    · split
      · next _ he => subst he; exact Memory.wfFrom_entry_append h hk.2.2
      · exact Memory.wfFrom_cons.2 ⟨hk.1, hk.2.1, Memory.wfFrom_write v (by omega) hk.2.2⟩

/-- A write keeps the canonical form. -/
theorem Memory.wf_write {m : Memory} (a : Nat) (v : Byte) (hm : m.wf = true) : (Memory.write m a v).wf = true :=
  Memory.wfFrom_write v (Nat.zero_le a) hm

theorem Memory.below_iff {m : Memory} {t : Nat} : m.below t = true ↔ ∀ c ∈ m, c.1 < t := by
  simp [Memory.below]

theorem Memory.mem_write {a : Nat} {v : Byte} {c : Host.Cell} :
    ∀ {m : Memory}, c ∈ Memory.write m a v → c.1 = a ∨ c ∈ m
  | [], h => by
    unfold Memory.write Memory.entry at h
    split at h <;> simp_all
  | (k, w) :: m, h => by
    unfold Memory.write Memory.entry at h
    split at h
    · split at h
      · simp_all
      · rcases List.mem_cons.1 h with h | h
        · exact .inl (by simp [h])
        · exact .inr h
    · split at h
      · split at h
        · exact .inr (List.mem_cons_of_mem _ h)
        · rcases List.mem_cons.1 h with h | h
          · exact .inl (by simp [h])
          · exact .inr (List.mem_cons_of_mem _ h)
      · rcases List.mem_cons.1 h with h | h
        · exact .inr (by simp [h])
        · rcases Memory.mem_write h with h | h
          · exact .inl h
          · exact .inr (List.mem_cons_of_mem _ h)

theorem Memory.below_write {m : Memory} {a t : Nat} (v : Byte) (ha : a < t) (hm : m.below t = true) :
    (Memory.write m a v).below t = true :=
  Memory.below_iff.2 fun c hc => (Memory.mem_write hc).elim (fun h => h ▸ ha) (Memory.below_iff.1 hm c)

/-! ## Erasing -/

/-- An erased byte reads 0xFF, every other byte as before (R58). -/
theorem Memory.read_erase (a n b : Nat) :
    ∀ (m : Memory), Memory.read (Memory.erase m a n) b = if a ≤ b ∧ b < a + n then Memory.blank else Memory.read m b
  | [] => by simp [Memory.erase]
  | (k, v) :: m => by
    have ih := Memory.read_erase a n b m
    unfold Memory.erase at ih ⊢
    rw [List.filter_cons]
    split <;> rename_i h <;> simp at h
    · rw [Memory.read_cons, ih, Memory.read_cons]
      by_cases hk : k = b
      · rw [if_pos hk, if_pos hk, if_neg (by omega)]
      · rw [if_neg hk, if_neg hk]
    · rw [ih, Memory.read_cons]
      by_cases hk : k = b
      · rw [if_pos hk, if_pos (by omega), if_pos (by omega)]
      · rw [if_neg hk]

theorem Memory.wfFrom_erase (a n : Nat) :
    ∀ {lo : Nat} {m : Memory}, Memory.wfFrom lo m = true → Memory.wfFrom lo (Memory.erase m a n) = true
  | lo, [], _ => rfl
  | lo, (k, v) :: m, hm => by
    have hk := Memory.wfFrom_cons.1 hm
    have ih := Memory.wfFrom_erase a n hk.2.2
    unfold Memory.erase at ih ⊢
    rw [List.filter_cons]
    split
    · exact Memory.wfFrom_cons.2 ⟨hk.1, hk.2.1, ih⟩
    · exact Memory.wfFrom_mono (by omega) ih

/-- An erase keeps the canonical form. -/
theorem Memory.wf_erase {m : Memory} (a n : Nat) (hm : m.wf = true) : (Memory.erase m a n).wf = true :=
  Memory.wfFrom_erase a n hm

theorem Memory.below_erase {m : Memory} {t : Nat} (a n : Nat) (hm : m.below t = true) :
    (Memory.erase m a n).below t = true :=
  Memory.below_iff.2 fun c hc => Memory.below_iff.1 hm c (List.mem_of_mem_filter hc)

/-! ## Programming -/

/-- What programming makes of one byte: the AND of the old byte and of every data byte whose target it is (R57). -/
def programmedByte (c : Config) (a i : Nat) (d : List Byte) (x : Nat) (old : Byte) : Byte :=
  match d with
  | [] => old
  | v :: ds => programmedByte c a (i + 1) ds x (if progTarget c a i = x then old &&& v else old)

theorem Memory.wf_programFrom (c : Config) (a : Nat) :
    ∀ (d : List Byte) (i : Nat) {m : Memory}, m.wf = true → (Memory.programFrom c a i d m).wf = true
  | [], _, _, hm => hm
  | _ :: ds, i, _, hm => Memory.wf_programFrom c a ds (i + 1) (Memory.wf_write _ _ hm)

/-- A program keeps the canonical form. -/
theorem Memory.wf_program (c : Config) {m : Memory} (a : Nat) (d : List Byte) (hm : m.wf = true) :
    (Memory.program c m a d).wf = true := Memory.wf_programFrom c a d 0 hm

/-- A read after a program. -/
theorem Memory.read_programFrom (c : Config) (a x : Nat) :
    ∀ (d : List Byte) (i : Nat) {m : Memory}, m.wf = true →
      Memory.read (Memory.programFrom c a i d m) x = programmedByte c a i d x (Memory.read m x)
  | [], _, _, _ => rfl
  | v :: ds, i, m, hm => by
    unfold Memory.programFrom programmedByte
    rw [Memory.read_programFrom c a x ds (i + 1) (Memory.wf_write _ _ hm), Memory.read_write _ _ _ hm]
    split
    · next h => subst h; rfl
    · rfl

theorem Memory.read_program (c : Config) (a x : Nat) (d : List Byte) {m : Memory} (hm : m.wf = true) :
    Memory.read (Memory.program c m a d) x = programmedByte c a 0 d x (Memory.read m x) :=
  Memory.read_programFrom c a x d 0 hm

theorem progPage_pos (c : Config) : 0 < progPage c := by
  unfold progPage; split <;> omega

/-- A target lies in the page of the transaction's address. -/
theorem progTarget_mem_page (c : Config) (a i : Nat) :
    a / progPage c * progPage c ≤ progTarget c a i ∧
      progTarget c a i < a / progPage c * progPage c + progPage c := by
  have := Nat.mod_lt (a % progPage c + i) (progPage_pos c)
  unfold progTarget; omega

/-- A byte that is no target of the data keeps its value. -/
theorem programmedByte_of_ne {c : Config} {a x : Nat} {v : Byte} (h : ∀ i, progTarget c a i ≠ x) :
    ∀ (d : List Byte) (j : Nat), programmedByte c a j d x v = v
  | [], _ => rfl
  | _ :: ds, j => by unfold programmedByte; rw [if_neg (h j)]; exact programmedByte_of_ne h ds (j + 1)

/-- A page that begins below a multiple of the page size ends below it. -/
theorem page_end_le {p a t : Nat} (hp : 0 < p) (ht : t % p = 0) (ha : a < t) : a / p * p + p ≤ t := by
  obtain ⟨k, rfl⟩ := Nat.dvd_of_mod_eq_zero ht
  have h : a / p < k := (Nat.div_lt_iff_lt_mul hp).2 (by rwa [Nat.mul_comm] at ha)
  calc a / p * p + p = (a / p + 1) * p := by ring
    _ ≤ k * p := Nat.mul_le_mul_right p h
    _ = p * k := Nat.mul_comm k p

theorem Memory.below_programFrom (c : Config) {a t : Nat} (ht : t % progPage c = 0) (ha : a < t) :
    ∀ (d : List Byte) (i : Nat) {m : Memory}, m.below t = true → (Memory.programFrom c a i d m).below t = true
  | [], _, _, hm => hm
  | _ :: ds, i, _, hm =>
    Memory.below_programFrom c ht ha ds (i + 1) (Memory.below_write _
      (lt_of_lt_of_le (progTarget_mem_page c a i).2 (page_end_le (progPage_pos c) ht ha)) hm)

/-- Data byte `i` of a transaction that crosses no page boundary goes to `a + i` (R57). -/
theorem progTarget_of_le (c : Config) {a i : Nat} (h : a % progPage c + i < progPage c) :
    progTarget c a i = a + i := by
  unfold progTarget
  rw [Nat.mod_eq_of_lt h]
  have := Nat.div_add_mod' a (progPage c)
  omega

/-! ## Tearing -/

/-- What a tear makes of one byte: a free value inside the range, the old byte outside (R223). -/
theorem Memory.read_tear (d a x : Nat) {m : Memory} (hm : m.wf = true) :
    ∀ (n : Nat), (Memory.tear m d a n).wf = true ∧
      Memory.read (Memory.tear m d a n) x =
        if a ≤ x ∧ x < a + n then Config.tornByte d x else Memory.read m x
  | 0 => ⟨hm, by rw [if_neg (by omega)]; rfl⟩
  | n + 1 => by
    have ih := Memory.read_tear d a x hm n
    refine ⟨Memory.wf_write _ _ ih.1, ?_⟩
    unfold Memory.tear
    rw [Memory.read_write _ _ _ ih.1, ih.2]
    by_cases h : a + n = x
    · rw [if_pos h, if_pos (by omega), h]
    · rw [if_neg h]
      by_cases h' : a ≤ x ∧ x < a + n
      · rw [if_pos h', if_pos (by omega)]
      · rw [if_neg h', if_neg (by omega)]

theorem Memory.below_tear {m : Memory} {t : Nat} (d a : Nat) (hm : m.below t = true) :
    ∀ (n : Nat), a + n ≤ t → (Memory.tear m d a n).below t = true
  | 0, _ => hm
  | n + 1, h => Memory.below_write _ (by omega) (Memory.below_tear d a hm n (by omega))

/-! ## Slices and equality -/

@[simp] theorem Memory.length_slice (m : Memory) (a n : Nat) : (Memory.slice m a n).length = n := by
  simp [Memory.slice]

theorem Memory.getElem?_slice (m : Memory) (a n i : Nat) :
    (Memory.slice m a n)[i]? = if i < n then some (Memory.read m (a + i)) else none := by
  unfold Memory.slice
  by_cases h : i < n <;> simp [h]

/-- Two canonical memories that read the same are equal. -/
theorem Memory.ext_read : ∀ {lo : Nat} {m m' : Memory}, Memory.wfFrom lo m = true → Memory.wfFrom lo m' = true →
    (∀ a, Memory.read m a = Memory.read m' a) → m = m'
  | _, [], [], _, _, _ => rfl
  | _, [], (k, v) :: m', _, hm', h => by
    have := h k
    simp only [Memory.read_nil, Memory.read_cons, if_true] at this
    exact absurd this.symm (Memory.wfFrom_cons.1 hm').2.1
  | _, (k, v) :: m, [], hm, _, h => by
    have := h k
    simp only [Memory.read_nil, Memory.read_cons, if_true] at this
    exact absurd this (Memory.wfFrom_cons.1 hm).2.1
  | _, (k, v) :: m, (k', v') :: m', hm, hm', h => by
    have h1 := Memory.wfFrom_cons.1 hm
    have h2 := Memory.wfFrom_cons.1 hm'
    have hk : k = k' := by
      rcases Nat.lt_trichotomy k k' with hlt | he | hlt
      · have := h k
        rw [Memory.read_cons, if_pos rfl, Memory.read_cons, if_neg (by omega),
          Memory.read_of_lt (lo := k' + 1) (by omega) h2.2.2] at this
        exact absurd this h1.2.1
      · exact he
      · have := h k'
        rw [Memory.read_cons, if_neg (by omega), Memory.read_of_lt (lo := k + 1) (by omega) h1.2.2,
          Memory.read_cons, if_pos rfl] at this
        exact absurd this.symm h2.2.1
    subst hk
    have hv : v = v' := by
      have := h k
      simpa using this
    subst hv
    congr 1
    refine Memory.ext_read h1.2.2 h2.2.2 fun a => ?_
    by_cases ha : k = a
    · subst ha
      rw [Memory.read_of_lt (Nat.lt_succ_self k) h1.2.2, Memory.read_of_lt (Nat.lt_succ_self k) h2.2.2]
    · have := h a
      rwa [Memory.read_cons, if_neg ha, Memory.read_cons, if_neg ha] at this

/-- The reset content is canonical. -/
theorem reset_mem_wf : State.reset.flash.mem.wf = true := rfl

end Sys2Proof.Machine
end

