-- ==== Sys2Proof/Laws/State.lean ====
section
/-!
SUPPORT. Laws/State.lean: what each update of State, Flash and HostSide does to each field, one lemma per field per
update, so that no later proof unfolds a record update.
-/
namespace Sys2Proof.Machine


section State
variable (s : State)

@[simp] theorem State.emit_cfg (es : List Event) : (s.emit es).cfg = s.cfg := rfl
@[simp] theorem State.emit_drv (es : List Event) : (s.emit es).drv = s.drv := rfl
@[simp] theorem State.emit_seq (es : List Event) : (s.emit es).seq = s.seq := rfl
@[simp] theorem State.emit_micro (es : List Event) : (s.emit es).micro = s.micro := rfl
@[simp] theorem State.emit_op (es : List Event) : (s.emit es).op = s.op := rfl
@[simp] theorem State.emit_reqAddr (es : List Event) : (s.emit es).reqAddr = s.reqAddr := rfl
@[simp] theorem State.emit_reqLen (es : List Event) : (s.emit es).reqLen = s.reqLen := rfl
@[simp] theorem State.emit_hdrIdx (es : List Event) : (s.emit es).hdrIdx = s.hdrIdx := rfl
@[simp] theorem State.emit_curAddr (es : List Event) : (s.emit es).curAddr = s.curAddr := rfl
@[simp] theorem State.emit_rem (es : List Event) : (s.emit es).rem = s.rem := rfl
@[simp] theorem State.emit_chunkLen (es : List Event) : (s.emit es).chunkLen = s.chunkLen := rfl
@[simp] theorem State.emit_bufIdx (es : List Event) : (s.emit es).bufIdx = s.bufIdx := rfl
@[simp] theorem State.emit_idMfr (es : List Event) : (s.emit es).idMfr = s.idMfr := rfl
@[simp] theorem State.emit_idDev (es : List Event) : (s.emit es).idDev = s.idDev := rfl
@[simp] theorem State.emit_status (es : List Event) : (s.emit es).status = s.status := rfl
@[simp] theorem State.emit_buf (es : List Event) : (s.emit es).buf = s.buf := rfl
@[simp] theorem State.emit_wrOff (es : List Event) : (s.emit es).wrOff = s.wrOff := rfl
@[simp] theorem State.emit_wrPageMode (es : List Event) : (s.emit es).wrPageMode = s.wrPageMode := rfl
@[simp] theorem State.emit_erAddr (es : List Event) : (s.emit es).erAddr = s.erAddr := rfl
@[simp] theorem State.emit_erCount (es : List Event) : (s.emit es).erCount = s.erCount := rfl
@[simp] theorem State.emit_erIdx (es : List Event) : (s.emit es).erIdx = s.erIdx := rfl
@[simp] theorem State.emit_cs (es : List Event) : (s.emit es).cs = s.cs := rfl
@[simp] theorem State.emit_ledBusy (es : List Event) : (s.emit es).ledBusy = s.ledBusy := rfl
@[simp] theorem State.emit_faultCause (es : List Event) : (s.emit es).faultCause = s.faultCause := rfl
@[simp] theorem State.emit_rxQ (es : List Event) : (s.emit es).rxQ = s.rxQ := rfl
@[simp] theorem State.emit_txFinished (es : List Event) : (s.emit es).txFinished = s.txFinished := rfl
@[simp] theorem State.emit_trace (es : List Event) : (s.emit es).trace = s.trace ++ es := rfl
@[simp] theorem State.emit_flash (es : List Event) : (s.emit es).flash = s.flash := rfl
@[simp] theorem State.emit_host (es : List Event) : (s.emit es).host = s.host := rfl
@[simp] theorem State.emit_turns (es : List Event) : (s.emit es).turns = s.turns := rfl
@[simp] theorem State.emit_noise (es : List Event) : (s.emit es).noise = s.noise := rfl

@[simp] theorem State.led_cfg (v : Bool) : (s.led v).cfg = s.cfg := rfl
@[simp] theorem State.led_drv (v : Bool) : (s.led v).drv = s.drv := rfl
@[simp] theorem State.led_seq (v : Bool) : (s.led v).seq = s.seq := rfl
@[simp] theorem State.led_micro (v : Bool) : (s.led v).micro = s.micro := rfl
@[simp] theorem State.led_op (v : Bool) : (s.led v).op = s.op := rfl
@[simp] theorem State.led_reqAddr (v : Bool) : (s.led v).reqAddr = s.reqAddr := rfl
@[simp] theorem State.led_reqLen (v : Bool) : (s.led v).reqLen = s.reqLen := rfl
@[simp] theorem State.led_hdrIdx (v : Bool) : (s.led v).hdrIdx = s.hdrIdx := rfl
@[simp] theorem State.led_curAddr (v : Bool) : (s.led v).curAddr = s.curAddr := rfl
@[simp] theorem State.led_rem (v : Bool) : (s.led v).rem = s.rem := rfl
@[simp] theorem State.led_chunkLen (v : Bool) : (s.led v).chunkLen = s.chunkLen := rfl
@[simp] theorem State.led_bufIdx (v : Bool) : (s.led v).bufIdx = s.bufIdx := rfl
@[simp] theorem State.led_idMfr (v : Bool) : (s.led v).idMfr = s.idMfr := rfl
@[simp] theorem State.led_idDev (v : Bool) : (s.led v).idDev = s.idDev := rfl
@[simp] theorem State.led_status (v : Bool) : (s.led v).status = s.status := rfl
@[simp] theorem State.led_buf (v : Bool) : (s.led v).buf = s.buf := rfl
@[simp] theorem State.led_wrOff (v : Bool) : (s.led v).wrOff = s.wrOff := rfl
@[simp] theorem State.led_wrPageMode (v : Bool) : (s.led v).wrPageMode = s.wrPageMode := rfl
@[simp] theorem State.led_erAddr (v : Bool) : (s.led v).erAddr = s.erAddr := rfl
@[simp] theorem State.led_erCount (v : Bool) : (s.led v).erCount = s.erCount := rfl
@[simp] theorem State.led_erIdx (v : Bool) : (s.led v).erIdx = s.erIdx := rfl
@[simp] theorem State.led_cs (v : Bool) : (s.led v).cs = s.cs := rfl
@[simp] theorem State.led_ledBusy (v : Bool) : (s.led v).ledBusy = v := rfl
@[simp] theorem State.led_faultCause (v : Bool) : (s.led v).faultCause = s.faultCause := rfl
@[simp] theorem State.led_rxQ (v : Bool) : (s.led v).rxQ = s.rxQ := rfl
@[simp] theorem State.led_txFinished (v : Bool) : (s.led v).txFinished = s.txFinished := rfl
@[simp] theorem State.led_trace (v : Bool) : (s.led v).trace = if s.ledBusy = v then s.trace else s.trace ++ [.led v] := rfl
@[simp] theorem State.led_flash (v : Bool) : (s.led v).flash = s.flash := rfl
@[simp] theorem State.led_host (v : Bool) : (s.led v).host = s.host := rfl
@[simp] theorem State.led_turns (v : Bool) : (s.led v).turns = s.turns := rfl
@[simp] theorem State.led_noise (v : Bool) : (s.led v).noise = s.noise := rfl

@[simp] theorem State.serialWrite_cfg (b : Byte) : (s.serialWrite b).cfg = s.cfg := rfl
@[simp] theorem State.serialWrite_drv (b : Byte) : (s.serialWrite b).drv = s.drv := rfl
@[simp] theorem State.serialWrite_seq (b : Byte) : (s.serialWrite b).seq = s.seq := rfl
@[simp] theorem State.serialWrite_micro (b : Byte) : (s.serialWrite b).micro = s.micro := rfl
@[simp] theorem State.serialWrite_op (b : Byte) : (s.serialWrite b).op = s.op := rfl
@[simp] theorem State.serialWrite_reqAddr (b : Byte) : (s.serialWrite b).reqAddr = s.reqAddr := rfl
@[simp] theorem State.serialWrite_reqLen (b : Byte) : (s.serialWrite b).reqLen = s.reqLen := rfl
@[simp] theorem State.serialWrite_hdrIdx (b : Byte) : (s.serialWrite b).hdrIdx = s.hdrIdx := rfl
@[simp] theorem State.serialWrite_curAddr (b : Byte) : (s.serialWrite b).curAddr = s.curAddr := rfl
@[simp] theorem State.serialWrite_rem (b : Byte) : (s.serialWrite b).rem = s.rem := rfl
@[simp] theorem State.serialWrite_chunkLen (b : Byte) : (s.serialWrite b).chunkLen = s.chunkLen := rfl
@[simp] theorem State.serialWrite_bufIdx (b : Byte) : (s.serialWrite b).bufIdx = s.bufIdx := rfl
@[simp] theorem State.serialWrite_idMfr (b : Byte) : (s.serialWrite b).idMfr = s.idMfr := rfl
@[simp] theorem State.serialWrite_idDev (b : Byte) : (s.serialWrite b).idDev = s.idDev := rfl
@[simp] theorem State.serialWrite_status (b : Byte) : (s.serialWrite b).status = s.status := rfl
@[simp] theorem State.serialWrite_buf (b : Byte) : (s.serialWrite b).buf = s.buf := rfl
@[simp] theorem State.serialWrite_wrOff (b : Byte) : (s.serialWrite b).wrOff = s.wrOff := rfl
@[simp] theorem State.serialWrite_wrPageMode (b : Byte) : (s.serialWrite b).wrPageMode = s.wrPageMode := rfl
@[simp] theorem State.serialWrite_erAddr (b : Byte) : (s.serialWrite b).erAddr = s.erAddr := rfl
@[simp] theorem State.serialWrite_erCount (b : Byte) : (s.serialWrite b).erCount = s.erCount := rfl
@[simp] theorem State.serialWrite_erIdx (b : Byte) : (s.serialWrite b).erIdx = s.erIdx := rfl
@[simp] theorem State.serialWrite_cs (b : Byte) : (s.serialWrite b).cs = s.cs := rfl
@[simp] theorem State.serialWrite_ledBusy (b : Byte) : (s.serialWrite b).ledBusy = s.ledBusy := rfl
@[simp] theorem State.serialWrite_faultCause (b : Byte) : (s.serialWrite b).faultCause = s.faultCause := rfl
@[simp] theorem State.serialWrite_rxQ (b : Byte) : (s.serialWrite b).rxQ = s.rxQ := rfl
@[simp] theorem State.serialWrite_txFinished (b : Byte) : (s.serialWrite b).txFinished = true := rfl
@[simp] theorem State.serialWrite_trace (b : Byte) : (s.serialWrite b).trace = s.trace ++ [.tx b] := rfl
@[simp] theorem State.serialWrite_flash (b : Byte) : (s.serialWrite b).flash = s.flash := rfl
@[simp] theorem State.serialWrite_host (b : Byte) : (s.serialWrite b).host = s.host.receive b := rfl
@[simp] theorem State.serialWrite_turns (b : Byte) : (s.serialWrite b).turns = s.turns := rfl
@[simp] theorem State.serialWrite_noise (b : Byte) : (s.serialWrite b).noise = s.noise := rfl

@[simp] theorem State.serialTake_cfg (b : Byte) : (s.serialTake b).cfg = s.cfg := rfl
@[simp] theorem State.serialTake_drv (b : Byte) : (s.serialTake b).drv = s.drv := rfl
@[simp] theorem State.serialTake_seq (b : Byte) : (s.serialTake b).seq = s.seq := rfl
@[simp] theorem State.serialTake_micro (b : Byte) : (s.serialTake b).micro = s.micro := rfl
@[simp] theorem State.serialTake_op (b : Byte) : (s.serialTake b).op = s.op := rfl
@[simp] theorem State.serialTake_reqAddr (b : Byte) : (s.serialTake b).reqAddr = s.reqAddr := rfl
@[simp] theorem State.serialTake_reqLen (b : Byte) : (s.serialTake b).reqLen = s.reqLen := rfl
@[simp] theorem State.serialTake_hdrIdx (b : Byte) : (s.serialTake b).hdrIdx = s.hdrIdx := rfl
@[simp] theorem State.serialTake_curAddr (b : Byte) : (s.serialTake b).curAddr = s.curAddr := rfl
@[simp] theorem State.serialTake_rem (b : Byte) : (s.serialTake b).rem = s.rem := rfl
@[simp] theorem State.serialTake_chunkLen (b : Byte) : (s.serialTake b).chunkLen = s.chunkLen := rfl
@[simp] theorem State.serialTake_bufIdx (b : Byte) : (s.serialTake b).bufIdx = s.bufIdx := rfl
@[simp] theorem State.serialTake_idMfr (b : Byte) : (s.serialTake b).idMfr = s.idMfr := rfl
@[simp] theorem State.serialTake_idDev (b : Byte) : (s.serialTake b).idDev = s.idDev := rfl
@[simp] theorem State.serialTake_status (b : Byte) : (s.serialTake b).status = s.status := rfl
@[simp] theorem State.serialTake_buf (b : Byte) : (s.serialTake b).buf = s.buf := rfl
@[simp] theorem State.serialTake_wrOff (b : Byte) : (s.serialTake b).wrOff = s.wrOff := rfl
@[simp] theorem State.serialTake_wrPageMode (b : Byte) : (s.serialTake b).wrPageMode = s.wrPageMode := rfl
@[simp] theorem State.serialTake_erAddr (b : Byte) : (s.serialTake b).erAddr = s.erAddr := rfl
@[simp] theorem State.serialTake_erCount (b : Byte) : (s.serialTake b).erCount = s.erCount := rfl
@[simp] theorem State.serialTake_erIdx (b : Byte) : (s.serialTake b).erIdx = s.erIdx := rfl
@[simp] theorem State.serialTake_cs (b : Byte) : (s.serialTake b).cs = s.cs := rfl
@[simp] theorem State.serialTake_ledBusy (b : Byte) : (s.serialTake b).ledBusy = s.ledBusy := rfl
@[simp] theorem State.serialTake_faultCause (b : Byte) : (s.serialTake b).faultCause = s.faultCause := rfl
@[simp] theorem State.serialTake_rxQ (b : Byte) : (s.serialTake b).rxQ = s.rxQ.tail := rfl
@[simp] theorem State.serialTake_txFinished (b : Byte) : (s.serialTake b).txFinished = s.txFinished := rfl
@[simp] theorem State.serialTake_trace (b : Byte) : (s.serialTake b).trace = s.trace ++ [.rx b] := rfl
@[simp] theorem State.serialTake_flash (b : Byte) : (s.serialTake b).flash = s.flash := rfl
@[simp] theorem State.serialTake_host (b : Byte) : (s.serialTake b).host = s.host := rfl
@[simp] theorem State.serialTake_turns (b : Byte) : (s.serialTake b).turns = s.turns := rfl
@[simp] theorem State.serialTake_noise (b : Byte) : (s.serialTake b).noise = s.noise := rfl

@[simp] theorem State.spi_cfg (xs : List Event) : (s.spi xs).cfg = s.cfg := rfl
@[simp] theorem State.spi_drv (xs : List Event) : (s.spi xs).drv = s.drv := rfl
@[simp] theorem State.spi_seq (xs : List Event) : (s.spi xs).seq = s.seq := rfl
@[simp] theorem State.spi_micro (xs : List Event) : (s.spi xs).micro = s.micro := rfl
@[simp] theorem State.spi_op (xs : List Event) : (s.spi xs).op = s.op := rfl
@[simp] theorem State.spi_reqAddr (xs : List Event) : (s.spi xs).reqAddr = s.reqAddr := rfl
@[simp] theorem State.spi_reqLen (xs : List Event) : (s.spi xs).reqLen = s.reqLen := rfl
@[simp] theorem State.spi_hdrIdx (xs : List Event) : (s.spi xs).hdrIdx = s.hdrIdx := rfl
@[simp] theorem State.spi_curAddr (xs : List Event) : (s.spi xs).curAddr = s.curAddr := rfl
@[simp] theorem State.spi_rem (xs : List Event) : (s.spi xs).rem = s.rem := rfl
@[simp] theorem State.spi_chunkLen (xs : List Event) : (s.spi xs).chunkLen = s.chunkLen := rfl
@[simp] theorem State.spi_bufIdx (xs : List Event) : (s.spi xs).bufIdx = s.bufIdx := rfl
@[simp] theorem State.spi_idMfr (xs : List Event) : (s.spi xs).idMfr = s.idMfr := rfl
@[simp] theorem State.spi_idDev (xs : List Event) : (s.spi xs).idDev = s.idDev := rfl
@[simp] theorem State.spi_status (xs : List Event) : (s.spi xs).status = s.status := rfl
@[simp] theorem State.spi_buf (xs : List Event) : (s.spi xs).buf = s.buf := rfl
@[simp] theorem State.spi_wrOff (xs : List Event) : (s.spi xs).wrOff = s.wrOff := rfl
@[simp] theorem State.spi_wrPageMode (xs : List Event) : (s.spi xs).wrPageMode = s.wrPageMode := rfl
@[simp] theorem State.spi_erAddr (xs : List Event) : (s.spi xs).erAddr = s.erAddr := rfl
@[simp] theorem State.spi_erCount (xs : List Event) : (s.spi xs).erCount = s.erCount := rfl
@[simp] theorem State.spi_erIdx (xs : List Event) : (s.spi xs).erIdx = s.erIdx := rfl
@[simp] theorem State.spi_cs (xs : List Event) : (s.spi xs).cs = false := rfl
@[simp] theorem State.spi_ledBusy (xs : List Event) : (s.spi xs).ledBusy = s.ledBusy := rfl
@[simp] theorem State.spi_faultCause (xs : List Event) : (s.spi xs).faultCause = s.faultCause := rfl
@[simp] theorem State.spi_rxQ (xs : List Event) : (s.spi xs).rxQ = s.rxQ := rfl
@[simp] theorem State.spi_txFinished (xs : List Event) : (s.spi xs).txFinished = s.txFinished := rfl
@[simp] theorem State.spi_trace (xs : List Event) : (s.spi xs).trace = s.trace ++ (.cs true :: xs ++ [.cs false]) := rfl
@[simp] theorem State.spi_flash (xs : List Event) : (s.spi xs).flash = s.flash := rfl
@[simp] theorem State.spi_host (xs : List Event) : (s.spi xs).host = s.host := rfl
@[simp] theorem State.spi_turns (xs : List Event) : (s.spi xs).turns = s.turns := rfl
@[simp] theorem State.spi_noise (xs : List Event) : (s.spi xs).noise = s.noise := rfl

@[simp] theorem State.setFlash_cfg (f : Flash) : (s.setFlash f).cfg = s.cfg := rfl
@[simp] theorem State.setFlash_drv (f : Flash) : (s.setFlash f).drv = s.drv := rfl
@[simp] theorem State.setFlash_seq (f : Flash) : (s.setFlash f).seq = s.seq := rfl
@[simp] theorem State.setFlash_micro (f : Flash) : (s.setFlash f).micro = s.micro := rfl
@[simp] theorem State.setFlash_op (f : Flash) : (s.setFlash f).op = s.op := rfl
@[simp] theorem State.setFlash_reqAddr (f : Flash) : (s.setFlash f).reqAddr = s.reqAddr := rfl
@[simp] theorem State.setFlash_reqLen (f : Flash) : (s.setFlash f).reqLen = s.reqLen := rfl
@[simp] theorem State.setFlash_hdrIdx (f : Flash) : (s.setFlash f).hdrIdx = s.hdrIdx := rfl
@[simp] theorem State.setFlash_curAddr (f : Flash) : (s.setFlash f).curAddr = s.curAddr := rfl
@[simp] theorem State.setFlash_rem (f : Flash) : (s.setFlash f).rem = s.rem := rfl
@[simp] theorem State.setFlash_chunkLen (f : Flash) : (s.setFlash f).chunkLen = s.chunkLen := rfl
@[simp] theorem State.setFlash_bufIdx (f : Flash) : (s.setFlash f).bufIdx = s.bufIdx := rfl
@[simp] theorem State.setFlash_idMfr (f : Flash) : (s.setFlash f).idMfr = s.idMfr := rfl
@[simp] theorem State.setFlash_idDev (f : Flash) : (s.setFlash f).idDev = s.idDev := rfl
@[simp] theorem State.setFlash_status (f : Flash) : (s.setFlash f).status = s.status := rfl
@[simp] theorem State.setFlash_buf (f : Flash) : (s.setFlash f).buf = s.buf := rfl
@[simp] theorem State.setFlash_wrOff (f : Flash) : (s.setFlash f).wrOff = s.wrOff := rfl
@[simp] theorem State.setFlash_wrPageMode (f : Flash) : (s.setFlash f).wrPageMode = s.wrPageMode := rfl
@[simp] theorem State.setFlash_erAddr (f : Flash) : (s.setFlash f).erAddr = s.erAddr := rfl
@[simp] theorem State.setFlash_erCount (f : Flash) : (s.setFlash f).erCount = s.erCount := rfl
@[simp] theorem State.setFlash_erIdx (f : Flash) : (s.setFlash f).erIdx = s.erIdx := rfl
@[simp] theorem State.setFlash_cs (f : Flash) : (s.setFlash f).cs = s.cs := rfl
@[simp] theorem State.setFlash_ledBusy (f : Flash) : (s.setFlash f).ledBusy = s.ledBusy := rfl
@[simp] theorem State.setFlash_faultCause (f : Flash) : (s.setFlash f).faultCause = s.faultCause := rfl
@[simp] theorem State.setFlash_rxQ (f : Flash) : (s.setFlash f).rxQ = s.rxQ := rfl
@[simp] theorem State.setFlash_txFinished (f : Flash) : (s.setFlash f).txFinished = s.txFinished := rfl
@[simp] theorem State.setFlash_trace (f : Flash) : (s.setFlash f).trace = s.trace := rfl
@[simp] theorem State.setFlash_flash (f : Flash) : (s.setFlash f).flash = f := rfl
@[simp] theorem State.setFlash_host (f : Flash) : (s.setFlash f).host = s.host := rfl
@[simp] theorem State.setFlash_turns (f : Flash) : (s.setFlash f).turns = s.turns := rfl
@[simp] theorem State.setFlash_noise (f : Flash) : (s.setFlash f).noise = s.noise := rfl

@[simp] theorem State.setHost_cfg (h : HostSide) : (s.setHost h).cfg = s.cfg := rfl
@[simp] theorem State.setHost_drv (h : HostSide) : (s.setHost h).drv = s.drv := rfl
@[simp] theorem State.setHost_seq (h : HostSide) : (s.setHost h).seq = s.seq := rfl
@[simp] theorem State.setHost_micro (h : HostSide) : (s.setHost h).micro = s.micro := rfl
@[simp] theorem State.setHost_op (h : HostSide) : (s.setHost h).op = s.op := rfl
@[simp] theorem State.setHost_reqAddr (h : HostSide) : (s.setHost h).reqAddr = s.reqAddr := rfl
@[simp] theorem State.setHost_reqLen (h : HostSide) : (s.setHost h).reqLen = s.reqLen := rfl
@[simp] theorem State.setHost_hdrIdx (h : HostSide) : (s.setHost h).hdrIdx = s.hdrIdx := rfl
@[simp] theorem State.setHost_curAddr (h : HostSide) : (s.setHost h).curAddr = s.curAddr := rfl
@[simp] theorem State.setHost_rem (h : HostSide) : (s.setHost h).rem = s.rem := rfl
@[simp] theorem State.setHost_chunkLen (h : HostSide) : (s.setHost h).chunkLen = s.chunkLen := rfl
@[simp] theorem State.setHost_bufIdx (h : HostSide) : (s.setHost h).bufIdx = s.bufIdx := rfl
@[simp] theorem State.setHost_idMfr (h : HostSide) : (s.setHost h).idMfr = s.idMfr := rfl
@[simp] theorem State.setHost_idDev (h : HostSide) : (s.setHost h).idDev = s.idDev := rfl
@[simp] theorem State.setHost_status (h : HostSide) : (s.setHost h).status = s.status := rfl
@[simp] theorem State.setHost_buf (h : HostSide) : (s.setHost h).buf = s.buf := rfl
@[simp] theorem State.setHost_wrOff (h : HostSide) : (s.setHost h).wrOff = s.wrOff := rfl
@[simp] theorem State.setHost_wrPageMode (h : HostSide) : (s.setHost h).wrPageMode = s.wrPageMode := rfl
@[simp] theorem State.setHost_erAddr (h : HostSide) : (s.setHost h).erAddr = s.erAddr := rfl
@[simp] theorem State.setHost_erCount (h : HostSide) : (s.setHost h).erCount = s.erCount := rfl
@[simp] theorem State.setHost_erIdx (h : HostSide) : (s.setHost h).erIdx = s.erIdx := rfl
@[simp] theorem State.setHost_cs (h : HostSide) : (s.setHost h).cs = s.cs := rfl
@[simp] theorem State.setHost_ledBusy (h : HostSide) : (s.setHost h).ledBusy = s.ledBusy := rfl
@[simp] theorem State.setHost_faultCause (h : HostSide) : (s.setHost h).faultCause = s.faultCause := rfl
@[simp] theorem State.setHost_rxQ (h : HostSide) : (s.setHost h).rxQ = s.rxQ := rfl
@[simp] theorem State.setHost_txFinished (h : HostSide) : (s.setHost h).txFinished = s.txFinished := rfl
@[simp] theorem State.setHost_trace (h : HostSide) : (s.setHost h).trace = s.trace := rfl
@[simp] theorem State.setHost_flash (h : HostSide) : (s.setHost h).flash = s.flash := rfl
@[simp] theorem State.setHost_host (h : HostSide) : (s.setHost h).host = h := rfl
@[simp] theorem State.setHost_turns (h : HostSide) : (s.setHost h).turns = s.turns := rfl
@[simp] theorem State.setHost_noise (h : HostSide) : (s.setHost h).noise = s.noise := rfl

@[simp] theorem State.fillBuf_cfg (bs : List Byte) : (s.fillBuf bs).cfg = s.cfg := rfl
@[simp] theorem State.fillBuf_drv (bs : List Byte) : (s.fillBuf bs).drv = s.drv := rfl
@[simp] theorem State.fillBuf_seq (bs : List Byte) : (s.fillBuf bs).seq = s.seq := rfl
@[simp] theorem State.fillBuf_micro (bs : List Byte) : (s.fillBuf bs).micro = s.micro := rfl
@[simp] theorem State.fillBuf_op (bs : List Byte) : (s.fillBuf bs).op = s.op := rfl
@[simp] theorem State.fillBuf_reqAddr (bs : List Byte) : (s.fillBuf bs).reqAddr = s.reqAddr := rfl
@[simp] theorem State.fillBuf_reqLen (bs : List Byte) : (s.fillBuf bs).reqLen = s.reqLen := rfl
@[simp] theorem State.fillBuf_hdrIdx (bs : List Byte) : (s.fillBuf bs).hdrIdx = s.hdrIdx := rfl
@[simp] theorem State.fillBuf_curAddr (bs : List Byte) : (s.fillBuf bs).curAddr = s.curAddr := rfl
@[simp] theorem State.fillBuf_rem (bs : List Byte) : (s.fillBuf bs).rem = s.rem := rfl
@[simp] theorem State.fillBuf_chunkLen (bs : List Byte) : (s.fillBuf bs).chunkLen = s.chunkLen := rfl
@[simp] theorem State.fillBuf_bufIdx (bs : List Byte) : (s.fillBuf bs).bufIdx = s.bufIdx := rfl
@[simp] theorem State.fillBuf_idMfr (bs : List Byte) : (s.fillBuf bs).idMfr = s.idMfr := rfl
@[simp] theorem State.fillBuf_idDev (bs : List Byte) : (s.fillBuf bs).idDev = s.idDev := rfl
@[simp] theorem State.fillBuf_status (bs : List Byte) : (s.fillBuf bs).status = s.status := rfl
@[simp] theorem State.fillBuf_buf (bs : List Byte) : (s.fillBuf bs).buf = bs ++ s.buf.drop bs.length := rfl
@[simp] theorem State.fillBuf_wrOff (bs : List Byte) : (s.fillBuf bs).wrOff = s.wrOff := rfl
@[simp] theorem State.fillBuf_wrPageMode (bs : List Byte) : (s.fillBuf bs).wrPageMode = s.wrPageMode := rfl
@[simp] theorem State.fillBuf_erAddr (bs : List Byte) : (s.fillBuf bs).erAddr = s.erAddr := rfl
@[simp] theorem State.fillBuf_erCount (bs : List Byte) : (s.fillBuf bs).erCount = s.erCount := rfl
@[simp] theorem State.fillBuf_erIdx (bs : List Byte) : (s.fillBuf bs).erIdx = s.erIdx := rfl
@[simp] theorem State.fillBuf_cs (bs : List Byte) : (s.fillBuf bs).cs = s.cs := rfl
@[simp] theorem State.fillBuf_ledBusy (bs : List Byte) : (s.fillBuf bs).ledBusy = s.ledBusy := rfl
@[simp] theorem State.fillBuf_faultCause (bs : List Byte) : (s.fillBuf bs).faultCause = s.faultCause := rfl
@[simp] theorem State.fillBuf_rxQ (bs : List Byte) : (s.fillBuf bs).rxQ = s.rxQ := rfl
@[simp] theorem State.fillBuf_txFinished (bs : List Byte) : (s.fillBuf bs).txFinished = s.txFinished := rfl
@[simp] theorem State.fillBuf_trace (bs : List Byte) : (s.fillBuf bs).trace = s.trace := rfl
@[simp] theorem State.fillBuf_flash (bs : List Byte) : (s.fillBuf bs).flash = s.flash := rfl
@[simp] theorem State.fillBuf_host (bs : List Byte) : (s.fillBuf bs).host = s.host := rfl
@[simp] theorem State.fillBuf_turns (bs : List Byte) : (s.fillBuf bs).turns = s.turns := rfl
@[simp] theorem State.fillBuf_noise (bs : List Byte) : (s.fillBuf bs).noise = s.noise := rfl

@[simp] theorem State.raiseIdentityMismatch_cfg : (s.raiseIdentityMismatch).cfg = s.cfg := rfl
@[simp] theorem State.raiseIdentityMismatch_drv : (s.raiseIdentityMismatch).drv = .faulted := rfl
@[simp] theorem State.raiseIdentityMismatch_seq : (s.raiseIdentityMismatch).seq = .halt := rfl
@[simp] theorem State.raiseIdentityMismatch_micro : (s.raiseIdentityMismatch).micro = s.micro := rfl
@[simp] theorem State.raiseIdentityMismatch_op : (s.raiseIdentityMismatch).op = s.op := rfl
@[simp] theorem State.raiseIdentityMismatch_reqAddr : (s.raiseIdentityMismatch).reqAddr = s.reqAddr := rfl
@[simp] theorem State.raiseIdentityMismatch_reqLen : (s.raiseIdentityMismatch).reqLen = s.reqLen := rfl
@[simp] theorem State.raiseIdentityMismatch_hdrIdx : (s.raiseIdentityMismatch).hdrIdx = s.hdrIdx := rfl
@[simp] theorem State.raiseIdentityMismatch_curAddr : (s.raiseIdentityMismatch).curAddr = s.curAddr := rfl
@[simp] theorem State.raiseIdentityMismatch_rem : (s.raiseIdentityMismatch).rem = s.rem := rfl
@[simp] theorem State.raiseIdentityMismatch_chunkLen : (s.raiseIdentityMismatch).chunkLen = s.chunkLen := rfl
@[simp] theorem State.raiseIdentityMismatch_bufIdx : (s.raiseIdentityMismatch).bufIdx = s.bufIdx := rfl
@[simp] theorem State.raiseIdentityMismatch_idMfr : (s.raiseIdentityMismatch).idMfr = s.idMfr := rfl
@[simp] theorem State.raiseIdentityMismatch_idDev : (s.raiseIdentityMismatch).idDev = s.idDev := rfl
@[simp] theorem State.raiseIdentityMismatch_status : (s.raiseIdentityMismatch).status = s.status := rfl
@[simp] theorem State.raiseIdentityMismatch_buf : (s.raiseIdentityMismatch).buf = s.buf := rfl
@[simp] theorem State.raiseIdentityMismatch_wrOff : (s.raiseIdentityMismatch).wrOff = s.wrOff := rfl
@[simp] theorem State.raiseIdentityMismatch_wrPageMode : (s.raiseIdentityMismatch).wrPageMode = s.wrPageMode := rfl
@[simp] theorem State.raiseIdentityMismatch_erAddr : (s.raiseIdentityMismatch).erAddr = s.erAddr := rfl
@[simp] theorem State.raiseIdentityMismatch_erCount : (s.raiseIdentityMismatch).erCount = s.erCount := rfl
@[simp] theorem State.raiseIdentityMismatch_erIdx : (s.raiseIdentityMismatch).erIdx = s.erIdx := rfl
@[simp] theorem State.raiseIdentityMismatch_cs : (s.raiseIdentityMismatch).cs = s.cs := rfl
@[simp] theorem State.raiseIdentityMismatch_ledBusy : (s.raiseIdentityMismatch).ledBusy = s.ledBusy := rfl
@[simp] theorem State.raiseIdentityMismatch_faultCause : (s.raiseIdentityMismatch).faultCause = .identityMismatch := rfl
@[simp] theorem State.raiseIdentityMismatch_rxQ : (s.raiseIdentityMismatch).rxQ = s.rxQ := rfl
@[simp] theorem State.raiseIdentityMismatch_txFinished : (s.raiseIdentityMismatch).txFinished = s.txFinished := rfl
@[simp] theorem State.raiseIdentityMismatch_trace : (s.raiseIdentityMismatch).trace = s.trace := rfl
@[simp] theorem State.raiseIdentityMismatch_flash : (s.raiseIdentityMismatch).flash = s.flash := rfl
@[simp] theorem State.raiseIdentityMismatch_host : (s.raiseIdentityMismatch).host = s.host := rfl
@[simp] theorem State.raiseIdentityMismatch_turns : (s.raiseIdentityMismatch).turns = s.turns := rfl
@[simp] theorem State.raiseIdentityMismatch_noise : (s.raiseIdentityMismatch).noise = s.noise := rfl

@[simp] theorem State.loadCursor_cfg (o : Byte) (a n : Word) : (s.loadCursor o a n).cfg = s.cfg := rfl
@[simp] theorem State.loadCursor_drv (o : Byte) (a n : Word) : (s.loadCursor o a n).drv = s.drv := rfl
@[simp] theorem State.loadCursor_seq (o : Byte) (a n : Word) : (s.loadCursor o a n).seq = .chunk := rfl
@[simp] theorem State.loadCursor_micro (o : Byte) (a n : Word) : (s.loadCursor o a n).micro = s.micro := rfl
@[simp] theorem State.loadCursor_op (o : Byte) (a n : Word) : (s.loadCursor o a n).op = o := rfl
@[simp] theorem State.loadCursor_reqAddr (o : Byte) (a n : Word) : (s.loadCursor o a n).reqAddr = a := rfl
@[simp] theorem State.loadCursor_reqLen (o : Byte) (a n : Word) : (s.loadCursor o a n).reqLen = n := rfl
@[simp] theorem State.loadCursor_hdrIdx (o : Byte) (a n : Word) : (s.loadCursor o a n).hdrIdx = s.hdrIdx := rfl
@[simp] theorem State.loadCursor_curAddr (o : Byte) (a n : Word) : (s.loadCursor o a n).curAddr = a := rfl
@[simp] theorem State.loadCursor_rem (o : Byte) (a n : Word) : (s.loadCursor o a n).rem = n := rfl
@[simp] theorem State.loadCursor_chunkLen (o : Byte) (a n : Word) : (s.loadCursor o a n).chunkLen = s.chunkLen := rfl
@[simp] theorem State.loadCursor_bufIdx (o : Byte) (a n : Word) : (s.loadCursor o a n).bufIdx = s.bufIdx := rfl
@[simp] theorem State.loadCursor_idMfr (o : Byte) (a n : Word) : (s.loadCursor o a n).idMfr = s.idMfr := rfl
@[simp] theorem State.loadCursor_idDev (o : Byte) (a n : Word) : (s.loadCursor o a n).idDev = s.idDev := rfl
@[simp] theorem State.loadCursor_status (o : Byte) (a n : Word) : (s.loadCursor o a n).status = s.status := rfl
@[simp] theorem State.loadCursor_buf (o : Byte) (a n : Word) : (s.loadCursor o a n).buf = s.buf := rfl
@[simp] theorem State.loadCursor_wrOff (o : Byte) (a n : Word) : (s.loadCursor o a n).wrOff = s.wrOff := rfl
@[simp] theorem State.loadCursor_wrPageMode (o : Byte) (a n : Word) : (s.loadCursor o a n).wrPageMode = s.wrPageMode := rfl
@[simp] theorem State.loadCursor_erAddr (o : Byte) (a n : Word) : (s.loadCursor o a n).erAddr = s.erAddr := rfl
@[simp] theorem State.loadCursor_erCount (o : Byte) (a n : Word) : (s.loadCursor o a n).erCount = s.erCount := rfl
@[simp] theorem State.loadCursor_erIdx (o : Byte) (a n : Word) : (s.loadCursor o a n).erIdx = s.erIdx := rfl
@[simp] theorem State.loadCursor_cs (o : Byte) (a n : Word) : (s.loadCursor o a n).cs = s.cs := rfl
@[simp] theorem State.loadCursor_ledBusy (o : Byte) (a n : Word) : (s.loadCursor o a n).ledBusy = true := rfl
@[simp] theorem State.loadCursor_faultCause (o : Byte) (a n : Word) : (s.loadCursor o a n).faultCause = s.faultCause := rfl
@[simp] theorem State.loadCursor_rxQ (o : Byte) (a n : Word) : (s.loadCursor o a n).rxQ = s.rxQ := rfl
@[simp] theorem State.loadCursor_txFinished (o : Byte) (a n : Word) : (s.loadCursor o a n).txFinished = s.txFinished := rfl
@[simp] theorem State.loadCursor_trace (o : Byte) (a n : Word) : (s.loadCursor o a n).trace = if s.ledBusy = true then s.trace else s.trace ++ [.led true] := rfl
@[simp] theorem State.loadCursor_flash (o : Byte) (a n : Word) : (s.loadCursor o a n).flash = s.flash := rfl
@[simp] theorem State.loadCursor_host (o : Byte) (a n : Word) : (s.loadCursor o a n).host = s.host := rfl
@[simp] theorem State.loadCursor_turns (o : Byte) (a n : Word) : (s.loadCursor o a n).turns = s.turns := rfl
@[simp] theorem State.loadCursor_noise (o : Byte) (a n : Word) : (s.loadCursor o a n).noise = s.noise := rfl

@[simp] theorem State.latchIdentity_cfg (m : Byte) (d : Half) : (s.latchIdentity m d).cfg = s.cfg := rfl
@[simp] theorem State.latchIdentity_drv (m : Byte) (d : Half) : (s.latchIdentity m d).drv = s.drv := rfl
@[simp] theorem State.latchIdentity_seq (m : Byte) (d : Half) : (s.latchIdentity m d).seq = s.seq := rfl
@[simp] theorem State.latchIdentity_micro (m : Byte) (d : Half) : (s.latchIdentity m d).micro = s.micro := rfl
@[simp] theorem State.latchIdentity_op (m : Byte) (d : Half) : (s.latchIdentity m d).op = s.op := rfl
@[simp] theorem State.latchIdentity_reqAddr (m : Byte) (d : Half) : (s.latchIdentity m d).reqAddr = s.reqAddr := rfl
@[simp] theorem State.latchIdentity_reqLen (m : Byte) (d : Half) : (s.latchIdentity m d).reqLen = s.reqLen := rfl
@[simp] theorem State.latchIdentity_hdrIdx (m : Byte) (d : Half) : (s.latchIdentity m d).hdrIdx = s.hdrIdx := rfl
@[simp] theorem State.latchIdentity_curAddr (m : Byte) (d : Half) : (s.latchIdentity m d).curAddr = s.curAddr := rfl
@[simp] theorem State.latchIdentity_rem (m : Byte) (d : Half) : (s.latchIdentity m d).rem = s.rem := rfl
@[simp] theorem State.latchIdentity_chunkLen (m : Byte) (d : Half) : (s.latchIdentity m d).chunkLen = s.chunkLen := rfl
@[simp] theorem State.latchIdentity_bufIdx (m : Byte) (d : Half) : (s.latchIdentity m d).bufIdx = s.bufIdx := rfl
@[simp] theorem State.latchIdentity_idMfr (m : Byte) (d : Half) : (s.latchIdentity m d).idMfr = m := rfl
@[simp] theorem State.latchIdentity_idDev (m : Byte) (d : Half) : (s.latchIdentity m d).idDev = d := rfl
@[simp] theorem State.latchIdentity_status (m : Byte) (d : Half) : (s.latchIdentity m d).status = s.status := rfl
@[simp] theorem State.latchIdentity_buf (m : Byte) (d : Half) : (s.latchIdentity m d).buf = s.buf := rfl
@[simp] theorem State.latchIdentity_wrOff (m : Byte) (d : Half) : (s.latchIdentity m d).wrOff = s.wrOff := rfl
@[simp] theorem State.latchIdentity_wrPageMode (m : Byte) (d : Half) : (s.latchIdentity m d).wrPageMode = s.wrPageMode := rfl
@[simp] theorem State.latchIdentity_erAddr (m : Byte) (d : Half) : (s.latchIdentity m d).erAddr = s.erAddr := rfl
@[simp] theorem State.latchIdentity_erCount (m : Byte) (d : Half) : (s.latchIdentity m d).erCount = s.erCount := rfl
@[simp] theorem State.latchIdentity_erIdx (m : Byte) (d : Half) : (s.latchIdentity m d).erIdx = s.erIdx := rfl
@[simp] theorem State.latchIdentity_cs (m : Byte) (d : Half) : (s.latchIdentity m d).cs = s.cs := rfl
@[simp] theorem State.latchIdentity_ledBusy (m : Byte) (d : Half) : (s.latchIdentity m d).ledBusy = s.ledBusy := rfl
@[simp] theorem State.latchIdentity_faultCause (m : Byte) (d : Half) : (s.latchIdentity m d).faultCause = s.faultCause := rfl
@[simp] theorem State.latchIdentity_rxQ (m : Byte) (d : Half) : (s.latchIdentity m d).rxQ = s.rxQ := rfl
@[simp] theorem State.latchIdentity_txFinished (m : Byte) (d : Half) : (s.latchIdentity m d).txFinished = s.txFinished := rfl
@[simp] theorem State.latchIdentity_trace (m : Byte) (d : Half) : (s.latchIdentity m d).trace = s.trace := rfl
@[simp] theorem State.latchIdentity_flash (m : Byte) (d : Half) : (s.latchIdentity m d).flash = s.flash := rfl
@[simp] theorem State.latchIdentity_host (m : Byte) (d : Half) : (s.latchIdentity m d).host = s.host := rfl
@[simp] theorem State.latchIdentity_turns (m : Byte) (d : Half) : (s.latchIdentity m d).turns = s.turns := rfl
@[simp] theorem State.latchIdentity_noise (m : Byte) (d : Half) : (s.latchIdentity m d).noise = s.noise := rfl

@[simp] theorem State.latchStatus_cfg (b : Byte) : (s.latchStatus b).cfg = s.cfg := rfl
@[simp] theorem State.latchStatus_drv (b : Byte) : (s.latchStatus b).drv = s.drv := rfl
@[simp] theorem State.latchStatus_seq (b : Byte) : (s.latchStatus b).seq = s.seq := rfl
@[simp] theorem State.latchStatus_micro (b : Byte) : (s.latchStatus b).micro = s.micro := rfl
@[simp] theorem State.latchStatus_op (b : Byte) : (s.latchStatus b).op = s.op := rfl
@[simp] theorem State.latchStatus_reqAddr (b : Byte) : (s.latchStatus b).reqAddr = s.reqAddr := rfl
@[simp] theorem State.latchStatus_reqLen (b : Byte) : (s.latchStatus b).reqLen = s.reqLen := rfl
@[simp] theorem State.latchStatus_hdrIdx (b : Byte) : (s.latchStatus b).hdrIdx = s.hdrIdx := rfl
@[simp] theorem State.latchStatus_curAddr (b : Byte) : (s.latchStatus b).curAddr = s.curAddr := rfl
@[simp] theorem State.latchStatus_rem (b : Byte) : (s.latchStatus b).rem = s.rem := rfl
@[simp] theorem State.latchStatus_chunkLen (b : Byte) : (s.latchStatus b).chunkLen = s.chunkLen := rfl
@[simp] theorem State.latchStatus_bufIdx (b : Byte) : (s.latchStatus b).bufIdx = s.bufIdx := rfl
@[simp] theorem State.latchStatus_idMfr (b : Byte) : (s.latchStatus b).idMfr = s.idMfr := rfl
@[simp] theorem State.latchStatus_idDev (b : Byte) : (s.latchStatus b).idDev = s.idDev := rfl
@[simp] theorem State.latchStatus_status (b : Byte) : (s.latchStatus b).status = b := rfl
@[simp] theorem State.latchStatus_buf (b : Byte) : (s.latchStatus b).buf = s.buf := rfl
@[simp] theorem State.latchStatus_wrOff (b : Byte) : (s.latchStatus b).wrOff = s.wrOff := rfl
@[simp] theorem State.latchStatus_wrPageMode (b : Byte) : (s.latchStatus b).wrPageMode = s.wrPageMode := rfl
@[simp] theorem State.latchStatus_erAddr (b : Byte) : (s.latchStatus b).erAddr = s.erAddr := rfl
@[simp] theorem State.latchStatus_erCount (b : Byte) : (s.latchStatus b).erCount = s.erCount := rfl
@[simp] theorem State.latchStatus_erIdx (b : Byte) : (s.latchStatus b).erIdx = s.erIdx := rfl
@[simp] theorem State.latchStatus_cs (b : Byte) : (s.latchStatus b).cs = s.cs := rfl
@[simp] theorem State.latchStatus_ledBusy (b : Byte) : (s.latchStatus b).ledBusy = s.ledBusy := rfl
@[simp] theorem State.latchStatus_faultCause (b : Byte) : (s.latchStatus b).faultCause = s.faultCause := rfl
@[simp] theorem State.latchStatus_rxQ (b : Byte) : (s.latchStatus b).rxQ = s.rxQ := rfl
@[simp] theorem State.latchStatus_txFinished (b : Byte) : (s.latchStatus b).txFinished = s.txFinished := rfl
@[simp] theorem State.latchStatus_trace (b : Byte) : (s.latchStatus b).trace = s.trace := rfl
@[simp] theorem State.latchStatus_flash (b : Byte) : (s.latchStatus b).flash = s.flash := rfl
@[simp] theorem State.latchStatus_host (b : Byte) : (s.latchStatus b).host = s.host := rfl
@[simp] theorem State.latchStatus_turns (b : Byte) : (s.latchStatus b).turns = s.turns := rfl
@[simp] theorem State.latchStatus_noise (b : Byte) : (s.latchStatus b).noise = s.noise + 1 := rfl

@[simp] theorem State.rxArrive_cfg (b : Byte) : (s.rxArrive b).cfg = s.cfg := rfl
@[simp] theorem State.rxArrive_drv (b : Byte) : (s.rxArrive b).drv = s.drv := rfl
@[simp] theorem State.rxArrive_seq (b : Byte) : (s.rxArrive b).seq = s.seq := rfl
@[simp] theorem State.rxArrive_micro (b : Byte) : (s.rxArrive b).micro = s.micro := rfl
@[simp] theorem State.rxArrive_op (b : Byte) : (s.rxArrive b).op = s.op := rfl
@[simp] theorem State.rxArrive_reqAddr (b : Byte) : (s.rxArrive b).reqAddr = s.reqAddr := rfl
@[simp] theorem State.rxArrive_reqLen (b : Byte) : (s.rxArrive b).reqLen = s.reqLen := rfl
@[simp] theorem State.rxArrive_hdrIdx (b : Byte) : (s.rxArrive b).hdrIdx = s.hdrIdx := rfl
@[simp] theorem State.rxArrive_curAddr (b : Byte) : (s.rxArrive b).curAddr = s.curAddr := rfl
@[simp] theorem State.rxArrive_rem (b : Byte) : (s.rxArrive b).rem = s.rem := rfl
@[simp] theorem State.rxArrive_chunkLen (b : Byte) : (s.rxArrive b).chunkLen = s.chunkLen := rfl
@[simp] theorem State.rxArrive_bufIdx (b : Byte) : (s.rxArrive b).bufIdx = s.bufIdx := rfl
@[simp] theorem State.rxArrive_idMfr (b : Byte) : (s.rxArrive b).idMfr = s.idMfr := rfl
@[simp] theorem State.rxArrive_idDev (b : Byte) : (s.rxArrive b).idDev = s.idDev := rfl
@[simp] theorem State.rxArrive_status (b : Byte) : (s.rxArrive b).status = s.status := rfl
@[simp] theorem State.rxArrive_buf (b : Byte) : (s.rxArrive b).buf = s.buf := rfl
@[simp] theorem State.rxArrive_wrOff (b : Byte) : (s.rxArrive b).wrOff = s.wrOff := rfl
@[simp] theorem State.rxArrive_wrPageMode (b : Byte) : (s.rxArrive b).wrPageMode = s.wrPageMode := rfl
@[simp] theorem State.rxArrive_erAddr (b : Byte) : (s.rxArrive b).erAddr = s.erAddr := rfl
@[simp] theorem State.rxArrive_erCount (b : Byte) : (s.rxArrive b).erCount = s.erCount := rfl
@[simp] theorem State.rxArrive_erIdx (b : Byte) : (s.rxArrive b).erIdx = s.erIdx := rfl
@[simp] theorem State.rxArrive_cs (b : Byte) : (s.rxArrive b).cs = s.cs := rfl
@[simp] theorem State.rxArrive_ledBusy (b : Byte) : (s.rxArrive b).ledBusy = s.ledBusy := rfl
@[simp] theorem State.rxArrive_faultCause (b : Byte) : (s.rxArrive b).faultCause = s.faultCause := rfl
@[simp] theorem State.rxArrive_rxQ (b : Byte) : (s.rxArrive b).rxQ = s.rxQ ++ [b] := rfl
@[simp] theorem State.rxArrive_txFinished (b : Byte) : (s.rxArrive b).txFinished = s.txFinished := rfl
@[simp] theorem State.rxArrive_trace (b : Byte) : (s.rxArrive b).trace = s.trace := rfl
@[simp] theorem State.rxArrive_flash (b : Byte) : (s.rxArrive b).flash = s.flash := rfl
@[simp] theorem State.rxArrive_host (b : Byte) : (s.rxArrive b).host = s.host := rfl
@[simp] theorem State.rxArrive_turns (b : Byte) : (s.rxArrive b).turns = s.turns := rfl
@[simp] theorem State.rxArrive_noise (b : Byte) : (s.rxArrive b).noise = s.noise := rfl

@[simp] theorem State.enterInit_cfg : (s.enterInit).cfg = s.cfg := rfl
@[simp] theorem State.enterInit_drv : (s.enterInit).drv = .verifying := rfl
@[simp] theorem State.enterInit_seq : (s.enterInit).seq = .init := rfl
@[simp] theorem State.enterInit_micro : (s.enterInit).micro = .issue 0 := rfl
@[simp] theorem State.enterInit_op : (s.enterInit).op = s.op := rfl
@[simp] theorem State.enterInit_reqAddr : (s.enterInit).reqAddr = s.reqAddr := rfl
@[simp] theorem State.enterInit_reqLen : (s.enterInit).reqLen = s.reqLen := rfl
@[simp] theorem State.enterInit_hdrIdx : (s.enterInit).hdrIdx = s.hdrIdx := rfl
@[simp] theorem State.enterInit_curAddr : (s.enterInit).curAddr = s.curAddr := rfl
@[simp] theorem State.enterInit_rem : (s.enterInit).rem = s.rem := rfl
@[simp] theorem State.enterInit_chunkLen : (s.enterInit).chunkLen = s.chunkLen := rfl
@[simp] theorem State.enterInit_bufIdx : (s.enterInit).bufIdx = s.bufIdx := rfl
@[simp] theorem State.enterInit_idMfr : (s.enterInit).idMfr = s.idMfr := rfl
@[simp] theorem State.enterInit_idDev : (s.enterInit).idDev = s.idDev := rfl
@[simp] theorem State.enterInit_status : (s.enterInit).status = s.status := rfl
@[simp] theorem State.enterInit_buf : (s.enterInit).buf = s.buf := rfl
@[simp] theorem State.enterInit_wrOff : (s.enterInit).wrOff = s.wrOff := rfl
@[simp] theorem State.enterInit_wrPageMode : (s.enterInit).wrPageMode = s.wrPageMode := rfl
@[simp] theorem State.enterInit_erAddr : (s.enterInit).erAddr = s.erAddr := rfl
@[simp] theorem State.enterInit_erCount : (s.enterInit).erCount = s.erCount := rfl
@[simp] theorem State.enterInit_erIdx : (s.enterInit).erIdx = s.erIdx := rfl
@[simp] theorem State.enterInit_cs : (s.enterInit).cs = s.cs := rfl
@[simp] theorem State.enterInit_ledBusy : (s.enterInit).ledBusy = s.ledBusy := rfl
@[simp] theorem State.enterInit_faultCause : (s.enterInit).faultCause = s.faultCause := rfl
@[simp] theorem State.enterInit_rxQ : (s.enterInit).rxQ = s.rxQ := rfl
@[simp] theorem State.enterInit_txFinished : (s.enterInit).txFinished = s.txFinished := rfl
@[simp] theorem State.enterInit_trace : (s.enterInit).trace = s.trace := rfl
@[simp] theorem State.enterInit_flash : (s.enterInit).flash = s.flash := rfl
@[simp] theorem State.enterInit_host : (s.enterInit).host = s.host := rfl
@[simp] theorem State.enterInit_turns : (s.enterInit).turns = s.turns := rfl
@[simp] theorem State.enterInit_noise : (s.enterInit).noise = s.noise := rfl

@[simp] theorem State.becomeReady_cfg : (s.becomeReady).cfg = s.cfg := rfl
@[simp] theorem State.becomeReady_drv : (s.becomeReady).drv = .ready := rfl
@[simp] theorem State.becomeReady_seq : (s.becomeReady).seq = .waitCmd := rfl
@[simp] theorem State.becomeReady_micro : (s.becomeReady).micro = s.micro := rfl
@[simp] theorem State.becomeReady_op : (s.becomeReady).op = s.op := rfl
@[simp] theorem State.becomeReady_reqAddr : (s.becomeReady).reqAddr = s.reqAddr := rfl
@[simp] theorem State.becomeReady_reqLen : (s.becomeReady).reqLen = s.reqLen := rfl
@[simp] theorem State.becomeReady_hdrIdx : (s.becomeReady).hdrIdx = s.hdrIdx := rfl
@[simp] theorem State.becomeReady_curAddr : (s.becomeReady).curAddr = s.curAddr := rfl
@[simp] theorem State.becomeReady_rem : (s.becomeReady).rem = s.rem := rfl
@[simp] theorem State.becomeReady_chunkLen : (s.becomeReady).chunkLen = s.chunkLen := rfl
@[simp] theorem State.becomeReady_bufIdx : (s.becomeReady).bufIdx = s.bufIdx := rfl
@[simp] theorem State.becomeReady_idMfr : (s.becomeReady).idMfr = s.idMfr := rfl
@[simp] theorem State.becomeReady_idDev : (s.becomeReady).idDev = s.idDev := rfl
@[simp] theorem State.becomeReady_status : (s.becomeReady).status = s.status := rfl
@[simp] theorem State.becomeReady_buf : (s.becomeReady).buf = s.buf := rfl
@[simp] theorem State.becomeReady_wrOff : (s.becomeReady).wrOff = s.wrOff := rfl
@[simp] theorem State.becomeReady_wrPageMode : (s.becomeReady).wrPageMode = s.wrPageMode := rfl
@[simp] theorem State.becomeReady_erAddr : (s.becomeReady).erAddr = s.erAddr := rfl
@[simp] theorem State.becomeReady_erCount : (s.becomeReady).erCount = s.erCount := rfl
@[simp] theorem State.becomeReady_erIdx : (s.becomeReady).erIdx = s.erIdx := rfl
@[simp] theorem State.becomeReady_cs : (s.becomeReady).cs = s.cs := rfl
@[simp] theorem State.becomeReady_ledBusy : (s.becomeReady).ledBusy = s.ledBusy := rfl
@[simp] theorem State.becomeReady_faultCause : (s.becomeReady).faultCause = s.faultCause := rfl
@[simp] theorem State.becomeReady_rxQ : (s.becomeReady).rxQ = s.rxQ := rfl
@[simp] theorem State.becomeReady_txFinished : (s.becomeReady).txFinished = s.txFinished := rfl
@[simp] theorem State.becomeReady_trace : (s.becomeReady).trace = s.trace := rfl
@[simp] theorem State.becomeReady_flash : (s.becomeReady).flash = s.flash := rfl
@[simp] theorem State.becomeReady_host : (s.becomeReady).host = s.host := rfl
@[simp] theorem State.becomeReady_turns : (s.becomeReady).turns = s.turns := rfl
@[simp] theorem State.becomeReady_noise : (s.becomeReady).noise = s.noise := rfl

@[simp] theorem State.setMicro_cfg (m : Micro) : (s.setMicro m).cfg = s.cfg := rfl
@[simp] theorem State.setMicro_drv (m : Micro) : (s.setMicro m).drv = s.drv := rfl
@[simp] theorem State.setMicro_seq (m : Micro) : (s.setMicro m).seq = s.seq := rfl
@[simp] theorem State.setMicro_micro (m : Micro) : (s.setMicro m).micro = m := rfl
@[simp] theorem State.setMicro_op (m : Micro) : (s.setMicro m).op = s.op := rfl
@[simp] theorem State.setMicro_reqAddr (m : Micro) : (s.setMicro m).reqAddr = s.reqAddr := rfl
@[simp] theorem State.setMicro_reqLen (m : Micro) : (s.setMicro m).reqLen = s.reqLen := rfl
@[simp] theorem State.setMicro_hdrIdx (m : Micro) : (s.setMicro m).hdrIdx = s.hdrIdx := rfl
@[simp] theorem State.setMicro_curAddr (m : Micro) : (s.setMicro m).curAddr = s.curAddr := rfl
@[simp] theorem State.setMicro_rem (m : Micro) : (s.setMicro m).rem = s.rem := rfl
@[simp] theorem State.setMicro_chunkLen (m : Micro) : (s.setMicro m).chunkLen = s.chunkLen := rfl
@[simp] theorem State.setMicro_bufIdx (m : Micro) : (s.setMicro m).bufIdx = s.bufIdx := rfl
@[simp] theorem State.setMicro_idMfr (m : Micro) : (s.setMicro m).idMfr = s.idMfr := rfl
@[simp] theorem State.setMicro_idDev (m : Micro) : (s.setMicro m).idDev = s.idDev := rfl
@[simp] theorem State.setMicro_status (m : Micro) : (s.setMicro m).status = s.status := rfl
@[simp] theorem State.setMicro_buf (m : Micro) : (s.setMicro m).buf = s.buf := rfl
@[simp] theorem State.setMicro_wrOff (m : Micro) : (s.setMicro m).wrOff = s.wrOff := rfl
@[simp] theorem State.setMicro_wrPageMode (m : Micro) : (s.setMicro m).wrPageMode = s.wrPageMode := rfl
@[simp] theorem State.setMicro_erAddr (m : Micro) : (s.setMicro m).erAddr = s.erAddr := rfl
@[simp] theorem State.setMicro_erCount (m : Micro) : (s.setMicro m).erCount = s.erCount := rfl
@[simp] theorem State.setMicro_erIdx (m : Micro) : (s.setMicro m).erIdx = s.erIdx := rfl
@[simp] theorem State.setMicro_cs (m : Micro) : (s.setMicro m).cs = s.cs := rfl
@[simp] theorem State.setMicro_ledBusy (m : Micro) : (s.setMicro m).ledBusy = s.ledBusy := rfl
@[simp] theorem State.setMicro_faultCause (m : Micro) : (s.setMicro m).faultCause = s.faultCause := rfl
@[simp] theorem State.setMicro_rxQ (m : Micro) : (s.setMicro m).rxQ = s.rxQ := rfl
@[simp] theorem State.setMicro_txFinished (m : Micro) : (s.setMicro m).txFinished = s.txFinished := rfl
@[simp] theorem State.setMicro_trace (m : Micro) : (s.setMicro m).trace = s.trace := rfl
@[simp] theorem State.setMicro_flash (m : Micro) : (s.setMicro m).flash = s.flash := rfl
@[simp] theorem State.setMicro_host (m : Micro) : (s.setMicro m).host = s.host := rfl
@[simp] theorem State.setMicro_turns (m : Micro) : (s.setMicro m).turns = s.turns := rfl
@[simp] theorem State.setMicro_noise (m : Micro) : (s.setMicro m).noise = s.noise := rfl

@[simp] theorem State.openHeader_cfg (b : Byte) : (s.openHeader b).cfg = s.cfg := rfl
@[simp] theorem State.openHeader_drv (b : Byte) : (s.openHeader b).drv = s.drv := rfl
@[simp] theorem State.openHeader_seq (b : Byte) : (s.openHeader b).seq = .hdr := rfl
@[simp] theorem State.openHeader_micro (b : Byte) : (s.openHeader b).micro = s.micro := rfl
@[simp] theorem State.openHeader_op (b : Byte) : (s.openHeader b).op = b := rfl
@[simp] theorem State.openHeader_reqAddr (b : Byte) : (s.openHeader b).reqAddr = 0 := rfl
@[simp] theorem State.openHeader_reqLen (b : Byte) : (s.openHeader b).reqLen = 0 := rfl
@[simp] theorem State.openHeader_hdrIdx (b : Byte) : (s.openHeader b).hdrIdx = 0 := rfl
@[simp] theorem State.openHeader_curAddr (b : Byte) : (s.openHeader b).curAddr = s.curAddr := rfl
@[simp] theorem State.openHeader_rem (b : Byte) : (s.openHeader b).rem = s.rem := rfl
@[simp] theorem State.openHeader_chunkLen (b : Byte) : (s.openHeader b).chunkLen = s.chunkLen := rfl
@[simp] theorem State.openHeader_bufIdx (b : Byte) : (s.openHeader b).bufIdx = s.bufIdx := rfl
@[simp] theorem State.openHeader_idMfr (b : Byte) : (s.openHeader b).idMfr = s.idMfr := rfl
@[simp] theorem State.openHeader_idDev (b : Byte) : (s.openHeader b).idDev = s.idDev := rfl
@[simp] theorem State.openHeader_status (b : Byte) : (s.openHeader b).status = s.status := rfl
@[simp] theorem State.openHeader_buf (b : Byte) : (s.openHeader b).buf = s.buf := rfl
@[simp] theorem State.openHeader_wrOff (b : Byte) : (s.openHeader b).wrOff = s.wrOff := rfl
@[simp] theorem State.openHeader_wrPageMode (b : Byte) : (s.openHeader b).wrPageMode = s.wrPageMode := rfl
@[simp] theorem State.openHeader_erAddr (b : Byte) : (s.openHeader b).erAddr = s.erAddr := rfl
@[simp] theorem State.openHeader_erCount (b : Byte) : (s.openHeader b).erCount = s.erCount := rfl
@[simp] theorem State.openHeader_erIdx (b : Byte) : (s.openHeader b).erIdx = s.erIdx := rfl
@[simp] theorem State.openHeader_cs (b : Byte) : (s.openHeader b).cs = s.cs := rfl
@[simp] theorem State.openHeader_ledBusy (b : Byte) : (s.openHeader b).ledBusy = true := rfl
@[simp] theorem State.openHeader_faultCause (b : Byte) : (s.openHeader b).faultCause = s.faultCause := rfl
@[simp] theorem State.openHeader_rxQ (b : Byte) : (s.openHeader b).rxQ = s.rxQ := rfl
@[simp] theorem State.openHeader_txFinished (b : Byte) : (s.openHeader b).txFinished = s.txFinished := rfl
@[simp] theorem State.openHeader_trace (b : Byte) : (s.openHeader b).trace = if s.ledBusy = true then s.trace else s.trace ++ [.led true] := rfl
@[simp] theorem State.openHeader_flash (b : Byte) : (s.openHeader b).flash = s.flash := rfl
@[simp] theorem State.openHeader_host (b : Byte) : (s.openHeader b).host = s.host := rfl
@[simp] theorem State.openHeader_turns (b : Byte) : (s.openHeader b).turns = s.turns := rfl
@[simp] theorem State.openHeader_noise (b : Byte) : (s.openHeader b).noise = s.noise := rfl

@[simp] theorem State.nextHeader_cfg : (s.nextHeader).cfg = s.cfg := rfl
@[simp] theorem State.nextHeader_drv : (s.nextHeader).drv = s.drv := rfl
@[simp] theorem State.nextHeader_seq : (s.nextHeader).seq = s.seq := rfl
@[simp] theorem State.nextHeader_micro : (s.nextHeader).micro = s.micro := rfl
@[simp] theorem State.nextHeader_op : (s.nextHeader).op = s.op := rfl
@[simp] theorem State.nextHeader_reqAddr : (s.nextHeader).reqAddr = s.reqAddr := rfl
@[simp] theorem State.nextHeader_reqLen : (s.nextHeader).reqLen = s.reqLen := rfl
@[simp] theorem State.nextHeader_hdrIdx : (s.nextHeader).hdrIdx = s.hdrIdx + 1 := rfl
@[simp] theorem State.nextHeader_curAddr : (s.nextHeader).curAddr = s.curAddr := rfl
@[simp] theorem State.nextHeader_rem : (s.nextHeader).rem = s.rem := rfl
@[simp] theorem State.nextHeader_chunkLen : (s.nextHeader).chunkLen = s.chunkLen := rfl
@[simp] theorem State.nextHeader_bufIdx : (s.nextHeader).bufIdx = s.bufIdx := rfl
@[simp] theorem State.nextHeader_idMfr : (s.nextHeader).idMfr = s.idMfr := rfl
@[simp] theorem State.nextHeader_idDev : (s.nextHeader).idDev = s.idDev := rfl
@[simp] theorem State.nextHeader_status : (s.nextHeader).status = s.status := rfl
@[simp] theorem State.nextHeader_buf : (s.nextHeader).buf = s.buf := rfl
@[simp] theorem State.nextHeader_wrOff : (s.nextHeader).wrOff = s.wrOff := rfl
@[simp] theorem State.nextHeader_wrPageMode : (s.nextHeader).wrPageMode = s.wrPageMode := rfl
@[simp] theorem State.nextHeader_erAddr : (s.nextHeader).erAddr = s.erAddr := rfl
@[simp] theorem State.nextHeader_erCount : (s.nextHeader).erCount = s.erCount := rfl
@[simp] theorem State.nextHeader_erIdx : (s.nextHeader).erIdx = s.erIdx := rfl
@[simp] theorem State.nextHeader_cs : (s.nextHeader).cs = s.cs := rfl
@[simp] theorem State.nextHeader_ledBusy : (s.nextHeader).ledBusy = s.ledBusy := rfl
@[simp] theorem State.nextHeader_faultCause : (s.nextHeader).faultCause = s.faultCause := rfl
@[simp] theorem State.nextHeader_rxQ : (s.nextHeader).rxQ = s.rxQ := rfl
@[simp] theorem State.nextHeader_txFinished : (s.nextHeader).txFinished = s.txFinished := rfl
@[simp] theorem State.nextHeader_trace : (s.nextHeader).trace = s.trace := rfl
@[simp] theorem State.nextHeader_flash : (s.nextHeader).flash = s.flash := rfl
@[simp] theorem State.nextHeader_host : (s.nextHeader).host = s.host := rfl
@[simp] theorem State.nextHeader_turns : (s.nextHeader).turns = s.turns := rfl
@[simp] theorem State.nextHeader_noise : (s.nextHeader).noise = s.noise := rfl

@[simp] theorem State.endCommand_cfg : (s.endCommand).cfg = s.cfg := rfl
@[simp] theorem State.endCommand_drv : (s.endCommand).drv = s.drv := rfl
@[simp] theorem State.endCommand_seq : (s.endCommand).seq = .waitCmd := rfl
@[simp] theorem State.endCommand_micro : (s.endCommand).micro = s.micro := rfl
@[simp] theorem State.endCommand_op : (s.endCommand).op = s.op := rfl
@[simp] theorem State.endCommand_reqAddr : (s.endCommand).reqAddr = s.reqAddr := rfl
@[simp] theorem State.endCommand_reqLen : (s.endCommand).reqLen = s.reqLen := rfl
@[simp] theorem State.endCommand_hdrIdx : (s.endCommand).hdrIdx = s.hdrIdx := rfl
@[simp] theorem State.endCommand_curAddr : (s.endCommand).curAddr = s.curAddr := rfl
@[simp] theorem State.endCommand_rem : (s.endCommand).rem = s.rem := rfl
@[simp] theorem State.endCommand_chunkLen : (s.endCommand).chunkLen = s.chunkLen := rfl
@[simp] theorem State.endCommand_bufIdx : (s.endCommand).bufIdx = s.bufIdx := rfl
@[simp] theorem State.endCommand_idMfr : (s.endCommand).idMfr = s.idMfr := rfl
@[simp] theorem State.endCommand_idDev : (s.endCommand).idDev = s.idDev := rfl
@[simp] theorem State.endCommand_status : (s.endCommand).status = s.status := rfl
@[simp] theorem State.endCommand_buf : (s.endCommand).buf = s.buf := rfl
@[simp] theorem State.endCommand_wrOff : (s.endCommand).wrOff = s.wrOff := rfl
@[simp] theorem State.endCommand_wrPageMode : (s.endCommand).wrPageMode = s.wrPageMode := rfl
@[simp] theorem State.endCommand_erAddr : (s.endCommand).erAddr = s.erAddr := rfl
@[simp] theorem State.endCommand_erCount : (s.endCommand).erCount = s.erCount := rfl
@[simp] theorem State.endCommand_erIdx : (s.endCommand).erIdx = s.erIdx := rfl
@[simp] theorem State.endCommand_cs : (s.endCommand).cs = s.cs := rfl
@[simp] theorem State.endCommand_ledBusy : (s.endCommand).ledBusy = false := rfl
@[simp] theorem State.endCommand_faultCause : (s.endCommand).faultCause = s.faultCause := rfl
@[simp] theorem State.endCommand_rxQ : (s.endCommand).rxQ = s.rxQ := rfl
@[simp] theorem State.endCommand_txFinished : (s.endCommand).txFinished = s.txFinished := rfl
@[simp] theorem State.endCommand_trace : (s.endCommand).trace = if s.ledBusy = false then s.trace else s.trace ++ [.led false] := rfl
@[simp] theorem State.endCommand_flash : (s.endCommand).flash = s.flash := rfl
@[simp] theorem State.endCommand_host : (s.endCommand).host = s.host := rfl
@[simp] theorem State.endCommand_turns : (s.endCommand).turns = s.turns := rfl
@[simp] theorem State.endCommand_noise : (s.endCommand).noise = s.noise := rfl

@[simp] theorem State.beginChunk_cfg : (s.beginChunk).cfg = s.cfg := rfl
@[simp] theorem State.beginChunk_drv : (s.beginChunk).drv = s.drv := rfl
@[simp] theorem State.beginChunk_seq : (s.beginChunk).seq = if s.op = opReadFlash then .rdFill else .wrReady := rfl
@[simp] theorem State.beginChunk_micro : (s.beginChunk).micro = s.micro := rfl
@[simp] theorem State.beginChunk_op : (s.beginChunk).op = s.op := rfl
@[simp] theorem State.beginChunk_reqAddr : (s.beginChunk).reqAddr = s.reqAddr := rfl
@[simp] theorem State.beginChunk_reqLen : (s.beginChunk).reqLen = s.reqLen := rfl
@[simp] theorem State.beginChunk_hdrIdx : (s.beginChunk).hdrIdx = s.hdrIdx := rfl
@[simp] theorem State.beginChunk_curAddr : (s.beginChunk).curAddr = s.curAddr := rfl
@[simp] theorem State.beginChunk_rem : (s.beginChunk).rem = s.rem := rfl
@[simp] theorem State.beginChunk_chunkLen : (s.beginChunk).chunkLen = BitVec.ofNat 32 s.chunkSize := rfl
@[simp] theorem State.beginChunk_bufIdx : (s.beginChunk).bufIdx = if s.op = opReadFlash then s.bufIdx else 0 := rfl
@[simp] theorem State.beginChunk_idMfr : (s.beginChunk).idMfr = s.idMfr := rfl
@[simp] theorem State.beginChunk_idDev : (s.beginChunk).idDev = s.idDev := rfl
@[simp] theorem State.beginChunk_status : (s.beginChunk).status = s.status := rfl
@[simp] theorem State.beginChunk_buf : (s.beginChunk).buf = s.buf := rfl
@[simp] theorem State.beginChunk_wrOff : (s.beginChunk).wrOff = s.wrOff := rfl
@[simp] theorem State.beginChunk_wrPageMode : (s.beginChunk).wrPageMode = s.wrPageMode := rfl
@[simp] theorem State.beginChunk_erAddr : (s.beginChunk).erAddr = s.erAddr := rfl
@[simp] theorem State.beginChunk_erCount : (s.beginChunk).erCount = s.erCount := rfl
@[simp] theorem State.beginChunk_erIdx : (s.beginChunk).erIdx = s.erIdx := rfl
@[simp] theorem State.beginChunk_cs : (s.beginChunk).cs = s.cs := rfl
@[simp] theorem State.beginChunk_ledBusy : (s.beginChunk).ledBusy = s.ledBusy := rfl
@[simp] theorem State.beginChunk_faultCause : (s.beginChunk).faultCause = s.faultCause := rfl
@[simp] theorem State.beginChunk_rxQ : (s.beginChunk).rxQ = s.rxQ := rfl
@[simp] theorem State.beginChunk_txFinished : (s.beginChunk).txFinished = s.txFinished := rfl
@[simp] theorem State.beginChunk_trace : (s.beginChunk).trace = s.trace := rfl
@[simp] theorem State.beginChunk_flash : (s.beginChunk).flash = s.flash := rfl
@[simp] theorem State.beginChunk_host : (s.beginChunk).host = s.host := rfl
@[simp] theorem State.beginChunk_turns : (s.beginChunk).turns = s.turns := rfl
@[simp] theorem State.beginChunk_noise : (s.beginChunk).noise = s.noise := rfl

@[simp] theorem State.advanceCursor_cfg : (s.advanceCursor).cfg = s.cfg := rfl
@[simp] theorem State.advanceCursor_drv : (s.advanceCursor).drv = s.drv := rfl
@[simp] theorem State.advanceCursor_seq : (s.advanceCursor).seq = .chunk := rfl
@[simp] theorem State.advanceCursor_micro : (s.advanceCursor).micro = s.micro := rfl
@[simp] theorem State.advanceCursor_op : (s.advanceCursor).op = s.op := rfl
@[simp] theorem State.advanceCursor_reqAddr : (s.advanceCursor).reqAddr = s.reqAddr := rfl
@[simp] theorem State.advanceCursor_reqLen : (s.advanceCursor).reqLen = s.reqLen := rfl
@[simp] theorem State.advanceCursor_hdrIdx : (s.advanceCursor).hdrIdx = s.hdrIdx := rfl
@[simp] theorem State.advanceCursor_curAddr : (s.advanceCursor).curAddr = s.curAddr + s.chunkLen := rfl
@[simp] theorem State.advanceCursor_rem : (s.advanceCursor).rem = s.rem - s.chunkLen := rfl
@[simp] theorem State.advanceCursor_chunkLen : (s.advanceCursor).chunkLen = s.chunkLen := rfl
@[simp] theorem State.advanceCursor_bufIdx : (s.advanceCursor).bufIdx = s.bufIdx := rfl
@[simp] theorem State.advanceCursor_idMfr : (s.advanceCursor).idMfr = s.idMfr := rfl
@[simp] theorem State.advanceCursor_idDev : (s.advanceCursor).idDev = s.idDev := rfl
@[simp] theorem State.advanceCursor_status : (s.advanceCursor).status = s.status := rfl
@[simp] theorem State.advanceCursor_buf : (s.advanceCursor).buf = s.buf := rfl
@[simp] theorem State.advanceCursor_wrOff : (s.advanceCursor).wrOff = s.wrOff := rfl
@[simp] theorem State.advanceCursor_wrPageMode : (s.advanceCursor).wrPageMode = s.wrPageMode := rfl
@[simp] theorem State.advanceCursor_erAddr : (s.advanceCursor).erAddr = s.erAddr := rfl
@[simp] theorem State.advanceCursor_erCount : (s.advanceCursor).erCount = s.erCount := rfl
@[simp] theorem State.advanceCursor_erIdx : (s.advanceCursor).erIdx = s.erIdx := rfl
@[simp] theorem State.advanceCursor_cs : (s.advanceCursor).cs = s.cs := rfl
@[simp] theorem State.advanceCursor_ledBusy : (s.advanceCursor).ledBusy = s.ledBusy := rfl
@[simp] theorem State.advanceCursor_faultCause : (s.advanceCursor).faultCause = s.faultCause := rfl
@[simp] theorem State.advanceCursor_rxQ : (s.advanceCursor).rxQ = s.rxQ := rfl
@[simp] theorem State.advanceCursor_txFinished : (s.advanceCursor).txFinished = s.txFinished := rfl
@[simp] theorem State.advanceCursor_trace : (s.advanceCursor).trace = s.trace := rfl
@[simp] theorem State.advanceCursor_flash : (s.advanceCursor).flash = s.flash := rfl
@[simp] theorem State.advanceCursor_host : (s.advanceCursor).host = s.host := rfl
@[simp] theorem State.advanceCursor_turns : (s.advanceCursor).turns = s.turns := rfl
@[simp] theorem State.advanceCursor_noise : (s.advanceCursor).noise = s.noise := rfl

@[simp] theorem State.beginDrain_cfg : (s.beginDrain).cfg = s.cfg := rfl
@[simp] theorem State.beginDrain_drv : (s.beginDrain).drv = s.drv := rfl
@[simp] theorem State.beginDrain_seq : (s.beginDrain).seq = .rdDrain := rfl
@[simp] theorem State.beginDrain_micro : (s.beginDrain).micro = s.micro := rfl
@[simp] theorem State.beginDrain_op : (s.beginDrain).op = s.op := rfl
@[simp] theorem State.beginDrain_reqAddr : (s.beginDrain).reqAddr = s.reqAddr := rfl
@[simp] theorem State.beginDrain_reqLen : (s.beginDrain).reqLen = s.reqLen := rfl
@[simp] theorem State.beginDrain_hdrIdx : (s.beginDrain).hdrIdx = s.hdrIdx := rfl
@[simp] theorem State.beginDrain_curAddr : (s.beginDrain).curAddr = s.curAddr := rfl
@[simp] theorem State.beginDrain_rem : (s.beginDrain).rem = s.rem := rfl
@[simp] theorem State.beginDrain_chunkLen : (s.beginDrain).chunkLen = s.chunkLen := rfl
@[simp] theorem State.beginDrain_bufIdx : (s.beginDrain).bufIdx = 0 := rfl
@[simp] theorem State.beginDrain_idMfr : (s.beginDrain).idMfr = s.idMfr := rfl
@[simp] theorem State.beginDrain_idDev : (s.beginDrain).idDev = s.idDev := rfl
@[simp] theorem State.beginDrain_status : (s.beginDrain).status = s.status := rfl
@[simp] theorem State.beginDrain_buf : (s.beginDrain).buf = s.buf := rfl
@[simp] theorem State.beginDrain_wrOff : (s.beginDrain).wrOff = s.wrOff := rfl
@[simp] theorem State.beginDrain_wrPageMode : (s.beginDrain).wrPageMode = s.wrPageMode := rfl
@[simp] theorem State.beginDrain_erAddr : (s.beginDrain).erAddr = s.erAddr := rfl
@[simp] theorem State.beginDrain_erCount : (s.beginDrain).erCount = s.erCount := rfl
@[simp] theorem State.beginDrain_erIdx : (s.beginDrain).erIdx = s.erIdx := rfl
@[simp] theorem State.beginDrain_cs : (s.beginDrain).cs = s.cs := rfl
@[simp] theorem State.beginDrain_ledBusy : (s.beginDrain).ledBusy = s.ledBusy := rfl
@[simp] theorem State.beginDrain_faultCause : (s.beginDrain).faultCause = s.faultCause := rfl
@[simp] theorem State.beginDrain_rxQ : (s.beginDrain).rxQ = s.rxQ := rfl
@[simp] theorem State.beginDrain_txFinished : (s.beginDrain).txFinished = s.txFinished := rfl
@[simp] theorem State.beginDrain_trace : (s.beginDrain).trace = s.trace := rfl
@[simp] theorem State.beginDrain_flash : (s.beginDrain).flash = s.flash := rfl
@[simp] theorem State.beginDrain_host : (s.beginDrain).host = s.host := rfl
@[simp] theorem State.beginDrain_turns : (s.beginDrain).turns = s.turns := rfl
@[simp] theorem State.beginDrain_noise : (s.beginDrain).noise = s.noise := rfl

@[simp] theorem State.nextByte_cfg (q : Seq) : (s.nextByte q).cfg = s.cfg := rfl
@[simp] theorem State.nextByte_drv (q : Seq) : (s.nextByte q).drv = s.drv := rfl
@[simp] theorem State.nextByte_seq (q : Seq) : (s.nextByte q).seq = q := rfl
@[simp] theorem State.nextByte_micro (q : Seq) : (s.nextByte q).micro = s.micro := rfl
@[simp] theorem State.nextByte_op (q : Seq) : (s.nextByte q).op = s.op := rfl
@[simp] theorem State.nextByte_reqAddr (q : Seq) : (s.nextByte q).reqAddr = s.reqAddr := rfl
@[simp] theorem State.nextByte_reqLen (q : Seq) : (s.nextByte q).reqLen = s.reqLen := rfl
@[simp] theorem State.nextByte_hdrIdx (q : Seq) : (s.nextByte q).hdrIdx = s.hdrIdx := rfl
@[simp] theorem State.nextByte_curAddr (q : Seq) : (s.nextByte q).curAddr = s.curAddr := rfl
@[simp] theorem State.nextByte_rem (q : Seq) : (s.nextByte q).rem = s.rem := rfl
@[simp] theorem State.nextByte_chunkLen (q : Seq) : (s.nextByte q).chunkLen = s.chunkLen := rfl
@[simp] theorem State.nextByte_bufIdx (q : Seq) : (s.nextByte q).bufIdx = s.bufIdx + 1 := rfl
@[simp] theorem State.nextByte_idMfr (q : Seq) : (s.nextByte q).idMfr = s.idMfr := rfl
@[simp] theorem State.nextByte_idDev (q : Seq) : (s.nextByte q).idDev = s.idDev := rfl
@[simp] theorem State.nextByte_status (q : Seq) : (s.nextByte q).status = s.status := rfl
@[simp] theorem State.nextByte_buf (q : Seq) : (s.nextByte q).buf = s.buf := rfl
@[simp] theorem State.nextByte_wrOff (q : Seq) : (s.nextByte q).wrOff = s.wrOff := rfl
@[simp] theorem State.nextByte_wrPageMode (q : Seq) : (s.nextByte q).wrPageMode = s.wrPageMode := rfl
@[simp] theorem State.nextByte_erAddr (q : Seq) : (s.nextByte q).erAddr = s.erAddr := rfl
@[simp] theorem State.nextByte_erCount (q : Seq) : (s.nextByte q).erCount = s.erCount := rfl
@[simp] theorem State.nextByte_erIdx (q : Seq) : (s.nextByte q).erIdx = s.erIdx := rfl
@[simp] theorem State.nextByte_cs (q : Seq) : (s.nextByte q).cs = s.cs := rfl
@[simp] theorem State.nextByte_ledBusy (q : Seq) : (s.nextByte q).ledBusy = s.ledBusy := rfl
@[simp] theorem State.nextByte_faultCause (q : Seq) : (s.nextByte q).faultCause = s.faultCause := rfl
@[simp] theorem State.nextByte_rxQ (q : Seq) : (s.nextByte q).rxQ = s.rxQ := rfl
@[simp] theorem State.nextByte_txFinished (q : Seq) : (s.nextByte q).txFinished = s.txFinished := rfl
@[simp] theorem State.nextByte_trace (q : Seq) : (s.nextByte q).trace = s.trace := rfl
@[simp] theorem State.nextByte_flash (q : Seq) : (s.nextByte q).flash = s.flash := rfl
@[simp] theorem State.nextByte_host (q : Seq) : (s.nextByte q).host = s.host := rfl
@[simp] theorem State.nextByte_turns (q : Seq) : (s.nextByte q).turns = s.turns := rfl
@[simp] theorem State.nextByte_noise (q : Seq) : (s.nextByte q).noise = s.noise := rfl

@[simp] theorem State.beginRecv_cfg : (s.beginRecv).cfg = s.cfg := rfl
@[simp] theorem State.beginRecv_drv : (s.beginRecv).drv = s.drv := rfl
@[simp] theorem State.beginRecv_seq : (s.beginRecv).seq = .wrRecv := rfl
@[simp] theorem State.beginRecv_micro : (s.beginRecv).micro = s.micro := rfl
@[simp] theorem State.beginRecv_op : (s.beginRecv).op = s.op := rfl
@[simp] theorem State.beginRecv_reqAddr : (s.beginRecv).reqAddr = s.reqAddr := rfl
@[simp] theorem State.beginRecv_reqLen : (s.beginRecv).reqLen = s.reqLen := rfl
@[simp] theorem State.beginRecv_hdrIdx : (s.beginRecv).hdrIdx = s.hdrIdx := rfl
@[simp] theorem State.beginRecv_curAddr : (s.beginRecv).curAddr = s.curAddr := rfl
@[simp] theorem State.beginRecv_rem : (s.beginRecv).rem = s.rem := rfl
@[simp] theorem State.beginRecv_chunkLen : (s.beginRecv).chunkLen = s.chunkLen := rfl
@[simp] theorem State.beginRecv_bufIdx : (s.beginRecv).bufIdx = s.bufIdx := rfl
@[simp] theorem State.beginRecv_idMfr : (s.beginRecv).idMfr = s.idMfr := rfl
@[simp] theorem State.beginRecv_idDev : (s.beginRecv).idDev = s.idDev := rfl
@[simp] theorem State.beginRecv_status : (s.beginRecv).status = s.status := rfl
@[simp] theorem State.beginRecv_buf : (s.beginRecv).buf = s.buf := rfl
@[simp] theorem State.beginRecv_wrOff : (s.beginRecv).wrOff = s.wrOff := rfl
@[simp] theorem State.beginRecv_wrPageMode : (s.beginRecv).wrPageMode = s.wrPageMode := rfl
@[simp] theorem State.beginRecv_erAddr : (s.beginRecv).erAddr = s.erAddr := rfl
@[simp] theorem State.beginRecv_erCount : (s.beginRecv).erCount = s.erCount := rfl
@[simp] theorem State.beginRecv_erIdx : (s.beginRecv).erIdx = s.erIdx := rfl
@[simp] theorem State.beginRecv_cs : (s.beginRecv).cs = s.cs := rfl
@[simp] theorem State.beginRecv_ledBusy : (s.beginRecv).ledBusy = s.ledBusy := rfl
@[simp] theorem State.beginRecv_faultCause : (s.beginRecv).faultCause = s.faultCause := rfl
@[simp] theorem State.beginRecv_rxQ : (s.beginRecv).rxQ = s.rxQ := rfl
@[simp] theorem State.beginRecv_txFinished : (s.beginRecv).txFinished = s.txFinished := rfl
@[simp] theorem State.beginRecv_trace : (s.beginRecv).trace = s.trace := rfl
@[simp] theorem State.beginRecv_flash : (s.beginRecv).flash = s.flash := rfl
@[simp] theorem State.beginRecv_host : (s.beginRecv).host = s.host := rfl
@[simp] theorem State.beginRecv_turns : (s.beginRecv).turns = s.turns := rfl
@[simp] theorem State.beginRecv_noise : (s.beginRecv).noise = s.noise := rfl

@[simp] theorem State.beginErase_cfg : (s.beginErase).cfg = s.cfg := rfl
@[simp] theorem State.beginErase_drv : (s.beginErase).drv = s.drv := rfl
@[simp] theorem State.beginErase_seq : (s.beginErase).seq = .wrErase := rfl
@[simp] theorem State.beginErase_micro : (s.beginErase).micro = .issue 0 := rfl
@[simp] theorem State.beginErase_op : (s.beginErase).op = s.op := rfl
@[simp] theorem State.beginErase_reqAddr : (s.beginErase).reqAddr = s.reqAddr := rfl
@[simp] theorem State.beginErase_reqLen : (s.beginErase).reqLen = s.reqLen := rfl
@[simp] theorem State.beginErase_hdrIdx : (s.beginErase).hdrIdx = s.hdrIdx := rfl
@[simp] theorem State.beginErase_curAddr : (s.beginErase).curAddr = s.curAddr := rfl
@[simp] theorem State.beginErase_rem : (s.beginErase).rem = s.rem := rfl
@[simp] theorem State.beginErase_chunkLen : (s.beginErase).chunkLen = s.chunkLen := rfl
@[simp] theorem State.beginErase_bufIdx : (s.beginErase).bufIdx = s.bufIdx := rfl
@[simp] theorem State.beginErase_idMfr : (s.beginErase).idMfr = s.idMfr := rfl
@[simp] theorem State.beginErase_idDev : (s.beginErase).idDev = s.idDev := rfl
@[simp] theorem State.beginErase_status : (s.beginErase).status = s.status := rfl
@[simp] theorem State.beginErase_buf : (s.beginErase).buf = s.buf := rfl
@[simp] theorem State.beginErase_wrOff : (s.beginErase).wrOff = s.wrOff := rfl
@[simp] theorem State.beginErase_wrPageMode : (s.beginErase).wrPageMode = s.wrPageMode := rfl
@[simp] theorem State.beginErase_erAddr : (s.beginErase).erAddr = BitVec.ofNat 32 (s.coverFirst * s.cfg.sectorSize) := rfl
@[simp] theorem State.beginErase_erCount : (s.beginErase).erCount = BitVec.ofNat 32 s.coverCount := rfl
@[simp] theorem State.beginErase_erIdx : (s.beginErase).erIdx = if eraseWholeChip s.cfg (BitVec.ofNat 32 (s.coverFirst * s.cfg.sectorSize)) (BitVec.ofNat 32 s.coverCount) then s.erIdx else 0 := rfl
@[simp] theorem State.beginErase_cs : (s.beginErase).cs = s.cs := rfl
@[simp] theorem State.beginErase_ledBusy : (s.beginErase).ledBusy = s.ledBusy := rfl
@[simp] theorem State.beginErase_faultCause : (s.beginErase).faultCause = s.faultCause := rfl
@[simp] theorem State.beginErase_rxQ : (s.beginErase).rxQ = s.rxQ := rfl
@[simp] theorem State.beginErase_txFinished : (s.beginErase).txFinished = s.txFinished := rfl
@[simp] theorem State.beginErase_trace : (s.beginErase).trace = s.trace := rfl
@[simp] theorem State.beginErase_flash : (s.beginErase).flash = s.flash := rfl
@[simp] theorem State.beginErase_host : (s.beginErase).host = s.host := rfl
@[simp] theorem State.beginErase_turns : (s.beginErase).turns = s.turns := rfl
@[simp] theorem State.beginErase_noise : (s.beginErase).noise = s.noise := rfl

@[simp] theorem State.beginProgram_cfg : (s.beginProgram).cfg = s.cfg := rfl
@[simp] theorem State.beginProgram_drv : (s.beginProgram).drv = s.drv := rfl
@[simp] theorem State.beginProgram_seq : (s.beginProgram).seq = .wrProgram := rfl
@[simp] theorem State.beginProgram_micro : (s.beginProgram).micro = .issue 0 := rfl
@[simp] theorem State.beginProgram_op : (s.beginProgram).op = s.op := rfl
@[simp] theorem State.beginProgram_reqAddr : (s.beginProgram).reqAddr = s.reqAddr := rfl
@[simp] theorem State.beginProgram_reqLen : (s.beginProgram).reqLen = s.reqLen := rfl
@[simp] theorem State.beginProgram_hdrIdx : (s.beginProgram).hdrIdx = s.hdrIdx := rfl
@[simp] theorem State.beginProgram_curAddr : (s.beginProgram).curAddr = s.curAddr := rfl
@[simp] theorem State.beginProgram_rem : (s.beginProgram).rem = s.rem := rfl
@[simp] theorem State.beginProgram_chunkLen : (s.beginProgram).chunkLen = s.chunkLen := rfl
@[simp] theorem State.beginProgram_bufIdx : (s.beginProgram).bufIdx = s.bufIdx := rfl
@[simp] theorem State.beginProgram_idMfr : (s.beginProgram).idMfr = s.idMfr := rfl
@[simp] theorem State.beginProgram_idDev : (s.beginProgram).idDev = s.idDev := rfl
@[simp] theorem State.beginProgram_status : (s.beginProgram).status = s.status := rfl
@[simp] theorem State.beginProgram_buf : (s.beginProgram).buf = s.buf := rfl
@[simp] theorem State.beginProgram_wrOff : (s.beginProgram).wrOff = 0 := rfl
@[simp] theorem State.beginProgram_wrPageMode : (s.beginProgram).wrPageMode = pageAligned s.cfg s.curAddr := rfl
@[simp] theorem State.beginProgram_erAddr : (s.beginProgram).erAddr = s.erAddr := rfl
@[simp] theorem State.beginProgram_erCount : (s.beginProgram).erCount = s.erCount := rfl
@[simp] theorem State.beginProgram_erIdx : (s.beginProgram).erIdx = s.erIdx := rfl
@[simp] theorem State.beginProgram_cs : (s.beginProgram).cs = s.cs := rfl
@[simp] theorem State.beginProgram_ledBusy : (s.beginProgram).ledBusy = s.ledBusy := rfl
@[simp] theorem State.beginProgram_faultCause : (s.beginProgram).faultCause = s.faultCause := rfl
@[simp] theorem State.beginProgram_rxQ : (s.beginProgram).rxQ = s.rxQ := rfl
@[simp] theorem State.beginProgram_txFinished : (s.beginProgram).txFinished = s.txFinished := rfl
@[simp] theorem State.beginProgram_trace : (s.beginProgram).trace = s.trace := rfl
@[simp] theorem State.beginProgram_flash : (s.beginProgram).flash = s.flash := rfl
@[simp] theorem State.beginProgram_host : (s.beginProgram).host = s.host := rfl
@[simp] theorem State.beginProgram_turns : (s.beginProgram).turns = s.turns := rfl
@[simp] theorem State.beginProgram_noise : (s.beginProgram).noise = s.noise := rfl

@[simp] theorem State.nextSector_cfg : (s.nextSector).cfg = s.cfg := rfl
@[simp] theorem State.nextSector_drv : (s.nextSector).drv = s.drv := rfl
@[simp] theorem State.nextSector_seq : (s.nextSector).seq = s.seq := rfl
@[simp] theorem State.nextSector_micro : (s.nextSector).micro = .issue 0 := rfl
@[simp] theorem State.nextSector_op : (s.nextSector).op = s.op := rfl
@[simp] theorem State.nextSector_reqAddr : (s.nextSector).reqAddr = s.reqAddr := rfl
@[simp] theorem State.nextSector_reqLen : (s.nextSector).reqLen = s.reqLen := rfl
@[simp] theorem State.nextSector_hdrIdx : (s.nextSector).hdrIdx = s.hdrIdx := rfl
@[simp] theorem State.nextSector_curAddr : (s.nextSector).curAddr = s.curAddr := rfl
@[simp] theorem State.nextSector_rem : (s.nextSector).rem = s.rem := rfl
@[simp] theorem State.nextSector_chunkLen : (s.nextSector).chunkLen = s.chunkLen := rfl
@[simp] theorem State.nextSector_bufIdx : (s.nextSector).bufIdx = s.bufIdx := rfl
@[simp] theorem State.nextSector_idMfr : (s.nextSector).idMfr = s.idMfr := rfl
@[simp] theorem State.nextSector_idDev : (s.nextSector).idDev = s.idDev := rfl
@[simp] theorem State.nextSector_status : (s.nextSector).status = s.status := rfl
@[simp] theorem State.nextSector_buf : (s.nextSector).buf = s.buf := rfl
@[simp] theorem State.nextSector_wrOff : (s.nextSector).wrOff = s.wrOff := rfl
@[simp] theorem State.nextSector_wrPageMode : (s.nextSector).wrPageMode = s.wrPageMode := rfl
@[simp] theorem State.nextSector_erAddr : (s.nextSector).erAddr = s.erAddr := rfl
@[simp] theorem State.nextSector_erCount : (s.nextSector).erCount = s.erCount := rfl
@[simp] theorem State.nextSector_erIdx : (s.nextSector).erIdx = s.erIdx + 1 := rfl
@[simp] theorem State.nextSector_cs : (s.nextSector).cs = s.cs := rfl
@[simp] theorem State.nextSector_ledBusy : (s.nextSector).ledBusy = s.ledBusy := rfl
@[simp] theorem State.nextSector_faultCause : (s.nextSector).faultCause = s.faultCause := rfl
@[simp] theorem State.nextSector_rxQ : (s.nextSector).rxQ = s.rxQ := rfl
@[simp] theorem State.nextSector_txFinished : (s.nextSector).txFinished = s.txFinished := rfl
@[simp] theorem State.nextSector_trace : (s.nextSector).trace = s.trace := rfl
@[simp] theorem State.nextSector_flash : (s.nextSector).flash = s.flash := rfl
@[simp] theorem State.nextSector_host : (s.nextSector).host = s.host := rfl
@[simp] theorem State.nextSector_turns : (s.nextSector).turns = s.turns := rfl
@[simp] theorem State.nextSector_noise : (s.nextSector).noise = s.noise := rfl

@[simp] theorem State.nextProgram_cfg : (s.nextProgram).cfg = s.cfg := rfl
@[simp] theorem State.nextProgram_drv : (s.nextProgram).drv = s.drv := rfl
@[simp] theorem State.nextProgram_seq : (s.nextProgram).seq = s.seq := rfl
@[simp] theorem State.nextProgram_micro : (s.nextProgram).micro = .issue 0 := rfl
@[simp] theorem State.nextProgram_op : (s.nextProgram).op = s.op := rfl
@[simp] theorem State.nextProgram_reqAddr : (s.nextProgram).reqAddr = s.reqAddr := rfl
@[simp] theorem State.nextProgram_reqLen : (s.nextProgram).reqLen = s.reqLen := rfl
@[simp] theorem State.nextProgram_hdrIdx : (s.nextProgram).hdrIdx = s.hdrIdx := rfl
@[simp] theorem State.nextProgram_curAddr : (s.nextProgram).curAddr = s.curAddr := rfl
@[simp] theorem State.nextProgram_rem : (s.nextProgram).rem = s.rem := rfl
@[simp] theorem State.nextProgram_chunkLen : (s.nextProgram).chunkLen = s.chunkLen := rfl
@[simp] theorem State.nextProgram_bufIdx : (s.nextProgram).bufIdx = s.bufIdx := rfl
@[simp] theorem State.nextProgram_idMfr : (s.nextProgram).idMfr = s.idMfr := rfl
@[simp] theorem State.nextProgram_idDev : (s.nextProgram).idDev = s.idDev := rfl
@[simp] theorem State.nextProgram_status : (s.nextProgram).status = s.status := rfl
@[simp] theorem State.nextProgram_buf : (s.nextProgram).buf = s.buf := rfl
@[simp] theorem State.nextProgram_wrOff : (s.nextProgram).wrOff = s.wrOff + BitVec.ofNat 32 s.programLen := rfl
@[simp] theorem State.nextProgram_wrPageMode : (s.nextProgram).wrPageMode = s.wrPageMode := rfl
@[simp] theorem State.nextProgram_erAddr : (s.nextProgram).erAddr = s.erAddr := rfl
@[simp] theorem State.nextProgram_erCount : (s.nextProgram).erCount = s.erCount := rfl
@[simp] theorem State.nextProgram_erIdx : (s.nextProgram).erIdx = s.erIdx := rfl
@[simp] theorem State.nextProgram_cs : (s.nextProgram).cs = s.cs := rfl
@[simp] theorem State.nextProgram_ledBusy : (s.nextProgram).ledBusy = s.ledBusy := rfl
@[simp] theorem State.nextProgram_faultCause : (s.nextProgram).faultCause = s.faultCause := rfl
@[simp] theorem State.nextProgram_rxQ : (s.nextProgram).rxQ = s.rxQ := rfl
@[simp] theorem State.nextProgram_txFinished : (s.nextProgram).txFinished = s.txFinished := rfl
@[simp] theorem State.nextProgram_trace : (s.nextProgram).trace = s.trace := rfl
@[simp] theorem State.nextProgram_flash : (s.nextProgram).flash = s.flash := rfl
@[simp] theorem State.nextProgram_host : (s.nextProgram).host = s.host := rfl
@[simp] theorem State.nextProgram_turns : (s.nextProgram).turns = s.turns := rfl
@[simp] theorem State.nextProgram_noise : (s.nextProgram).noise = s.noise := rfl

@[simp] theorem State.storeByte_cfg (b : Byte) : (s.storeByte b).cfg = s.cfg := rfl
@[simp] theorem State.storeByte_drv (b : Byte) : (s.storeByte b).drv = s.drv := rfl
@[simp] theorem State.storeByte_seq (b : Byte) : (s.storeByte b).seq = s.seq := rfl
@[simp] theorem State.storeByte_micro (b : Byte) : (s.storeByte b).micro = s.micro := rfl
@[simp] theorem State.storeByte_op (b : Byte) : (s.storeByte b).op = s.op := rfl
@[simp] theorem State.storeByte_reqAddr (b : Byte) : (s.storeByte b).reqAddr = s.reqAddr := rfl
@[simp] theorem State.storeByte_reqLen (b : Byte) : (s.storeByte b).reqLen = s.reqLen := rfl
@[simp] theorem State.storeByte_hdrIdx (b : Byte) : (s.storeByte b).hdrIdx = s.hdrIdx := rfl
@[simp] theorem State.storeByte_curAddr (b : Byte) : (s.storeByte b).curAddr = s.curAddr := rfl
@[simp] theorem State.storeByte_rem (b : Byte) : (s.storeByte b).rem = s.rem := rfl
@[simp] theorem State.storeByte_chunkLen (b : Byte) : (s.storeByte b).chunkLen = s.chunkLen := rfl
@[simp] theorem State.storeByte_bufIdx (b : Byte) : (s.storeByte b).bufIdx = s.bufIdx := rfl
@[simp] theorem State.storeByte_idMfr (b : Byte) : (s.storeByte b).idMfr = s.idMfr := rfl
@[simp] theorem State.storeByte_idDev (b : Byte) : (s.storeByte b).idDev = s.idDev := rfl
@[simp] theorem State.storeByte_status (b : Byte) : (s.storeByte b).status = s.status := rfl
@[simp] theorem State.storeByte_buf (b : Byte) : (s.storeByte b).buf = s.buf.set s.bufIdx.toNat b := rfl
@[simp] theorem State.storeByte_wrOff (b : Byte) : (s.storeByte b).wrOff = s.wrOff := rfl
@[simp] theorem State.storeByte_wrPageMode (b : Byte) : (s.storeByte b).wrPageMode = s.wrPageMode := rfl
@[simp] theorem State.storeByte_erAddr (b : Byte) : (s.storeByte b).erAddr = s.erAddr := rfl
@[simp] theorem State.storeByte_erCount (b : Byte) : (s.storeByte b).erCount = s.erCount := rfl
@[simp] theorem State.storeByte_erIdx (b : Byte) : (s.storeByte b).erIdx = s.erIdx := rfl
@[simp] theorem State.storeByte_cs (b : Byte) : (s.storeByte b).cs = s.cs := rfl
@[simp] theorem State.storeByte_ledBusy (b : Byte) : (s.storeByte b).ledBusy = s.ledBusy := rfl
@[simp] theorem State.storeByte_faultCause (b : Byte) : (s.storeByte b).faultCause = s.faultCause := rfl
@[simp] theorem State.storeByte_rxQ (b : Byte) : (s.storeByte b).rxQ = s.rxQ := rfl
@[simp] theorem State.storeByte_txFinished (b : Byte) : (s.storeByte b).txFinished = s.txFinished := rfl
@[simp] theorem State.storeByte_trace (b : Byte) : (s.storeByte b).trace = s.trace := rfl
@[simp] theorem State.storeByte_flash (b : Byte) : (s.storeByte b).flash = s.flash := rfl
@[simp] theorem State.storeByte_host (b : Byte) : (s.storeByte b).host = s.host := rfl
@[simp] theorem State.storeByte_turns (b : Byte) : (s.storeByte b).turns = s.turns := rfl
@[simp] theorem State.storeByte_noise (b : Byte) : (s.storeByte b).noise = s.noise := rfl

@[simp] theorem State.takeTurn_cfg : (s.takeTurn).cfg = s.cfg := rfl
@[simp] theorem State.takeTurn_drv : (s.takeTurn).drv = s.drv := rfl
@[simp] theorem State.takeTurn_seq : (s.takeTurn).seq = s.seq := rfl
@[simp] theorem State.takeTurn_micro : (s.takeTurn).micro = s.micro := rfl
@[simp] theorem State.takeTurn_op : (s.takeTurn).op = s.op := rfl
@[simp] theorem State.takeTurn_reqAddr : (s.takeTurn).reqAddr = s.reqAddr := rfl
@[simp] theorem State.takeTurn_reqLen : (s.takeTurn).reqLen = s.reqLen := rfl
@[simp] theorem State.takeTurn_hdrIdx : (s.takeTurn).hdrIdx = s.hdrIdx := rfl
@[simp] theorem State.takeTurn_curAddr : (s.takeTurn).curAddr = s.curAddr := rfl
@[simp] theorem State.takeTurn_rem : (s.takeTurn).rem = s.rem := rfl
@[simp] theorem State.takeTurn_chunkLen : (s.takeTurn).chunkLen = s.chunkLen := rfl
@[simp] theorem State.takeTurn_bufIdx : (s.takeTurn).bufIdx = s.bufIdx := rfl
@[simp] theorem State.takeTurn_idMfr : (s.takeTurn).idMfr = s.idMfr := rfl
@[simp] theorem State.takeTurn_idDev : (s.takeTurn).idDev = s.idDev := rfl
@[simp] theorem State.takeTurn_status : (s.takeTurn).status = s.status := rfl
@[simp] theorem State.takeTurn_buf : (s.takeTurn).buf = s.buf := rfl
@[simp] theorem State.takeTurn_wrOff : (s.takeTurn).wrOff = s.wrOff := rfl
@[simp] theorem State.takeTurn_wrPageMode : (s.takeTurn).wrPageMode = s.wrPageMode := rfl
@[simp] theorem State.takeTurn_erAddr : (s.takeTurn).erAddr = s.erAddr := rfl
@[simp] theorem State.takeTurn_erCount : (s.takeTurn).erCount = s.erCount := rfl
@[simp] theorem State.takeTurn_erIdx : (s.takeTurn).erIdx = s.erIdx := rfl
@[simp] theorem State.takeTurn_cs : (s.takeTurn).cs = s.cs := rfl
@[simp] theorem State.takeTurn_ledBusy : (s.takeTurn).ledBusy = s.ledBusy := rfl
@[simp] theorem State.takeTurn_faultCause : (s.takeTurn).faultCause = s.faultCause := rfl
@[simp] theorem State.takeTurn_rxQ : (s.takeTurn).rxQ = s.rxQ := rfl
@[simp] theorem State.takeTurn_txFinished : (s.takeTurn).txFinished = s.txFinished := rfl
@[simp] theorem State.takeTurn_trace : (s.takeTurn).trace = s.trace := rfl
@[simp] theorem State.takeTurn_flash : (s.takeTurn).flash = s.flash := rfl
@[simp] theorem State.takeTurn_host : (s.takeTurn).host = s.host := rfl
@[simp] theorem State.takeTurn_turns : (s.takeTurn).turns = s.turns.tail := rfl
@[simp] theorem State.takeTurn_noise : (s.takeTurn).noise = s.noise := rfl

@[simp] theorem State.hardReset_cfg : (s.hardReset).cfg = s.cfg := rfl
@[simp] theorem State.hardReset_drv : (s.hardReset).drv = .uninitialized := rfl
@[simp] theorem State.hardReset_seq : (s.hardReset).seq = .reset := rfl
@[simp] theorem State.hardReset_micro : (s.hardReset).micro = .issue 0 := rfl
@[simp] theorem State.hardReset_op : (s.hardReset).op = 0 := rfl
@[simp] theorem State.hardReset_reqAddr : (s.hardReset).reqAddr = 0 := rfl
@[simp] theorem State.hardReset_reqLen : (s.hardReset).reqLen = 0 := rfl
@[simp] theorem State.hardReset_hdrIdx : (s.hardReset).hdrIdx = 0 := rfl
@[simp] theorem State.hardReset_curAddr : (s.hardReset).curAddr = 0 := rfl
@[simp] theorem State.hardReset_rem : (s.hardReset).rem = 0 := rfl
@[simp] theorem State.hardReset_chunkLen : (s.hardReset).chunkLen = 0 := rfl
@[simp] theorem State.hardReset_bufIdx : (s.hardReset).bufIdx = 0 := rfl
@[simp] theorem State.hardReset_idMfr : (s.hardReset).idMfr = 0 := rfl
@[simp] theorem State.hardReset_idDev : (s.hardReset).idDev = 0 := rfl
@[simp] theorem State.hardReset_status : (s.hardReset).status = 0 := rfl
@[simp] theorem State.hardReset_buf : (s.hardReset).buf = List.replicate s.cfg.sectorSize 0 := rfl
@[simp] theorem State.hardReset_wrOff : (s.hardReset).wrOff = 0 := rfl
@[simp] theorem State.hardReset_wrPageMode : (s.hardReset).wrPageMode = false := rfl
@[simp] theorem State.hardReset_erAddr : (s.hardReset).erAddr = 0 := rfl
@[simp] theorem State.hardReset_erCount : (s.hardReset).erCount = 0 := rfl
@[simp] theorem State.hardReset_erIdx : (s.hardReset).erIdx = 0 := rfl
@[simp] theorem State.hardReset_cs : (s.hardReset).cs = false := rfl
@[simp] theorem State.hardReset_ledBusy : (s.hardReset).ledBusy = false := rfl
@[simp] theorem State.hardReset_faultCause : (s.hardReset).faultCause = .none := rfl
@[simp] theorem State.hardReset_rxQ : (s.hardReset).rxQ = [] := rfl
@[simp] theorem State.hardReset_txFinished : (s.hardReset).txFinished = true := rfl
@[simp] theorem State.hardReset_trace : (s.hardReset).trace = s.trace := rfl
@[simp] theorem State.hardReset_flash : (s.hardReset).flash = s.flash.torn s.noise := rfl
@[simp] theorem State.hardReset_host : (s.hardReset).host = s.host := rfl
@[simp] theorem State.hardReset_turns : (s.hardReset).turns = s.turns := rfl
@[simp] theorem State.hardReset_noise : (s.hardReset).noise = s.noise + 1 := rfl

@[simp] theorem State.cutShort_cfg (k : Nat) (i : Instr) (t : State) : (s.cutShort k i t).cfg = t.cfg := rfl
@[simp] theorem State.cutShort_drv (k : Nat) (i : Instr) (t : State) : (s.cutShort k i t).drv = .uninitialized := rfl
@[simp] theorem State.cutShort_seq (k : Nat) (i : Instr) (t : State) : (s.cutShort k i t).seq = .reset := rfl
@[simp] theorem State.cutShort_micro (k : Nat) (i : Instr) (t : State) : (s.cutShort k i t).micro = .issue 0 := rfl
@[simp] theorem State.cutShort_op (k : Nat) (i : Instr) (t : State) : (s.cutShort k i t).op = 0 := rfl
@[simp] theorem State.cutShort_reqAddr (k : Nat) (i : Instr) (t : State) : (s.cutShort k i t).reqAddr = 0 := rfl
@[simp] theorem State.cutShort_reqLen (k : Nat) (i : Instr) (t : State) : (s.cutShort k i t).reqLen = 0 := rfl
@[simp] theorem State.cutShort_hdrIdx (k : Nat) (i : Instr) (t : State) : (s.cutShort k i t).hdrIdx = 0 := rfl
@[simp] theorem State.cutShort_curAddr (k : Nat) (i : Instr) (t : State) : (s.cutShort k i t).curAddr = 0 := rfl
@[simp] theorem State.cutShort_rem (k : Nat) (i : Instr) (t : State) : (s.cutShort k i t).rem = 0 := rfl
@[simp] theorem State.cutShort_chunkLen (k : Nat) (i : Instr) (t : State) : (s.cutShort k i t).chunkLen = 0 := rfl
@[simp] theorem State.cutShort_bufIdx (k : Nat) (i : Instr) (t : State) : (s.cutShort k i t).bufIdx = 0 := rfl
@[simp] theorem State.cutShort_idMfr (k : Nat) (i : Instr) (t : State) : (s.cutShort k i t).idMfr = 0 := rfl
@[simp] theorem State.cutShort_idDev (k : Nat) (i : Instr) (t : State) : (s.cutShort k i t).idDev = 0 := rfl
@[simp] theorem State.cutShort_status (k : Nat) (i : Instr) (t : State) : (s.cutShort k i t).status = 0 := rfl
@[simp] theorem State.cutShort_buf (k : Nat) (i : Instr) (t : State) : (s.cutShort k i t).buf = List.replicate t.cfg.sectorSize 0 := rfl
@[simp] theorem State.cutShort_wrOff (k : Nat) (i : Instr) (t : State) : (s.cutShort k i t).wrOff = 0 := rfl
@[simp] theorem State.cutShort_wrPageMode (k : Nat) (i : Instr) (t : State) : (s.cutShort k i t).wrPageMode = false := rfl
@[simp] theorem State.cutShort_erAddr (k : Nat) (i : Instr) (t : State) : (s.cutShort k i t).erAddr = 0 := rfl
@[simp] theorem State.cutShort_erCount (k : Nat) (i : Instr) (t : State) : (s.cutShort k i t).erCount = 0 := rfl
@[simp] theorem State.cutShort_erIdx (k : Nat) (i : Instr) (t : State) : (s.cutShort k i t).erIdx = 0 := rfl
@[simp] theorem State.cutShort_cs (k : Nat) (i : Instr) (t : State) : (s.cutShort k i t).cs = false := rfl
@[simp] theorem State.cutShort_ledBusy (k : Nat) (i : Instr) (t : State) : (s.cutShort k i t).ledBusy = false := rfl
@[simp] theorem State.cutShort_faultCause (k : Nat) (i : Instr) (t : State) : (s.cutShort k i t).faultCause = .none := rfl
@[simp] theorem State.cutShort_rxQ (k : Nat) (i : Instr) (t : State) : (s.cutShort k i t).rxQ = [] := rfl
@[simp] theorem State.cutShort_txFinished (k : Nat) (i : Instr) (t : State) : (s.cutShort k i t).txFinished = true := rfl
@[simp] theorem State.cutShort_trace (k : Nat) (i : Instr) (t : State) : (s.cutShort k i t).trace = s.trace ++ (t.trace.drop s.trace.length).dropLast.take (k + 1) := rfl
@[simp] theorem State.cutShort_host (k : Nat) (i : Instr) (t : State) : (s.cutShort k i t).host = t.host := rfl
@[simp] theorem State.cutShort_turns (k : Nat) (i : Instr) (t : State) : (s.cutShort k i t).turns = t.turns := rfl
@[simp] theorem State.cutShort_noise (k : Nat) (i : Instr) (t : State) : (s.cutShort k i t).noise = t.noise + 1 := rfl

end State


section Flash
variable (f : Flash)

@[simp] theorem Flash.raw_mem (b : List Byte) : (f.raw b).mem = f.mem := rfl
@[simp] theorem Flash.raw_wip (b : List Byte) : (f.raw b).wip = f.wip := rfl
@[simp] theorem Flash.raw_opBase (b : List Byte) : (f.raw b).opBase = f.opBase := rfl
@[simp] theorem Flash.raw_opLen (b : List Byte) : (f.raw b).opLen = f.opLen := rfl
@[simp] theorem Flash.raw_busyPolls (b : List Byte) : (f.raw b).busyPolls = f.busyPolls := rfl
@[simp] theorem Flash.raw_draws (b : List Byte) : (f.raw b).draws = f.draws := rfl
@[simp] theorem Flash.raw_chipMfr (b : List Byte) : (f.raw b).chipMfr = f.chipMfr := rfl
@[simp] theorem Flash.raw_chipDev (b : List Byte) : (f.raw b).chipDev = f.chipDev := rfl
@[simp] theorem Flash.raw_rawRun (b : List Byte) : (f.raw b).rawRun = f.rawRun ++ [b] := rfl

@[simp] theorem Flash.endRaw_mem : (f.endRaw).mem = f.mem := rfl
@[simp] theorem Flash.endRaw_wip : (f.endRaw).wip = f.wip := rfl
@[simp] theorem Flash.endRaw_opBase : (f.endRaw).opBase = f.opBase := rfl
@[simp] theorem Flash.endRaw_opLen : (f.endRaw).opLen = f.opLen := rfl
@[simp] theorem Flash.endRaw_busyPolls : (f.endRaw).busyPolls = f.busyPolls := rfl
@[simp] theorem Flash.endRaw_draws : (f.endRaw).draws = f.draws := rfl
@[simp] theorem Flash.endRaw_chipMfr : (f.endRaw).chipMfr = f.chipMfr := rfl
@[simp] theorem Flash.endRaw_chipDev : (f.endRaw).chipDev = f.chipDev := rfl
@[simp] theorem Flash.endRaw_rawRun : (f.endRaw).rawRun = [] := rfl

@[simp] theorem Flash.finish_mem : (f.finish).mem = f.mem := rfl
@[simp] theorem Flash.finish_wip : (f.finish).wip = false := rfl
@[simp] theorem Flash.finish_opBase : (f.finish).opBase = f.opBase := rfl
@[simp] theorem Flash.finish_opLen : (f.finish).opLen = f.opLen := rfl
@[simp] theorem Flash.finish_busyPolls : (f.finish).busyPolls = f.busyPolls := rfl
@[simp] theorem Flash.finish_draws : (f.finish).draws = f.draws := rfl
@[simp] theorem Flash.finish_chipMfr : (f.finish).chipMfr = f.chipMfr := rfl
@[simp] theorem Flash.finish_chipDev : (f.finish).chipDev = f.chipDev := rfl
@[simp] theorem Flash.finish_rawRun : (f.finish).rawRun = if f.wip then [] else f.rawRun := rfl

@[simp] theorem Flash.begin_mem (m : Memory) (base len : Nat) : (f.begin m base len).mem = m := rfl
@[simp] theorem Flash.begin_wip (m : Memory) (base len : Nat) : (f.begin m base len).wip = true := rfl
@[simp] theorem Flash.begin_opBase (m : Memory) (base len : Nat) : (f.begin m base len).opBase = base := rfl
@[simp] theorem Flash.begin_opLen (m : Memory) (base len : Nat) : (f.begin m base len).opLen = len := rfl
@[simp] theorem Flash.begin_busyPolls (m : Memory) (base len : Nat) : (f.begin m base len).busyPolls = f.draws.headD (some 0) := rfl
@[simp] theorem Flash.begin_draws (m : Memory) (base len : Nat) : (f.begin m base len).draws = f.draws.tail := rfl
@[simp] theorem Flash.begin_chipMfr (m : Memory) (base len : Nat) : (f.begin m base len).chipMfr = f.chipMfr := rfl
@[simp] theorem Flash.begin_chipDev (m : Memory) (base len : Nat) : (f.begin m base len).chipDev = f.chipDev := rfl
@[simp] theorem Flash.begin_rawRun (m : Memory) (base len : Nat) : (f.begin m base len).rawRun = f.rawRun := rfl

end Flash


section HostSide
variable (h : HostSide)

@[simp] theorem HostSide.receive_commands (b : Byte) : (h.receive b).commands = h.commands := rfl
@[simp] theorem HostSide.receive_script (b : Byte) : (h.receive b).script = h.script := rfl
@[simp] theorem HostSide.receive_inbox (b : Byte) : (h.receive b).inbox = h.inbox ++ [b] := rfl
@[simp] theorem HostSide.receive_sink (b : Byte) : (h.receive b).sink = h.sink := rfl
@[simp] theorem HostSide.receive_sinkRoom (b : Byte) : (h.receive b).sinkRoom = h.sinkRoom := rfl
@[simp] theorem HostSide.receive_rooms (b : Byte) : (h.receive b).rooms = h.rooms := rfl
@[simp] theorem HostSide.receive_warnings (b : Byte) : (h.receive b).warnings = h.warnings := rfl

@[simp] theorem HostSide.goOn_commands (rest : List HostAct) : (h.goOn rest).commands = h.commands := rfl
@[simp] theorem HostSide.goOn_script (rest : List HostAct) : (h.goOn rest).script = rest := rfl
@[simp] theorem HostSide.goOn_inbox (rest : List HostAct) : (h.goOn rest).inbox = h.inbox := rfl
@[simp] theorem HostSide.goOn_sink (rest : List HostAct) : (h.goOn rest).sink = h.sink := rfl
@[simp] theorem HostSide.goOn_sinkRoom (rest : List HostAct) : (h.goOn rest).sinkRoom = h.sinkRoom := rfl
@[simp] theorem HostSide.goOn_rooms (rest : List HostAct) : (h.goOn rest).rooms = h.rooms := rfl
@[simp] theorem HostSide.goOn_warnings (rest : List HostAct) : (h.goOn rest).warnings = h.warnings := rfl

@[simp] theorem HostSide.enqueue_commands (acts : List HostAct) : (h.enqueue acts).commands = h.commands := rfl
@[simp] theorem HostSide.enqueue_script (acts : List HostAct) : (h.enqueue acts).script = h.script ++ acts := rfl
@[simp] theorem HostSide.enqueue_inbox (acts : List HostAct) : (h.enqueue acts).inbox = h.inbox := rfl
@[simp] theorem HostSide.enqueue_sink (acts : List HostAct) : (h.enqueue acts).sink = h.sink := rfl
@[simp] theorem HostSide.enqueue_sinkRoom (acts : List HostAct) : (h.enqueue acts).sinkRoom = h.sinkRoom := rfl
@[simp] theorem HostSide.enqueue_rooms (acts : List HostAct) : (h.enqueue acts).rooms = h.rooms := rfl
@[simp] theorem HostSide.enqueue_warnings (acts : List HostAct) : (h.enqueue acts).warnings = h.warnings := rfl

@[simp] theorem HostSide.openSink_commands : (h.openSink).commands = h.commands := rfl
@[simp] theorem HostSide.openSink_script : (h.openSink).script = h.script := rfl
@[simp] theorem HostSide.openSink_inbox : (h.openSink).inbox = h.inbox := rfl
@[simp] theorem HostSide.openSink_sink : (h.openSink).sink = [] := rfl
@[simp] theorem HostSide.openSink_sinkRoom : (h.openSink).sinkRoom = h.rooms.headD none := rfl
@[simp] theorem HostSide.openSink_rooms : (h.openSink).rooms = h.rooms.tail := rfl
@[simp] theorem HostSide.openSink_warnings : (h.openSink).warnings = h.warnings := rfl

end HostSide

section Conditional
variable (s : State) (h : Byte)

@[simp] theorem State.latchHeader_cfg : (s.latchHeader h).cfg = s.cfg := by
  unfold State.latchHeader; split <;> rfl
@[simp] theorem State.latchHeader_drv : (s.latchHeader h).drv = s.drv := by
  unfold State.latchHeader; split <;> rfl
@[simp] theorem State.latchHeader_seq : (s.latchHeader h).seq = s.seq := by
  unfold State.latchHeader; split <;> rfl
@[simp] theorem State.latchHeader_micro : (s.latchHeader h).micro = s.micro := by
  unfold State.latchHeader; split <;> rfl
@[simp] theorem State.latchHeader_op : (s.latchHeader h).op = s.op := by
  unfold State.latchHeader; split <;> rfl
@[simp] theorem State.latchHeader_reqAddr : (s.latchHeader h).reqAddr = if s.hdrIdx.toNat < 4 then shiftIn s.reqAddr h else s.reqAddr := by
  unfold State.latchHeader; split <;> rfl
@[simp] theorem State.latchHeader_reqLen : (s.latchHeader h).reqLen = if s.hdrIdx.toNat < 4 then s.reqLen else shiftIn s.reqLen h := by
  unfold State.latchHeader; split <;> rfl
@[simp] theorem State.latchHeader_hdrIdx : (s.latchHeader h).hdrIdx = s.hdrIdx := by
  unfold State.latchHeader; split <;> rfl
@[simp] theorem State.latchHeader_curAddr : (s.latchHeader h).curAddr = s.curAddr := by
  unfold State.latchHeader; split <;> rfl
@[simp] theorem State.latchHeader_rem : (s.latchHeader h).rem = s.rem := by
  unfold State.latchHeader; split <;> rfl
@[simp] theorem State.latchHeader_chunkLen : (s.latchHeader h).chunkLen = s.chunkLen := by
  unfold State.latchHeader; split <;> rfl
@[simp] theorem State.latchHeader_bufIdx : (s.latchHeader h).bufIdx = s.bufIdx := by
  unfold State.latchHeader; split <;> rfl
@[simp] theorem State.latchHeader_idMfr : (s.latchHeader h).idMfr = s.idMfr := by
  unfold State.latchHeader; split <;> rfl
@[simp] theorem State.latchHeader_idDev : (s.latchHeader h).idDev = s.idDev := by
  unfold State.latchHeader; split <;> rfl
@[simp] theorem State.latchHeader_status : (s.latchHeader h).status = s.status := by
  unfold State.latchHeader; split <;> rfl
@[simp] theorem State.latchHeader_buf : (s.latchHeader h).buf = s.buf := by
  unfold State.latchHeader; split <;> rfl
@[simp] theorem State.latchHeader_wrOff : (s.latchHeader h).wrOff = s.wrOff := by
  unfold State.latchHeader; split <;> rfl
@[simp] theorem State.latchHeader_wrPageMode : (s.latchHeader h).wrPageMode = s.wrPageMode := by
  unfold State.latchHeader; split <;> rfl
@[simp] theorem State.latchHeader_erAddr : (s.latchHeader h).erAddr = s.erAddr := by
  unfold State.latchHeader; split <;> rfl
@[simp] theorem State.latchHeader_erCount : (s.latchHeader h).erCount = s.erCount := by
  unfold State.latchHeader; split <;> rfl
@[simp] theorem State.latchHeader_erIdx : (s.latchHeader h).erIdx = s.erIdx := by
  unfold State.latchHeader; split <;> rfl
@[simp] theorem State.latchHeader_cs : (s.latchHeader h).cs = s.cs := by
  unfold State.latchHeader; split <;> rfl
@[simp] theorem State.latchHeader_ledBusy : (s.latchHeader h).ledBusy = s.ledBusy := by
  unfold State.latchHeader; split <;> rfl
@[simp] theorem State.latchHeader_faultCause : (s.latchHeader h).faultCause = s.faultCause := by
  unfold State.latchHeader; split <;> rfl
@[simp] theorem State.latchHeader_rxQ : (s.latchHeader h).rxQ = s.rxQ := by
  unfold State.latchHeader; split <;> rfl
@[simp] theorem State.latchHeader_txFinished : (s.latchHeader h).txFinished = s.txFinished := by
  unfold State.latchHeader; split <;> rfl
@[simp] theorem State.latchHeader_trace : (s.latchHeader h).trace = s.trace := by
  unfold State.latchHeader; split <;> rfl
@[simp] theorem State.latchHeader_flash : (s.latchHeader h).flash = s.flash := by
  unfold State.latchHeader; split <;> rfl
@[simp] theorem State.latchHeader_host : (s.latchHeader h).host = s.host := by
  unfold State.latchHeader; split <;> rfl
@[simp] theorem State.latchHeader_turns : (s.latchHeader h).turns = s.turns := by
  unfold State.latchHeader; split <;> rfl
@[simp] theorem State.latchHeader_noise : (s.latchHeader h).noise = s.noise := by
  unfold State.latchHeader; split <;> rfl

end Conditional

end Sys2Proof.Machine
end

