-- ==== Sys2Proof/Laws/Exec.lean ====
section
/-!
SUPPORT. Laws/Exec.lean: what each shared gate and each meaning can do, said once: if it answers a next state, then this
holds of the state it started from, and this is the next state.
-/
namespace Sys2Proof.Machine

/-! ## Gates -/

theorem whenReady_next {s t : State} {k : Outcome} : whenReady s k = .next t ↔ s.drv = .ready ∧ k = .next t := by
  unfold whenReady; split <;> simp_all

theorem unlessFaulted_next {s t : State} {k : Outcome} :
    unlessFaulted s k = .next t ↔ s.drv ≠ .faulted ∧ k = .next t := by
  unfold unlessFaulted; split <;> simp_all

theorem unlessBusy_next {s t : State} {k : Outcome} :
    unlessBusy s k = .next t ↔ s.flash.wip = false ∧ k = .next t := by
  unfold unlessBusy; split <;> simp_all

theorem andThen_next {o : Outcome} {k : State → Outcome} {t : State} :
    andThen o k = .next t ↔ ∃ m, o = .next m ∧ k m = .next t := by
  cases o <;> simp [andThen]

theorem next_eq {a t : State} : ((.next a : Outcome) = .next t) ↔ t = a :=
  ⟨by rintro ⟨⟩; rfl, by rintro rfl; rfl⟩

theorem refused_or {p : Prop} [Decidable p] {r : Refusal} {k : Outcome} {t : State} :
    (if p then .refused r else k) = .next t ↔ ¬p ∧ k = .next t := by
  split <;> simp_all

theorem fault_or {p : Prop} [Decidable p] {r : Fault} {k : Outcome} {t : State} :
    (if p then .fault r else k) = .next t ↔ ¬p ∧ k = .next t := by
  split <;> simp_all

theorem same_or {p : Prop} [Decidable p] {k : Outcome} {s t : State} :
    (if p then .next s else k) = .next t ↔ (p ∧ t = s) ∨ (¬p ∧ k = .next t) := by
  by_cases h : p
  · rw [if_pos h, next_eq]; exact ⟨fun e => .inl ⟨h, e⟩, fun e => e.elim And.right fun e => absurd h e.1⟩
  · rw [if_neg h]; exact ⟨fun e => .inr ⟨h, e⟩, fun e => e.elim (fun e => absurd e.1 h) And.right⟩

theorem whenReady_of {s : State} (h : s.drv = .ready) (k : Outcome) : whenReady s k = k := if_pos h

theorem unlessFaulted_of {s : State} (h : s.drv ≠ .faulted) (k : Outcome) : unlessFaulted s k = k := if_neg h

theorem unlessBusy_of {s : State} (h : s.flash.wip = false) (k : Outcome) : unlessBusy s k = k := by
  simp [unlessBusy, h]

/-! ## The chip -/

theorem Flash.poll_mem (f : Flash) : f.poll.mem = f.mem := by unfold Flash.poll; split <;> rfl
theorem Flash.poll_opBase (f : Flash) : f.poll.opBase = f.opBase := by unfold Flash.poll; split <;> rfl
theorem Flash.poll_opLen (f : Flash) : f.poll.opLen = f.opLen := by unfold Flash.poll; split <;> rfl
theorem Flash.poll_chipMfr (f : Flash) : f.poll.chipMfr = f.chipMfr := by unfold Flash.poll; split <;> rfl
theorem Flash.poll_chipDev (f : Flash) : f.poll.chipDev = f.chipDev := by unfold Flash.poll; split <;> rfl
theorem Flash.poll_draws (f : Flash) : f.poll.draws = f.draws := by unfold Flash.poll; split <;> rfl
theorem Flash.poll_idle {f : Flash} (h : f.wip = false) : f.poll = f.endRaw := by unfold Flash.poll; rw [h]
theorem Flash.poll_forever {f : Flash} (hw : f.wip = true) (h : f.busyPolls = none) : f.poll = f := by
  unfold Flash.poll; rw [hw, h]

/-- The chip's own step ends an operation and clears the latch (R59, R39, R60) ... -/
theorem Flash.finish_busy {f : Flash} (h : f.wip = true) : f.finish = { f with wip := false, rawRun := [] } := by
  simp [Flash.finish, h]

/-- ... and does nothing to an idle chip. -/
theorem Flash.finish_idle {f : Flash} (h : f.wip = false) : f.finish = f := by
  cases f; simp_all [Flash.finish]

/-- With no raw transaction behind it the chip is write enabled only if the prelude is empty (R60). -/
theorem Flash.wel_of_rawRun_nil {c : Config} {f : Flash} (h : f.rawRun = []) :
    f.wel c = c.writePrelude.isEmpty := by
  unfold Flash.wel; rw [h]
  rw [Bool.eq_iff_iff]; simp

/-- The status read that first sees the operation ended finds the latch cleared (R39, R60). -/
theorem Flash.poll_ends {f : Flash} (hw : f.wip = true) (h : f.poll.wip = false) : f.poll.rawRun = [] := by
  revert h
  unfold Flash.poll
  split <;> simp_all

/-- A status read that sees the operation in progress leaves the latch. -/
theorem Flash.poll_rawRun_busy {f : Flash} (h : f.poll.wip = true) : f.poll.rawRun = f.rawRun := by
  revert h
  unfold Flash.poll
  split <;> simp_all

/-- A poll sees the operation busy unless its draw has run out (R59). -/
theorem Flash.poll_wip (f : Flash) : f.poll.wip = (f.wip && f.busyPolls != some 0) := by
  unfold Flash.poll
  rcases hw : f.wip with _ | _
  · simp [hw]
  · rcases hb : f.busyPolls with _ | _ | k <;> simp [hw]

/-! ### A reset of the chip's operation (R223) -/

theorem Flash.torn_idle {f : Flash} {d : Nat} (h : f.wip = false) : f.torn d = f := by simp [Flash.torn, h]

theorem Flash.torn_wip (f : Flash) (d : Nat) : (f.torn d).wip = f.wip := by unfold Flash.torn; split <;> rfl

/-- Outside the bytes of the operation nothing changes. -/
theorem Flash.read_torn {f : Flash} {d x : Nat} (hm : f.mem.wf = true)
    (hx : x < f.opBase ∨ f.opBase + f.opLen ≤ x) : Memory.read (f.torn d).mem x = Memory.read f.mem x := by
  unfold Flash.torn
  split
  · simp only [(Memory.read_tear d f.opBase x hm f.opLen).2]
    rw [if_neg]; omega
  · rfl

/-- What a program or erase makes of the chip: nothing without the write enable (R60), else the operation begins. -/
theorem Flash.modify_cases (c : Config) (f : Flash) (m : Memory) (b n : Nat) :
    (f.wel c = true ∧ f.modify c m b n = f.begin m b n) ∨ (f.wel c = false ∧ f.modify c m b n = f.endRaw) := by
  unfold Flash.modify; split <;> simp_all

/-- The `WIP_MASK` bit of a status byte tells the operation in progress, whatever the free bits are (R59, R125). -/
theorem busyBit_statusByte {c : Config} (h : c.wipMask ≠ 0) (wip : Bool) (d : Nat) :
    busyBit c (statusByte c wip d) = wip := by
  unfold busyBit statusByte
  cases wip
  · have : Config.statusNoise d &&& ~~~c.wipMask &&& c.wipMask = 0 := by
      rw [BitVec.and_assoc]; ext i hi; simp
    simp [this]
  · have : (Config.statusNoise d ||| c.wipMask) &&& c.wipMask = c.wipMask := by
      ext i hi; simp; intro h; exact .inr h
    simp only [if_true, this]
    simpa using h

/-- The same, as a condition on the byte. -/
theorem statusByte_and_wipMask {c : Config} (h : c.wipMask ≠ 0) (wip : Bool) (d : Nat) :
    statusByte c wip d &&& c.wipMask ≠ 0 ↔ wip = true := by
  simpa [busyBit] using Bool.eq_iff_iff.1 (busyBit_statusByte h wip d)

/-! ## Meanings: the two commands -/

theorem acceptRequest_next {s t : State} {o : Byte} {a n : Word} :
    acceptRequest s o a n = .next t ↔
      s.drv = .ready ∧ a.toNat + n.toNat ≤ s.cfg.totalSize ∧ t = s.loadCursor o a n := by
  unfold acceptRequest inContract
  rw [whenReady_next]
  by_cases h : a.toNat + n.toNat ≤ s.cfg.totalSize
  · rw [if_pos (by simpa using h), next_eq]; simp only [h, true_and]
  · rw [if_neg (by simpa using h)]; simp only [h, false_and, and_false, reduceCtorEq]

theorem execReadFlash_next {s t : State} {a n : Word} :
    execReadFlash a n s = .next t ↔
      s.drv = .ready ∧ a.toNat + n.toNat ≤ s.cfg.totalSize ∧ t = s.loadCursor opReadFlash a n := acceptRequest_next

theorem execWriteFlash_next {s t : State} {a n : Word} :
    execWriteFlash a n s = .next t ↔
      s.drv = .ready ∧ a.toNat + n.toNat ≤ s.cfg.totalSize ∧ t = s.loadCursor opWriteFlash a n := acceptRequest_next

theorem execReady_next {s t : State} :
    execReady s = .next t ↔ s.drv = .ready ∧ t = s.serialWrite readyByte := by
  unfold execReady; rw [whenReady_next, next_eq]

/-! ## Meanings: the SPI transactions -/

theorem execTRaw_next {s t : State} {b : List Byte} :
    execTRaw b s = .next t ↔
      s.drv ≠ .faulted ∧ b ≠ [] ∧ t = (s.spi (sent b)).setFlash (s.flash.raw b) := by
  unfold execTRaw; rw [unlessFaulted_next, refused_or, next_eq]

/-- The state after an identity read. -/
def State.afterReadId (s : State) : State :=
  ((s.spi (sent [s.cfg.cmdReadId] ++ kept s.cfg (identityBytes s.flash))).setFlash s.flash.endRaw).latchIdentity
    s.flash.chipMfr (deviceId (s.flash.chipDev.extractLsb' 8 8) (s.flash.chipDev.extractLsb' 0 8))

theorem execTReadId_next {s t : State} :
    execTReadId s = .next t ↔ s.drv ≠ .faulted ∧ t = s.afterReadId := by
  unfold execTReadId State.afterReadId; rw [unlessFaulted_next, next_eq]

/-- The two device id bytes make the chip's device id again (R61, R95). -/
theorem deviceId_bytes (d : Half) : deviceId (d.extractLsb' 8 8) (d.extractLsb' 0 8) = d := by
  unfold deviceId
  ext i hi
  simp only [BitVec.getElem_append, BitVec.getElem_extractLsb']
  split
  · simp [BitVec.getLsbD_eq_getElem hi]
  · rw [show 8 + (i - 8) = i by omega, BitVec.getLsbD_eq_getElem hi]

/-- The state after a status read. -/
def State.afterReadStatus (s : State) : State :=
  ((s.spi (sent [s.cfg.cmdReadStatus] ++ kept s.cfg [statusByte s.cfg s.flash.poll.wip s.noise])).setFlash
    s.flash.poll).latchStatus (statusByte s.cfg s.flash.poll.wip s.noise)

theorem execTReadStatus_next {s t : State} :
    execTReadStatus s = .next t ↔ s.drv = .ready ∧ t = s.afterReadStatus := by
  unfold execTReadStatus State.afterReadStatus; rw [whenReady_next, next_eq]

/-- The state after a read burst. -/
def State.afterRead (s : State) (a n : Word) : State :=
  ((s.spi (sent (addressed s.cfg s.cfg.cmdRead a)
      ++ kept s.cfg (Memory.slice s.flash.mem (spiAddr s.cfg a) n.toNat))).setFlash s.flash.endRaw).fillBuf
    (Memory.slice s.flash.mem (spiAddr s.cfg a) n.toNat)

theorem execTRead_next {s t : State} {a n : Word} :
    execTRead a n s = .next t ↔ s.drv = .ready ∧
      ((n = 0 ∧ t = s) ∨
        (n ≠ 0 ∧ n.toNat ≤ s.cfg.sectorSize ∧ spiAddr s.cfg a + n.toNat ≤ s.cfg.totalSize ∧ s.flash.wip = false ∧
          t = s.afterRead a n)) := by
  unfold execTRead State.afterRead
  rw [whenReady_next, same_or, fault_or, refused_or, unlessBusy_next, next_eq, Nat.not_lt, Nat.not_lt]

/-- The state after a program transaction. -/
def State.afterProgram (s : State) (a : Word) (d : List Byte) : State :=
  (s.spi (sent (addressed s.cfg s.cfg.cmdProgram a ++ d))).setFlash (s.flash.program s.cfg (spiAddr s.cfg a) d)

theorem execTProgram_next {s t : State} {a : Word} {d : List Byte} :
    execTProgram a d s = .next t ↔ s.drv = .ready ∧
      ((d = [] ∧ t = s) ∨
        (d ≠ [] ∧ spiAddr s.cfg a < s.cfg.totalSize ∧ s.flash.wip = false ∧ t = s.afterProgram a d)) := by
  unfold execTProgram State.afterProgram
  rw [whenReady_next, same_or, refused_or, unlessBusy_next, next_eq, Nat.not_le]

/-- The state after a sector erase. -/
def State.afterSectorErase (s : State) (a : Word) : State :=
  (s.spi (sent (addressed s.cfg s.cfg.cmdSectorErase a))).setFlash (s.flash.sectorErase s.cfg (spiAddr s.cfg a))

theorem execTSectorErase_next {s t : State} {a : Word} :
    execTSectorErase a s = .next t ↔ s.drv = .ready ∧ spiAddr s.cfg a % s.cfg.sectorSize = 0 ∧
      spiAddr s.cfg a + s.cfg.sectorSize ≤ s.cfg.totalSize ∧ s.flash.wip = false ∧ t = s.afterSectorErase a := by
  unfold execTSectorErase State.afterSectorErase
  rw [whenReady_next, refused_or, refused_or, unlessBusy_next, next_eq, Nat.not_lt, not_not]

/-- The state after a chip erase. -/
def State.afterChipErase (s : State) : State :=
  (s.spi (sent [s.cfg.cmdChipErase])).setFlash (s.flash.chipErase s.cfg)

theorem execTChipErase_next {s t : State} :
    execTChipErase s = .next t ↔ s.drv = .ready ∧ s.flash.wip = false ∧ t = s.afterChipErase := by
  unfold execTChipErase State.afterChipErase; rw [whenReady_next, unlessBusy_next, next_eq]

/-! ## Meanings: the command lines -/

theorem execCliR_next {s t : State} {a n : Word} :
    execCliR a n s = .next t ↔ t = s.setHost (s.host.openSink.enqueue
      (sendAll (frameHeader opReadFlash a n) ++ List.replicate n.toNat .takeData)) := by
  unfold execCliR; rw [next_eq]

theorem execCliW_next {s t : State} {a n : Word} {file : List Byte} :
    execCliW a n file s = .next t ↔ t = s.setHost (s.host.enqueue
      (sendAll (frameHeader opWriteFlash a n) ++ payloadScript n.toNat file)) := by
  unfold execCliW; rw [next_eq]

theorem execCliD_next {s t : State} {a n : Word} :
    execCliD a n s = .next t ↔ n.toNat * 4 < 2 ^ 32 ∧ t = s.setHost (s.host.openSink.enqueue
      (sendAll (frameHeader opReadFlash a (dumpLength n)) ++ List.replicate (dumpLength n).toNat .takeData)) := by
  unfold execCliD; rw [refused_or, next_eq, Nat.not_le]

end Sys2Proof.Machine
end

