-- ==== Sys2Proof/Laws/PerInstr.lean ====
section
/-!
SUPPORT. Laws/PerInstr.lean: statements made for each instruction. Family `EncodeLength`: how many bytes an instruction's
encoding has (spec/30_encoding.md R86, the "Number of exchanges" of R92 to R95 and R97).
-/
namespace Sys2Proof

/-- Bytes on the instruction's link (R86, R92 to R95, R97, R99). -/
def Instr.byteCount (c : Config) : Instr → Nat
  | .readFlash _ _ => 9
  | .writeFlash _ _ => 9
  | .ignored _ => 1
  | .ready => 1
  | .tRaw b => b.length
  | .tReadId => 4
  | .tReadStatus => 2
  | .tRead _ n => 1 + c.addrBytes + n.toNat
  | .tProgram _ d => 1 + c.addrBytes + d.length
  | .tSectorErase _ => 1 + c.addrBytes
  | .tChipErase => 1
  | .cliR _ _ => 9
  | .cliW _ n file => 9 + min n.toNat file.length
  | .cliD _ _ => 9

namespace Laws.EncodeLength

/-- The encoding of `i` has `byteCount` bytes. -/
def Statement (i : Instr) : Prop :=
  ∀ c : Config, c.addrBytes ≤ 4 → (encode c i).length = i.byteCount c

theorem readFlash (a n : Word) : Statement (.readFlash a n) := fun _ _ => rfl
theorem writeFlash (a n : Word) : Statement (.writeFlash a n) := fun _ _ => rfl
theorem ignored (b : Byte) : Statement (.ignored b) := fun _ _ => rfl
theorem ready : Statement .ready := fun _ _ => rfl
theorem tRaw (b : List Byte) : Statement (.tRaw b) := fun _ _ => rfl
theorem tReadId : Statement .tReadId := fun _ _ => rfl
theorem tReadStatus : Statement .tReadStatus := fun _ _ => rfl

theorem tRead (a n : Word) : Statement (.tRead a n) := fun c h => by
  simp only [encode, Instr.byteCount, List.length_cons, List.length_append, length_addrBytesOf h,
    List.length_replicate]
  omega

theorem tProgram (a : Word) (d : List Byte) : Statement (.tProgram a d) := fun c h => by
  simp only [encode, Instr.byteCount, List.length_cons, List.length_append, length_addrBytesOf h]
  omega

theorem tSectorErase (a : Word) : Statement (.tSectorErase a) := fun c h => by
  simp only [encode, Instr.byteCount, List.length_cons, length_addrBytesOf h]
  omega

theorem tChipErase : Statement .tChipErase := fun _ _ => rfl
theorem cliR (a n : Word) : Statement (.cliR a n) := fun _ _ => rfl

theorem cliW (a n : Word) (file : List Byte) : Statement (.cliW a n file) := fun _ _ => by
  simp only [encode, Instr.byteCount, List.length_append, List.length_take, length_frameHeader]

theorem cliD (a n : Word) : Statement (.cliD a n) := fun _ _ => rfl

end Laws.EncodeLength
end Sys2Proof
end

