-- ==== Sys2Proof/Laws/Step.lean ====
section
/-!
SUPPORT. Laws/Step.lean: what a step can do, said once: the move of each control state as an equation, whose turn it is,
and what a transaction of the SPI link leaves alone.
-/
namespace Sys2Proof.Machine

/-! ## Configurations (R7) -/

/-- What an admitted configuration satisfies. -/
theorem Config.ok_geometry {c : Config} (h : c.ok = true) :
    1 ≤ c.sectorSize ∧ 1 ≤ c.totalSize ∧ c.totalSize % c.sectorSize = 0 ∧
      (c.pageSize = 0 ∨ c.sectorSize % c.pageSize = 0) ∧ c.totalSize ≤ 2 ^ (8 * c.addrBytes) ∧
      (c.addrBytes = 3 ∨ c.addrBytes = 4) ∧ c.wipMask ≠ 0 := by
  unfold Config.ok at h
  simp only [Bool.and_eq_true, Bool.or_eq_true, decide_eq_true_eq] at h
  tauto

/-- The three sizes fit 32 bits (R6). -/
theorem Config.ok_sizes {c : Config} (h : c.ok = true) :
    c.totalSize < 2 ^ 32 ∧ c.sectorSize < 2 ^ 32 ∧ c.pageSize < 2 ^ 32 := by
  unfold Config.ok Config.sizesFit at h
  simp only [Bool.and_eq_true, decide_eq_true_eq] at h
  tauto

/-- No transaction of a prelude is empty. -/
theorem Config.ok_preludes {c : Config} (h : c.ok = true) :
    (∀ t ∈ c.initPrelude, t ≠ []) ∧ ∀ t ∈ c.writePrelude, t ≠ [] := by
  unfold Config.ok at h
  simp only [Bool.and_eq_true, Bool.or_eq_true, decide_eq_true_eq, List.all_eq_true, Bool.not_eq_true',
    List.isEmpty_eq_false_iff] at h
  tauto

/-- An address of the chip fits 32 bits. -/
theorem Config.ok_total {c : Config} (h : c.ok = true) : c.totalSize ≤ 2 ^ 32 := (Config.ok_sizes h).1.le

/-- Pages fill the chip. -/
theorem Config.ok_pages {c : Config} (h : c.ok = true) : c.totalSize % progPage c = 0 := by
  obtain ⟨-, -, h3, h4, -⟩ := Config.ok_geometry h
  unfold progPage
  split
  · exact Nat.mod_one _
  · rcases h4 with h4 | h4
    · contradiction
    · exact Nat.mod_eq_zero_of_dvd ((Nat.dvd_of_mod_eq_zero h4).trans (Nat.dvd_of_mod_eq_zero h3))

/-- Inside the chip the address bytes carry the whole address (R51). -/
theorem spiAddr_of_lt {c : Config} (h : c.ok = true) {a : Word} (ha : a.toNat < c.totalSize) :
    spiAddr c a = a.toNat :=
  Nat.mod_eq_of_lt (lt_of_lt_of_le ha (Config.ok_geometry h).2.2.2.2.1)

/-! ## What an SPI transaction leaves alone -/

/-- The registers no instruction of the SPI link writes. -/
structure SpiFrame (s t : State) : Prop where
  cfg        : t.cfg = s.cfg
  drv        : t.drv = s.drv
  seq        : t.seq = s.seq
  micro      : t.micro = s.micro
  op         : t.op = s.op
  reqAddr    : t.reqAddr = s.reqAddr
  reqLen     : t.reqLen = s.reqLen
  hdrIdx     : t.hdrIdx = s.hdrIdx
  curAddr    : t.curAddr = s.curAddr
  rem        : t.rem = s.rem
  chunkLen   : t.chunkLen = s.chunkLen
  bufIdx     : t.bufIdx = s.bufIdx
  wrOff      : t.wrOff = s.wrOff
  wrPageMode : t.wrPageMode = s.wrPageMode
  erAddr     : t.erAddr = s.erAddr
  erCount    : t.erCount = s.erCount
  erIdx      : t.erIdx = s.erIdx
  ledBusy    : t.ledBusy = s.ledBusy
  faultCause : t.faultCause = s.faultCause
  rxQ        : t.rxQ = s.rxQ
  txFinished : t.txFinished = s.txFinished
  host       : t.host = s.host
  turns      : t.turns = s.turns

theorem SpiFrame.refl (s : State) : SpiFrame s s := by constructor <;> rfl

/-- Every instruction of the SPI link keeps them. -/
theorem exec_spiFrame {i : Instr} {s t : State} (hi : i.link = .spi) (h : exec i s = .next t) : SpiFrame s t := by
  cases i <;> cases hi
  · obtain ⟨-, -, rfl⟩ := execTRaw_next.1 h; constructor <;> rfl
  · obtain ⟨-, rfl⟩ := execTReadId_next.1 h; constructor <;> rfl
  · obtain ⟨-, rfl⟩ := execTReadStatus_next.1 h; constructor <;> rfl
  · obtain ⟨-, ⟨-, rfl⟩ | ⟨-, -, -, -, rfl⟩⟩ := execTRead_next.1 h
    · exact .refl _
    · constructor <;> rfl
  · obtain ⟨-, ⟨-, rfl⟩ | ⟨-, -, -, rfl⟩⟩ := execTProgram_next.1 h
    · exact .refl _
    · constructor <;> rfl
  · obtain ⟨-, -, -, -, rfl⟩ := execTSectorErase_next.1 h; constructor <;> rfl
  · obtain ⟨-, -, rfl⟩ := execTChipErase_next.1 h; constructor <;> rfl

/-! ## The instruction of a driver operation is one of the SPI link -/

theorem link_preludeOr {p : List (List Byte)} {k : Nat} {main : Instr} (h : main.link = .spi) :
    (preludeOr p k main).link = .spi := by
  unfold preludeOr; split <;> first | rfl | exact h

theorem link_stepInstr {s : State} {main : Instr} (h : main.link = .spi) : (s.stepInstr main).link = .spi := by
  unfold State.stepInstr; split
  · exact link_preludeOr h
  · rfl

theorem link_eraseInstr (s : State) : s.eraseInstr.link = .spi := by unfold State.eraseInstr; split <;> rfl

theorem link_initInstr (s : State) : s.initInstr.link = .spi := by
  unfold State.initInstr; split
  · exact link_preludeOr rfl
  · rfl

/-! ## The move of each control state (R23) -/

variable {s : State}

theorem blockMove_reset (h : s.seq = .reset) : blockMove s = .next s.enterInit := by
  simp [blockMove, State.fetch, internalMove, h]

theorem blockMove_halt (h : s.seq = .halt) : blockMove s = .next s := by
  simp [blockMove, State.fetch, internalMove, h]

/-- A transaction, then what follows it in the control state it ran in. -/
theorem andThen_spi {i : Instr} (hi : i.link = .spi) {f g : State → State} (h : ∀ t, SpiFrame s t → f t = g t) :
    andThen (exec i s) (fun t => .next (f t)) = andThen (exec i s) (fun t => .next (g t)) := by
  cases he : exec i s with
  | next t => simp [andThen, h t (exec_spiFrame hi he)]
  | fault r => rfl
  | refused r => rfl

theorem blockMove_init (h : s.seq = .init) :
    blockMove s = andThen (exec s.initInstr s) (fun t => .next t.afterInit) := by
  have : blockMove s = andThen (exec s.initInstr s) (fun t => .next t.afterInstr) := by
    simp [blockMove, State.fetch, State.eraseRefused, State.beforeInstr, h]
  rw [this]
  exact andThen_spi (link_initInstr s) fun t ht => by simp [State.afterInstr, ht.seq, h]

theorem blockMove_waitCmd_nil (h : s.seq = .waitCmd) (hq : s.rxQ = []) : blockMove s = .next s := by
  simp [blockMove, State.fetch, internalMove, h, hq]

theorem blockMove_waitCmd_ignored {b : Byte} {rest : List Byte} (h : s.seq = .waitCmd) (hq : s.rxQ = b :: rest)
    (hb : isOpcode b = false) : blockMove s = .next (s.serialTake b) := by
  simp [blockMove, State.fetch, State.eraseRefused, State.beforeInstr, State.afterInstr, andThen, exec, execIgnored, h,
    hq, hb, State.serialTake]

theorem blockMove_waitCmd_opcode {b : Byte} {rest : List Byte} (h : s.seq = .waitCmd) (hq : s.rxQ = b :: rest)
    (hb : isOpcode b = true) : blockMove s = .next ((s.serialTake b).openHeader b) := by
  simp [blockMove, State.fetch, internalMove, h, hq, hb]

theorem blockMove_hdr_nil (h : s.seq = .hdr) (hq : s.rxQ = []) : blockMove s = .next s := by
  simp [blockMove, State.fetch, internalMove, h, hq]

theorem blockMove_hdr_byte {b : Byte} {rest : List Byte} (h : s.seq = .hdr) (hq : s.rxQ = b :: rest)
    (hi : s.hdrIdx ≠ 7) : blockMove s = .next ((s.serialTake b).latchHeader b).nextHeader := by
  have : (s.hdrIdx = 7#3) = False := eq_false hi
  simp [blockMove, State.fetch, internalMove, h, hq, this]

/-- The last header byte: the command runs (R143, R144, R146). -/
theorem blockMove_hdr_last {b : Byte} {rest : List Byte} (h : s.seq = .hdr) (hq : s.rxQ = b :: rest)
    (hi : s.hdrIdx = 7) :
    blockMove s = acceptRequest ((s.serialTake b).latchHeader b) (if s.op = opReadFlash then opReadFlash else opWriteFlash)
      s.reqAddr (shiftIn s.reqLen b) := by
  have hf : s.fetch = some (commandOf s.op s.reqAddr (shiftIn s.reqLen b)) := by simp [State.fetch, h, hq, hi]
  have hb : s.beforeInstr = (s.serialTake b).latchHeader b := by simp [State.beforeInstr, h, hq]
  have he : ∀ v, exec (commandOf s.op s.reqAddr (shiftIn s.reqLen b)) v =
      acceptRequest v (if s.op = opReadFlash then opReadFlash else opWriteFlash) s.reqAddr (shiftIn s.reqLen b) := by
    intro v; unfold commandOf; split <;> rfl
  simp only [blockMove, hf, hb, he]
  rw [if_neg (by simp [State.eraseRefused, h])]
  cases hx : acceptRequest ((s.serialTake b).latchHeader b) (if s.op = opReadFlash then opReadFlash else opWriteFlash)
      s.reqAddr (shiftIn s.reqLen b) with
  | next t =>
    obtain ⟨-, -, rfl⟩ := acceptRequest_next.1 hx
    rfl
  | fault r => rfl
  | refused r => rfl

theorem blockMove_chunk (h : s.seq = .chunk) : blockMove s = .next s.decideChunk := by
  simp [blockMove, State.fetch, internalMove, h]

theorem blockMove_rdFill (h : s.seq = .rdFill) :
    blockMove s = andThen (execTRead s.curAddr s.chunkLen s) (fun t => .next t.beginDrain) := by
  have : blockMove s = andThen (exec (.tRead s.curAddr s.chunkLen) s) (fun t => .next t.afterInstr) := by
    simp [blockMove, State.fetch, State.eraseRefused, State.beforeInstr, h]
  rw [this]
  exact andThen_spi rfl fun t ht => by simp [State.afterInstr, ht.seq, h]

theorem blockMove_rdDrain (h : s.seq = .rdDrain) : blockMove s = drainByte s := by
  simp [blockMove, State.fetch, internalMove, h]

theorem blockMove_wrReady (h : s.seq = .wrReady) :
    blockMove s = whenReady s (.next (s.serialWrite readyByte).beginRecv) := by
  have hf : s.fetch = some .ready := by simp [State.fetch, h]
  have hb : s.beforeInstr = s := by simp [State.beforeInstr, h]
  simp only [blockMove, hf, hb, exec, execReady]
  rw [if_neg (by simp [State.eraseRefused, h])]
  unfold whenReady
  split
  · simp [andThen, State.afterInstr, h]
  · rfl

theorem blockMove_wrRecv_nil (h : s.seq = .wrRecv) (hq : s.rxQ = []) : blockMove s = .next s := by
  simp [blockMove, State.fetch, internalMove, h, hq]

theorem blockMove_wrRecv_byte {b : Byte} {rest : List Byte} (h : s.seq = .wrRecv) (hq : s.rxQ = b :: rest) :
    blockMove s = recvByte s b := by
  simp [blockMove, State.fetch, internalMove, h, hq]

theorem blockMove_wrErase (h : s.seq = .wrErase) (hp : s.erasePending = true) (hr : s.eraseRefused = false) :
    blockMove s = andThen (exec (s.stepInstr s.eraseInstr) s) (fun t => .next (t.afterTransaction t.eraseStepDone)) := by
  have : blockMove s = andThen (exec (s.stepInstr s.eraseInstr) s) (fun t => .next t.afterInstr) := by
    simp [blockMove, State.fetch, hr, State.beforeInstr, h, hp]
  rw [this]
  exact andThen_spi (link_stepInstr (link_eraseInstr s)) fun t ht => by simp [State.afterInstr, ht.seq, h]

theorem blockMove_wrErase_refused (h : s.seq = .wrErase) (hp : s.erasePending = true) (hr : s.eraseRefused = true) :
    blockMove s = .refused .eraseRegion := by
  simp [blockMove, State.fetch, hr, h, hp]

theorem blockMove_wrErase_none (h : s.seq = .wrErase) (hp : s.erasePending = false) :
    blockMove s = .next s.beginProgram := by
  simp [blockMove, State.fetch, internalMove, h, hp]

theorem blockMove_wrProgram (h : s.seq = .wrProgram) (hp : s.programPending = true) :
    blockMove s =
      andThen (exec (s.stepInstr s.programInstr) s) (fun t => .next (t.afterTransaction t.programStepDone)) := by
  have : blockMove s = andThen (exec (s.stepInstr s.programInstr) s) (fun t => .next t.afterInstr) := by
    simp [blockMove, State.fetch, State.eraseRefused, State.beforeInstr, h, hp]
  rw [this]
  exact andThen_spi (link_stepInstr rfl) fun t ht => by simp [State.afterInstr, ht.seq, h]

theorem blockMove_wrProgram_none (h : s.seq = .wrProgram) (hp : s.programPending = false) :
    blockMove s = .next s.advanceCursor := by
  simp [blockMove, State.fetch, internalMove, h, hp]

/-! ## After a transaction, and the ends of the loops -/

/-- The next transaction of the prelude, the first poll, the same poll again, or the end of the step (R117, R124,
R126). -/
theorem afterTransaction_cases (t done : State) :
    (∃ k, t.micro = .issue k ∧ k < t.cfg.writePrelude.length ∧
        t.afterTransaction done = t.setMicro (.issue (k + 1))) ∨
    (∃ k, t.micro = .issue k ∧ ¬k < t.cfg.writePrelude.length ∧ t.afterTransaction done = t.setMicro .poll) ∨
    (t.micro = .poll ∧ t.flashBusy = true ∧ t.afterTransaction done = t) ∨
    (t.micro = .poll ∧ t.flashBusy = false ∧ t.afterTransaction done = done) := by
  unfold State.afterTransaction
  split
  · next k hk =>
    split
    · next h => exact .inl ⟨k, hk, h, rfl⟩
    · next h => exact .inr (.inl ⟨k, hk, h, rfl⟩)
  · next hk =>
    split
    · next h => exact .inr (.inr (.inl ⟨hk, h, rfl⟩))
    · next h => exact .inr (.inr (.inr ⟨hk, by simpa using h, rfl⟩))

theorem afterTransaction_issue {done : State} {k : Nat} (h : s.micro = .issue k) (hk : k < s.cfg.writePrelude.length) :
    s.afterTransaction done = s.setMicro (.issue (k + 1)) := by
  simp [State.afterTransaction, h, hk]

theorem afterTransaction_own {done : State} {k : Nat} (h : s.micro = .issue k) (hk : s.cfg.writePrelude.length ≤ k) :
    s.afterTransaction done = s.setMicro .poll := by
  simp [State.afterTransaction, h, Nat.not_lt.2 hk]

theorem afterTransaction_poll {done : State} (h : s.micro = .poll) :
    s.afterTransaction done = if s.flashBusy then s else done := by
  simp [State.afterTransaction, h]

/-- After a status read the sampled flag tells the operation in progress (R33, R59, R125). -/
theorem flashBusy_afterReadStatus (hc : s.cfg.ok = true) : s.afterReadStatus.flashBusy = s.afterReadStatus.flash.wip :=
  busyBit_statusByte (Config.ok_geometry hc).2.2.2.2.2.2 _ _

theorem erasePending_iff :
    s.erasePending = true ↔
      s.erCount.toNat ≠ 0 ∧ (eraseWholeChip s.cfg s.erAddr s.erCount = true ∨ s.erIdx.toNat < s.erCount.toNat) := by
  unfold State.erasePending
  simp only [Bool.and_eq_true, Bool.or_eq_true, decide_eq_true_eq]
  rw [Ne, ← BitVec.toNat_inj]; rfl

/-- With more than one sector to erase, another is pending while `er_idx + 1` is below the count (R122). -/
theorem erasePending_nextSector (h : eraseWholeChip s.cfg s.erAddr s.erCount = false) :
    s.nextSector.erasePending = true ↔ (s.erIdx + 1).toNat < s.erCount.toNat := by
  rw [erasePending_iff]
  simp only [State.nextSector_cfg, State.nextSector_erAddr, State.nextSector_erCount, State.nextSector_erIdx, h,
    Bool.false_eq_true, false_or]
  exact ⟨And.right, fun h => ⟨by omega, h⟩⟩

/-- The call has nothing to erase only if it has no sectors. -/
theorem erCount_ne_zero (h : s.erasePending = true) : s.erCount ≠ 0 := by
  rintro e
  simp [State.erasePending, e] at h

/-- One or two sectors cover a chunk (R152). -/
theorem coverCount_le (h : s.chunkIn) : 1 ≤ s.coverCount ∧ s.coverCount ≤ 2 := by
  obtain ⟨-, h2, h3, -⟩ := h
  unfold State.coverCount State.coverFirst State.coverLast
  have : (s.curAddr.toNat + s.chunkLen.toNat - 1) / s.cfg.sectorSize ≤ s.curAddr.toNat / s.cfg.sectorSize + 1 := by
    rw [← Nat.add_div_right _ (by omega : 0 < s.cfg.sectorSize)]
    exact Nat.div_le_div_right (by omega)
  omega

/-! ## Whose turn it is -/

theorem step_of_ok (hc : s.cfg.ok = true) : step s = turnMove s := by simp [step, stepOnce, hc]

theorem step_of_not_ok (hc : s.cfg.ok = false) : step s = .refused .badConfiguration := by simp [step, stepOnce, hc]

theorem takeTurn_of_nil (h : s.turns = []) : s.takeTurn = s := by
  unfold State.takeTurn; rw [h, List.tail_nil, ← h]

theorem step_block (hc : s.cfg.ok = true) (h : s.blockTurn) : step s = blockMove s.takeTurn := by
  rw [step_of_ok hc]
  rcases h with h | ⟨h, hm⟩
  · obtain ⟨tl, ht⟩ : ∃ tl, s.turns = .block :: tl := by
      cases hs : s.turns <;> simp_all
    simp [turnMove, ht]
  · rw [takeTurn_of_nil h]; simp [turnMove, h, unscheduledMove, hm]

theorem step_host (hc : s.cfg.ok = true) (h : s.hostTurn) : step s = hostMove s.takeTurn := by
  rw [step_of_ok hc]
  rcases h with h | ⟨h, hb, hf, hm⟩
  · obtain ⟨tl, ht⟩ : ∃ tl, s.turns = .host :: tl := by
      cases hs : s.turns <;> simp_all
    simp [turnMove, ht]
  · rw [takeTurn_of_nil h]; simp [turnMove, h, unscheduledMove, hm, hb, hf]

theorem step_flash (hc : s.cfg.ok = true) (h : s.flashTurn) : step s = flashMove s.takeTurn := by
  rw [step_of_ok hc]
  rcases h with h | ⟨h, hb, hf⟩
  · obtain ⟨tl, ht⟩ : ∃ tl, s.turns = .flash :: tl := by
      cases hs : s.turns <;> simp_all
    simp [turnMove, ht]
  · rw [takeTurn_of_nil h]; simp [turnMove, h, unscheduledMove, hb, hf]

theorem step_reset (hc : s.cfg.ok = true) (h : s.turns.head? = some .reset) : step s = .next s.takeTurn.hardReset := by
  rw [step_of_ok hc]
  obtain ⟨tl, ht⟩ : ∃ tl, s.turns = .reset :: tl := by cases hs : s.turns <;> simp_all
  simp [turnMove, ht]

theorem step_cut {k : Nat} (hc : s.cfg.ok = true) (h : s.turns.head? = some (.cut k)) :
    step s = cutMove k s.takeTurn := by
  rw [step_of_ok hc]
  obtain ⟨tl, ht⟩ : ∃ tl, s.turns = .cut k :: tl := by cases hs : s.turns <;> simp_all
  simp [turnMove, ht]

/-- What a reset inside a transaction can do: cut the transaction of an instruction of the SPI link short, or be a plain
reset. -/
theorem cutMove_next {k : Nat} {t : State} (h : cutMove k s = .next t) :
    (∃ i u, s.fetch = some i ∧ i.link = .spi ∧ s.eraseRefused = false ∧ exec i s = .next u ∧ t = s.cutShort k i u) ∨
      t = s.hardReset := by
  unfold cutMove at h
  split at h
  · next i hf =>
    split at h
    · next hl =>
      split at h
      · cases h
      · next hr =>
        obtain ⟨u, hu, h⟩ := andThen_next.1 h
        exact .inl ⟨i, u, hf, hl, by simpa using hr, hu, next_eq.1 h⟩
    · exact .inr (next_eq.1 h)
  · exact .inr (next_eq.1 h)

/-- What a reset inside a transaction makes of the chip, but for a raw one. -/
theorem cutShort_flash {u : State} {k : Nat} {i : Instr} (h : ∀ b, i ≠ .tRaw b) :
    (s.cutShort k i u).flash =
      if opBegins s.cfg k i then u.flash.torn u.noise else (u.flash.torn u.noise).finish := by
  unfold State.cutShort Flash.cutShort
  cases i <;> first | rfl | exact absurd rfl (h _)

/-- The content after it is what the reset makes of the whole transaction's, wherever the cut is ... -/
theorem cutShort_mem {u : State} {k : Nat} {i : Instr} (h : ∀ b, i ≠ .tRaw b) :
    (s.cutShort k i u).flash.mem = (u.flash.torn u.noise).mem := by
  rw [cutShort_flash h]; split <;> rfl

/-- ... and the chip is busy after it exactly if the whole transaction leaves it busy and enough bytes have gone out. -/
theorem cutShort_wip {u : State} {k : Nat} {i : Instr} (h : ∀ b, i ≠ .tRaw b) :
    (s.cutShort k i u).flash.wip = (u.flash.wip && opBegins s.cfg k i) := by
  rw [cutShort_flash h]; cases opBegins s.cfg k i <;> simp [Flash.torn_wip]

/-- A raw transaction is counted as the bytes sent so far. -/
theorem cutShort_raw {u : State} {k : Nat} {b : List Byte} :
    (s.cutShort k (.tRaw b) u).flash = (s.flash.raw (b.take k)).torn u.noise := rfl

/-- The events of a cut transaction: chip-select, and the first `k` exchanges. -/
theorem cutShort_trace_of {u : State} {k : Nat} {i : Instr} {es : List Event}
    (h : Appends s u (.cs true :: es ++ [.cs false])) :
    (s.cutShort k i u).trace = s.trace ++ (.cs true :: es.take k) := by
  rw [State.cutShort_trace, h, List.drop_left, List.dropLast_concat]; rfl

theorem not_resetNow_of_nil (h : s.turns = []) : ¬s.resetNow := by rintro ⟨t, ht, -⟩; simp [h] at ht

theorem not_resetNow_of_head {t : Turn} (h : s.turns.head? = some t) (ht : t.isReset = false) : ¬s.resetNow := by
  rintro ⟨u, hu, hr⟩
  rw [h] at hu; cases hu; simp [ht] at hr

theorem not_resetNow_of_blockTurn (h : s.blockTurn) : ¬s.resetNow :=
  h.elim (not_resetNow_of_head · rfl) (not_resetNow_of_nil ·.1)

theorem not_resetNow_of_hostTurn (h : s.hostTurn) : ¬s.resetNow :=
  h.elim (not_resetNow_of_head · rfl) (not_resetNow_of_nil ·.1)

theorem not_resetNow_of_flashTurn (h : s.flashTurn) : ¬s.resetNow :=
  h.elim (not_resetNow_of_head · rfl) (not_resetNow_of_nil ·.1)

/-- With no reset scheduled the next step is none, and none is scheduled after it. -/
theorem noReset_step (h : s.noReset) : ¬s.resetNow ∧ s.takeTurn.noReset := by
  refine ⟨?_, fun t ht => h t (List.mem_of_mem_tail ht)⟩
  rintro ⟨t, ht, hr⟩
  rw [h t (List.mem_of_head? ht)] at hr
  cases hr

/-- A step that goes on is a move of the block, of the host or of the chip on its turn, nothing at all, or a reset. -/
theorem step_cases {t : State} (h : step s = .next t) :
    s.cfg.ok = true ∧
      ((s.blockTurn ∧ blockMove s.takeTurn = .next t) ∨ (s.hostTurn ∧ hostMove s.takeTurn = .next t) ∨
       (s.flashTurn ∧ t = s.takeTurn.setFlash s.flash.finish) ∨ (t = s ∧ s.turns = []) ∨
       (s.resetNow ∧ (t = s.takeTurn.hardReset ∨ ∃ k, cutMove k s.takeTurn = .next t))) := by
  have hc : s.cfg.ok = true := by
    by_contra hc
    rw [step_of_not_ok (by simpa using hc)] at h
    cases h
  refine ⟨hc, ?_⟩
  rw [step_of_ok hc] at h
  unfold turnMove at h
  split at h
  · next hn =>
    rw [takeTurn_of_nil hn]
    unfold unscheduledMove at h
    split at h
    · next hb => exact .inl ⟨.inr ⟨hn, hb⟩, h⟩
    · next hb =>
      have hb := Bool.eq_false_of_not_eq_true hb
      split at h
      · next hf => exact .inr (.inr (.inl ⟨.inr ⟨hn, hb, hf⟩, next_eq.1 h⟩))
      · next hf =>
        split at h
        · next hm => exact .inr (.inl ⟨.inr ⟨hn, hb, Bool.eq_false_of_not_eq_true hf, hm⟩, h⟩)
        · exact .inr (.inr (.inr (.inl ⟨next_eq.1 h, hn⟩)))
  · next hn => exact .inl ⟨.inl (by rw [hn]; rfl), h⟩
  · next hn => exact .inr (.inl ⟨.inl (by rw [hn]; rfl), h⟩)
  · next hn => exact .inr (.inr (.inl ⟨.inl (by rw [hn]; rfl), next_eq.1 h⟩))
  · next hn => exact .inr (.inr (.inr (.inr ⟨⟨_, by rw [hn]; rfl, rfl⟩, .inl (next_eq.1 h)⟩)))
  · next k _ hn => exact .inr (.inr (.inr (.inr ⟨⟨_, by rw [hn]; rfl, rfl⟩, .inr ⟨k, h⟩⟩)))

/-! ## The host leaves the block alone -/

/-- What a move of the host keeps; a byte may arrive. -/
structure HostFrame (s t : State) : Prop where
  same : ∃ q h, t = { s with rxQ := q, host := h }
  more : ∃ b, t.rxQ = s.rxQ ++ b

theorem hostFrame_setHost (s : State) (h : HostSide) : HostFrame s (s.setHost h) :=
  ⟨⟨s.rxQ, h, rfl⟩, ⟨[], (List.append_nil _).symm⟩⟩

theorem hostMove_frame {t : State} (h : hostMove s = .next t) : HostFrame s t := by
  unfold hostMove at h
  split at h
  · next a rest _ =>
    cases a with
    | send b =>
      simp only [hostAct, hostSend] at h
      split at h
      · cases h; exact ⟨⟨_, _, rfl⟩, ⟨[b], rfl⟩⟩
      · split at h
        · cases h; exact hostFrame_setHost _ _
        · cases h
    | awaitReady => cases h; exact hostFrame_setHost _ _
    | takeData => cases h; exact hostFrame_setHost _ _
  · split at h
    · cases h; exact ⟨⟨s.rxQ, s.host, rfl⟩, ⟨[], (List.append_nil _).symm⟩⟩
    · next c cs _ =>
      cases c with
      | r a n => obtain rfl := execCliR_next.1 h; exact hostFrame_setHost s _
      | w a n f => obtain rfl := execCliW_next.1 h; exact hostFrame_setHost s _
      | d a n => obtain ⟨-, rfl⟩ := execCliD_next.1 h; exact hostFrame_setHost s _

end Sys2Proof.Machine
end

