-- ==== Sys2Proof/Tests/Slice0.lean ====
section
/-!
SUPPORT. Tests/Slice0.lean: ill-formed terms the well-formedness check refuses, words written out from the encodings of
spec/30_encoding.md, one-step tests whose expected values are taken from spec/95_test_vectors.md (V-... names), and for
every obligation with hypotheses a state and operands that meet them.
-/
namespace Sys2Proof.Tests
open Sys2Proof Sys2Proof.Machine

/-! ## Small states -/

/-- The next state, if there is one. -/
def next? : Outcome → Option State
  | .next s => some s
  | .fault _ => none
  | .refused _ => none

/-- The refusal, if it is one. -/
def refusal? : Outcome → Option Refusal
  | .next _ => none
  | .fault _ => none
  | .refused r => some r

/-- The block idle in `S_WAIT_CMD`, over erased flash. -/
def idle (c : Config) : State := { State.atReset c with drv := .ready, seq := .waitCmd }

/-- Flash content `mem[i] = i` for `i < n`, the content of V-R2. -/
def counting (n : Nat) : Memory := (List.range n).map (fun i => (i, BitVec.ofNat 8 i))

/-- Other content. -/
def withMem (s : State) (m : Memory) : State := { s with flash := { s.flash with mem := m } }

/-- The write prelude has just gone out. -/
def enabled (s : State) : State := { s with flash := { s.flash with rawRun := s.cfg.writePrelude } }

/-- A chip that is busy for `p` more polls. -/
def busy (s : State) (p : Option Nat) : State := { s with flash := { s.flash with wip := true, busyPolls := p } }

/-- How long later operations stay busy. -/
def withDraws (s : State) (q : List (Option Nat)) : State := { s with flash := { s.flash with draws := q } }

/-- A chip at work on `n` bytes from `a`. -/
def working (a n : Nat) : State :=
  { idle .t2 with flash := { (idle .t2).flash with wip := true, opBase := a, opLen := n } }

/-- A chip that reports another identity. -/
def chip (s : State) (m : Byte) (d : Half) : State := { s with flash := { s.flash with chipMfr := m, chipDev := d } }

/-- Bytes wait on the serial link. -/
def withRx (s : State) (bs : List Byte) : State := { s with rxQ := bs }

/-- The indicator shows busy. -/
def lit (s : State) : State := { s with ledBusy := true }

/-- A turn is scheduled. -/
def withTurn (s : State) (t : Turn) : State := { s with turns := [t] }

/-- The host has this to do, and these bytes to take. -/
def withScript (s : State) (acts : List HostAct) (inbox : List Byte) : State :=
  { s with host := { s.host with script := acts, inbox := inbox } }

/-- A header being read under opcode `o`: `i` bytes of it are in. -/
def inHdr (o : Byte) (i : BitVec 3) : State := lit { idle .t2 with seq := .hdr, op := o, hdrIdx := i }

/-- A chunk of `n` bytes at `a` in control state `q`, with nothing after it. -/
def inChunk (q : Seq) (o : Byte) (a n : Word) : State :=
  lit { idle .t2 with seq := q, op := o, curAddr := a, rem := n, chunkLen := n, reqAddr := a, reqLen := n }

/-- The erase of one sector at 8, in micro state `m`. -/
def erasing (m : Micro) : State :=
  { inChunk .wrErase 0x20 8 5 with micro := m, erAddr := 8, erCount := 1 }

/-- The program of five bytes at 8, in micro state `m`. -/
def programming (m : Micro) : State :=
  { inChunk .wrProgram 0x20 8 5 with micro := m, wrPageMode := true, buf := [0x11, 0x22, 0x33, 0x44, 0x55, 0, 0, 0] }

/-! ## WellFormed: one ill-formed term for each check -/

theorem test_wf_ignored_read : (Instr.ignored 0x10).wellFormed .t2 = false := by decide
theorem test_wf_ignored_write : (Instr.ignored 0x20).wellFormed .t2 = false := by decide
theorem test_wf_ignored : (Instr.ignored 0x42).wellFormed .t2 = true := by decide
theorem test_wf_raw_empty : (Instr.tRaw []).wellFormed .t2 = false := by decide
theorem test_wf_read_none : (Instr.tRead 0 0).wellFormed .t2 = false := by decide
theorem test_wf_read_address : (Instr.tRead 0x01000000 1).wellFormed .t2 = false := by decide
theorem test_wf_program_none : (Instr.tProgram 0 []).wellFormed .t2 = false := by decide
theorem test_wf_program_long : (Instr.tProgram 0 [1, 2, 3, 4, 5]).wellFormed .t2 = false := by decide
theorem test_wf_program_page : (Instr.tProgram 0 [1, 2, 3, 4]).wellFormed .t2 = true := by decide
theorem test_wf_program_no_pages : (Instr.tProgram 0 [1, 2]).wellFormed .t3 = false := by decide
theorem test_wf_program_address : (Instr.tProgram 0x01000000 [1]).wellFormed .t2 = false := by decide
theorem test_wf_erase_unaligned : (Instr.tSectorErase 4).wellFormed .t2 = false := by decide
theorem test_wf_erase_address : (Instr.tSectorErase 0x01000000).wellFormed .t2 = false := by decide
theorem test_wf_dump_overflow : (Instr.cliD 0 0x40000000).wellFormed .t2 = false := by decide

/-! ## Words of every constructor, written out from the encodings -/

/-- V-D1. -/
theorem test_decode_read_flash :
    decodeFrame [0x10, 0x00, 0x00, 0x10, 0x00, 0x00, 0x00, 0x10, 0x00] = .instr (.readFlash 0x1000 0x1000) [] := by decide

/-- V-D2. -/
theorem test_decode_write_flash :
    decodeFrame [0x20, 0x12, 0x34, 0x56, 0x78, 0x9A, 0xBC, 0xDE, 0xF0]
      = .instr (.writeFlash 0x12345678 0x9ABCDEF0) [] := by decide

/-- V-D7: the 0x42 is one ignored byte, the frame begins after it. -/
theorem test_decode_ignored :
    decodeFrame [0x42, 0x10, 0, 0, 0, 0, 0, 0, 0, 1] = .instr (.ignored 0x42) [0x10, 0, 0, 0, 0, 0, 0, 0, 1] := by decide

/-- V-D8: the 0x20 bytes of a header are no opcodes. -/
theorem test_decode_opcode_in_header :
    decodeFrame [0x10, 0x20, 0x20, 0x20, 0x20, 0, 0, 0, 0] = .instr (.readFlash 0x20202020 0) [] := by decide

/-- R81: a header that is not complete yet. -/
theorem test_decode_short : decodeFrame [0x10, 0, 0, 0] = .rejected .shortHeader := by decide

theorem test_decode_nothing : decodeFrame [] = .rejected .empty := by decide

/-- R88: 0100_0010. -/
theorem test_decode_ready : decodeReply [0x42] = .instr .ready [] := by decide

theorem test_decode_not_ready : decodeReply [0x43] = .rejected .notReady := by decide

/-- WREN of spec/95_test_vectors.md. -/
theorem test_decode_raw : decodeSpi .t2 [0x06] = .instr (.tRaw [0x06]) [] := by decide

/-- INIT_OK of spec/95_test_vectors.md. -/
theorem test_decode_read_id : decodeSpi .t2 [0x9F, 0, 0, 0] = .instr .tReadId [] := by decide

/-- POLL of spec/95_test_vectors.md. -/
theorem test_decode_read_status : decodeSpi .t2 [0x05, 0] = .instr .tReadStatus [] := by decide

/-- V-R4: the address bytes come most significant first. -/
theorem test_decode_read : decodeSpi .t1 [0x03, 0x01, 0x23, 0x45, 0x00] = .instr (.tRead 0x012345 1) [] := by decide

/-- V-R5: four address bytes. -/
theorem test_decode_read_four :
    decodeSpi { Config.t2 with addrBytes := 4 } [0x03, 0x01, 0x23, 0x45, 0x67, 0x00] = .instr (.tRead 0x01234567 1) [] := by
  decide

/-- V-W1, its second transaction. -/
theorem test_decode_program : decodeSpi .t2 [0x02, 0, 0, 4, 5, 6] = .instr (.tProgram 4 [5, 6]) [] := by decide

/-- V-E4, its second erase. -/
theorem test_decode_sector_erase : decodeSpi .t2 [0x20, 0, 0, 0x10] = .instr (.tSectorErase 0x10) [] := by decide

/-- V-E3. -/
theorem test_decode_chip_erase : decodeSpi .t3 [0xC7] = .instr .tChipErase [] := by decide

/-- R99: `r 8 5` (P1) is `10 00 00 00 08 00 00 00 05`. -/
theorem test_encode_cli_r : encode .t2 (.cliR 8 5) = [0x10, 0, 0, 0, 8, 0, 0, 0, 5] := by decide

/-- R99: `w 8` with a five-byte file (P1). -/
theorem test_encode_cli_w :
    encode .t2 (.cliW 8 5 [0x11, 0x22, 0x33, 0x44, 0x55])
      = [0x20, 0, 0, 0, 8, 0, 0, 0, 5, 0x11, 0x22, 0x33, 0x44, 0x55] := by decide

/-- R173: `length` bytes of the file are sent, and no more. -/
theorem test_encode_cli_w_size : encode .t2 (.cliW 8 1 [0x11, 0x22]) = [0x20, 0, 0, 0, 8, 0, 0, 0, 1, 0x11] := by decide

/-- R99: `d 0 4` (E6) is `READ_FLASH 0, 16`. -/
theorem test_encode_cli_d : encode .t1 (.cliD 0 4) = [0x10, 0, 0, 0, 0, 0, 0, 0, 0x10] := by decide

/-- The table's numbering: the first byte is the low one, operand bytes beyond the table's bits are 0. -/
theorem test_table_word : decodeTableWord 8 0x20 = some (.writeFlash 0 0) := by decide

/-- The row `READY` is a byte the block sends; received, the same byte is ignored (R87). -/
theorem test_table_ready : decodeTableWord 8 0x42 = some (.ignored 0x42) := by decide

/-! ## One step of each instruction -/

/-- V-D3: the last byte of the chip, read in contract. -/
theorem test_read_flash_accepted :
    (next? (exec (.readFlash 0x1F 1) (idle .t2))).map (fun t => (t.seq, t.curAddr, t.rem, t.op, t.trace))
      = some (.chunk, 0x1F, 1, 0x10, [.led true]) := by decide

/-- V-D4: one byte too many. -/
theorem test_read_flash_refused : refusal? (exec (.readFlash 0x1F 2) (idle .t2)) = some .outOfContract := by decide

/-- P1: the write's request and cursor. -/
theorem test_write_flash_accepted :
    (next? (exec (.writeFlash 8 5) (lit (idle .t2)))).map (fun t => (t.reqAddr, t.reqLen, t.curAddr, t.rem, t.trace))
      = some (8, 5, 8, 5, []) := by decide

/-- R146: the sum is not taken modulo 2^32. -/
theorem test_write_flash_no_wrap : refusal? (exec (.writeFlash 0xFFFFFFFF 1) (idle .t2)) = some .outOfContract := by decide

/-- V-D6. -/
theorem test_ignored :
    (next? (step (withRx (idle .t2) [0x21, 0x10]))).map (fun t => (t.seq, t.rxQ, t.trace))
      = some (.waitCmd, [0x10], [.rx 0x21]) := by decide

/-- R150: the ready byte goes out. -/
theorem test_ready :
    (next? (exec .ready (idle .t2))).map (fun t => (t.trace, t.host.inbox)) = some ([.tx 0x42], [0x42]) := by decide

/-- WREN. -/
theorem test_raw :
    (next? (exec (.tRaw [0x06]) (idle .t2))).map (fun t => (t.trace, t.cs, t.flash.wel t.cfg))
      = some ([.cs true, .xfer 0x06 none, .cs false], false, true) := by decide

/-- V-I8: the byte order of the identity. -/
theorem test_read_id :
    (next? (exec .tReadId (chip (idle .t2) 0x14 0x40EF))).map (fun t => (t.idMfr, t.idDev, t.trace))
      = some (0x14, 0x40EF, [.cs true, .xfer 0x9F none, .xfer 0x00 (some 0x14), .xfer 0x00 (some 0x40),
          .xfer 0x00 (some 0xEF), .cs false]) := by decide

/-- V-B2, its first poll: busy, whatever the other bits are. -/
theorem test_read_status_busy :
    ∃ t, exec .tReadStatus (busy (idle .t2) (some 1)) = .next t ∧ t.flashBusy = true ∧ t.flash.wip = true :=
  ⟨_, rfl, busyBit_statusByte (by decide) _ _, rfl⟩

/-- V-B2, its second poll: the operation has ended. -/
theorem test_read_status_done :
    ∃ t, exec .tReadStatus (busy (idle .t2) (some 0)) = .next t ∧ t.flashBusy = false ∧ t.flash.wip = false :=
  ⟨_, rfl, busyBit_statusByte (by decide) _ _, rfl⟩

/-- V-R2: a burst across a page and a sector boundary. -/
theorem test_read :
    (next? (exec (.tRead 6 4) (withMem (idle .t2) (counting 32)))).map (fun t => (t.buf, t.trace))
      = some ([6, 7, 8, 9, 0, 0, 0, 0], [.cs true, .xfer 0x03 none, .xfer 0 none, .xfer 0 none, .xfer 6 none,
          .xfer 0 (some 6), .xfer 0 (some 7), .xfer 0 (some 8), .xfer 0 (some 9), .cs false]) := by decide

/-- V-R6. -/
theorem test_read_none : exec (.tRead 6 0) (idle .t2) = .next (idle .t2) := by rfl

/-- V-W6: programming ANDs. -/
theorem test_program_and :
    (next? (exec (.tProgram 0 [0x3C, 0xFF])
        (enabled (withMem (idle .t2) [(0, 0xF0), (1, 0xF0), (2, 0xF0), (3, 0xF0)])))).map (fun t => t.flash.mem)
      = some [(0, 0x30), (1, 0xF0), (2, 0xF0), (3, 0xF0)] := by decide

/-- The page wrap below V-W9: `PP(00 00 06; A1 A2 A3)` on erased flash. -/
theorem test_program_wrap :
    (next? (exec (.tProgram 6 [0xA1, 0xA2, 0xA3]) (enabled (idle .t2)))).map (fun t => t.flash.mem)
      = some [(4, 0xA3), (6, 0xA1), (7, 0xA2)] := by decide

/-- V-E1. -/
theorem test_sector_erase :
    (next? (exec (.tSectorErase 8) (enabled (withMem (idle .t3) [(7, 0), (8, 0), (15, 0)])))).map
        (fun t => (t.flash.mem, t.trace))
      = some ([(7, 0)], [.cs true, .xfer 0x20 none, .xfer 0 none, .xfer 0 none, .xfer 8 none, .cs false]) := by decide

/-- V-E9: not sector aligned. -/
theorem test_sector_erase_unaligned : refusal? (exec (.tSectorErase 4) (idle .t2)) = some .eraseUnaligned := by decide

/-- V-E3. -/
theorem test_chip_erase :
    (next? (exec .tChipErase (enabled (withMem (idle .t3) [(0, 0), (15, 0)])))).map (fun t => (t.flash.mem, t.trace))
      = some ([], [.cs true, .xfer 0xC7 none, .cs false]) := by decide

/-- P1: what `r 8 5` makes the host do. -/
theorem test_cli_r :
    (next? (exec (.cliR 8 2) (idle .t2))).map (fun t => t.host.script)
      = some [.send 0x10, .send 0, .send 0, .send 0, .send 8, .send 0, .send 0, .send 0, .send 2,
          .takeData, .takeData] := by decide

/-- R173: each payload byte waits for a ready byte. -/
theorem test_cli_w :
    (next? (exec (.cliW 8 1 [0x5A]) (idle .t2))).map (fun t => t.host.script)
      = some [.send 0x20, .send 0, .send 0, .send 0, .send 8, .send 0, .send 0, .send 0, .send 1,
          .awaitReady, .send 0x5A] := by decide

/-- R173: the file ends early; the host has taken its byte, and stops. -/
theorem test_cli_w_short :
    (next? (exec (.cliW 8 2 [0x5A]) (idle .t2))).map (fun t => t.host.script.drop 9)
      = some [.awaitReady, .send 0x5A, .awaitReady] := by decide

/-- U22: `C*4` past 32 bits. -/
theorem test_cli_d_overflow : refusal? (exec (.cliD 0 0x40000000) (idle .t2)) = some .dumpOverflow := by decide

/-- E6, its second sentence: `78 56 34 12` prints as `12345678`. -/
theorem test_dump_word : dumpWords [0x78, 0x56, 0x34, 0x12] = [0x12345678] := by decide

/-- E6: the line of a freshly erased chip. -/
theorem test_dump_line :
    dumpLine 0 0xFFFFFFFF 0xFFFFFFFF 0xFFFFFFFF 0xFFFFFFFF = "0x00000000 - FFFFFFFF FFFFFFFF FFFFFFFF FFFFFFFF".toList := by
  decide

/-- The very next step after placing a table word runs it. -/
theorem test_with_fetch_word :
    (next? (step (State.reset.withFetchWord 8 0x20))).map (fun t => (t.seq, t.op, t.rem)) = some (.chunk, 0x20, 0) := by
  decide

/-- V-I2: the exception. -/
theorem test_identity_mismatch :
    (next? (step { chip (State.atReset .t2) 0xC2 0x4014 with seq := .init, drv := .verifying })).map
        (fun t => (t.drv, t.seq, t.faultCause, t.idMfr, t.faulted))
      = some (.faulted, .halt, .identityMismatch, 0xC2, true) := by decide

/-- R59: the chip ends its operation by its own step. -/
theorem test_flash_turn :
    (next? (step (withTurn (busy (idle .t2) none) .flash))).map (fun t => (t.flash.wip, t.trace)) = some (false, []) := by
  decide

/-- R39, R60: the write enable sent while an operation is in progress is gone when it ends. -/
theorem test_flash_turn_clears_the_latch :
    (next? (step (withTurn (busy (enabled (idle .t2)) none) .flash))).map (fun t => t.flash.wel t.cfg) = some false := by
  decide

/-- An idle chip has no operation to end: the write enable just sent holds. -/
theorem test_flash_turn_idle :
    (next? (step (withTurn (enabled (idle .t2)) .flash))).map (fun t => t.flash.wel t.cfg) = some true := by decide

/-- R223: a reset after the first data byte of a page program; the byte outside the page stays. -/
theorem test_cut_program :
    (next? (step (withTurn (enabled (withMem (programming (.issue 1)) [(7, 0x07)])) (.cut 5)))).map
        (fun t => (t.seq, t.flash.wip, Memory.read t.flash.mem 7, t.trace))
      = some (.reset, true, 0x07, [.cs true, .xfer 0x02 none, .xfer 0 none, .xfer 0 none, .xfer 8 none,
          .xfer 0x11 none]) := by
  rfl

/-- R223: a reset inside the write enable, before its byte: nothing begins. -/
theorem test_cut_raw :
    (next? (step (withTurn (programming (.issue 0)) (.cut 0)))).map
        (fun t => (t.seq, t.flash.wip, t.flash.wel t.cfg, t.trace))
      = some (.reset, false, false, [.cs true]) := by decide

/-- R180: a truncated header, and a host that only waits for data that never comes. -/
theorem test_ended_badly_truncated : (withScript (inHdr 0x10 3) [.takeData] []).endedBadly :=
  .inl ⟨⟨⟨rfl, rfl⟩, .inr rfl⟩, .inl rfl⟩

/-- R180, R192: busy for ever. -/
theorem test_ended_badly_hung : (busy (erasing .poll) none).endedBadly :=
  .inr (.inr ⟨.inl ⟨rfl, by decide⟩, rfl, rfl, rfl, rfl⟩)

/-- R180: a block that waits for its next command, and a host with nothing to do. -/
theorem test_final : (idle .t2).final := ⟨⟨⟨rfl, rfl⟩, .inr rfl⟩, rfl, rfl, rfl, rfl, rfl⟩

/-- R6: the sizes are 32-bit values. -/
theorem test_config_u32 :
    { Config.t2 with addrBytes := 4, totalSize := 2 ^ 32, sectorSize := 2 ^ 31 }.ok = false ∧
      { Config.t2 with addrBytes := 4, totalSize := 2 ^ 32 - 2 ^ 31, sectorSize := 2 ^ 31 }.ok = true := by decide

/-- V-X3: the host's second byte overruns a holding of one. -/
theorem test_overrun : refusal? (step (withTurn (withScript (withRx (idle .t2) [0x10]) [.send 0] []) .host)) = some .rxOverrun := by
  decide

/-! ## Witnesses: states that meet the invariants -/

theorem control_idle : ControlInv (idle .t2) := ⟨rfl, by decide, rfl, rfl⟩

theorem control_halt : ControlInv { idle .t2 with drv := .faulted, seq := .halt, faultCause := .identityMismatch } :=
  ⟨rfl, by decide, rfl, rfl⟩

theorem run_idle : RunInv (idle .t2) := ⟨control_idle, ⟨by decide, rfl, rfl, by decide, rfl⟩, trivial, rfl⟩

/-- The last header byte is due; the request is `READ_FLASH 0x1F, _` (V-D3, V-D4). -/
theorem run_header (b : Byte) : RunInv (withRx { inHdr 0x10 7 with reqAddr := 0x1F } [b]) :=
  ⟨⟨rfl, iff_of_false nofun nofun, rfl, rfl⟩, ⟨(by decide : Config.t2.ok = true), rfl, rfl, nofun, rfl⟩, rfl, rfl⟩

theorem chunkIn_five (q : Seq) (o : Byte) : (inChunk q o 8 5).chunkIn :=
  ⟨(by decide : 8 + 5 ≤ 32), (by decide : 1 ≤ 5), (by decide : 5 ≤ 8), (by decide : 5 ≤ 5)⟩

/-- The chip is busy with the erase of V-WF1's sector. -/
theorem run_erasing : RunInv (busy (erasing .poll) (some 1)) :=
  ⟨⟨rfl, by decide, rfl, rfl⟩, ⟨by decide, rfl, rfl, by decide, rfl⟩, rfl,
    ⟨.inl rfl, chunkIn_five .wrErase 0x20, trivial, by decide, by decide, by decide⟩⟩

/-- The first page program of P1 is due. -/
theorem run_programming : RunInv (programming (.issue 1)) :=
  ⟨⟨rfl, by decide, rfl, rfl⟩, ⟨by decide, rfl, rfl, by decide, rfl⟩, rfl,
    ⟨.inr rfl, chunkIn_five .wrProgram 0x20, by show 1 ≤ 1; exact le_rfl, by decide, by decide, by decide⟩⟩

/-! ## Witnesses: a state and operands for the hypotheses of each obligation -/

theorem witness_DecodeEncodeAgree_serial :
    ∃ c i, Config.ok c = true ∧ Instr.wellFormed c i = true ∧ i.link ≠ .spi ∧ i.payload ≠ [] :=
  ⟨.t2, .cliW 8 2 [1], by decide⟩

theorem witness_DecodeEncodeAgree_spi :
    ∃ c i, Config.ok c = true ∧ Instr.wellFormed c i = true ∧ i.link = .spi ∧ c.commandBytes.Nodup ∧
      ∀ m bs, i = .tRaw (m :: bs) → m ∉ c.commandBytes :=
  ⟨.t2, .tProgram 4 [5, 6], by decide, by decide, rfl, by decide, fun _ _ h => by cases h⟩

theorem witness_DecodeEncodeAgree_raw :
    ∃ c i, Config.ok c = true ∧ Instr.wellFormed c i = true ∧ i.link = .spi ∧ c.commandBytes.Nodup ∧
      i = .tRaw [0x06] ∧ ∀ m bs, i = .tRaw (m :: bs) → m ∉ c.commandBytes :=
  ⟨.t2, .tRaw [0x06], by decide, by decide, rfl, by decide, rfl, fun m bs h => by cases h; decide⟩

/-- V-I1. -/
theorem witness_InitializeRunsPreludeThenChecksIdentity :
    ∃ s : State, s.cfg.ok = true ∧ s.seq = .reset ∧ s.turns = [] ∧ s.flash.chipMfr = s.cfg.expMfr ∧
      s.flash.chipDev = s.cfg.expDev :=
  ⟨State.atReset .t2, by decide⟩

/-- V-I4. -/
theorem witness_InitializeRunsPreludeThenChecksIdentity_mismatch :
    ∃ s : State, s.cfg.ok = true ∧ s.seq = .reset ∧ s.turns = [] ∧ s.flash.chipMfr = s.cfg.expMfr ∧
      s.flash.chipDev ≠ s.cfg.expDev :=
  ⟨chip (State.atReset .t2) 0xEF 0x4114, by decide⟩

/-- A block about to read an identity that does not match. -/
def verifying : State := { chip (State.atReset .t2) 0xEF 0x4015 with seq := .init, drv := .verifying }

theorem witness_IdentityMismatchEntry :
    verifying.cfg.ok = true ∧ verifying.blockTurn ∧ verifying.seq = .init ∧ verifying.drv = .verifying ∧
      (∀ k, verifying.micro = .issue k → verifying.cfg.initPrelude.length ≤ k) ∧
      ¬(verifying.flash.chipMfr = verifying.cfg.expMfr ∧ verifying.flash.chipDev = verifying.cfg.expDev) :=
  ⟨by decide, .inr ⟨rfl, rfl⟩, rfl, rfl, fun _ _ => Nat.zero_le _, by decide⟩

/-- A byte arrives at a block in `S_HALT` (V-X4). -/
theorem witness_HaltedBlockIsSilent :
    ∃ s t : State, s.seq = .halt ∧ ¬s.resetNow ∧ step s = .next t ∧ t.rxQ = [0x10] :=
  ⟨withScript { idle .t2 with seq := .halt } [.send 0x10] [], _, rfl, not_resetNow_of_nil rfl, rfl, rfl⟩

/-- The chip ends its operation under a halted block. -/
theorem witness_HaltedBlockIsSilent_chip :
    ∃ s t : State, s.seq = .halt ∧ ¬s.resetNow ∧ step s = .next t ∧ s.flash.wip = true ∧ t.flash.wip = false :=
  ⟨{ busy (idle .t2) (some 0) with seq := .halt }, _, rfl, not_resetNow_of_nil rfl, rfl, rfl, rfl⟩

theorem witness_ReadyAndFaultedAreLeftOnlyByReset_ready :
    ControlInv (idle .t2) ∧ ¬(idle .t2).resetNow ∧ (idle .t2).drv = .ready ∧ ∃ t, step (idle .t2) = .next t :=
  ⟨control_idle, not_resetNow_of_nil rfl, rfl, _, rfl⟩

theorem witness_ReadyAndFaultedAreLeftOnlyByReset_faulted :
    ∃ s t : State, ControlInv s ∧ ¬s.resetNow ∧ s.drv = .faulted ∧ step s = .next t :=
  ⟨_, _, control_halt, not_resetNow_of_nil rfl, rfl, rfl⟩

theorem witness_RawTransactionDrivesItsBytes : ([0x06] : List Byte) ≠ [] ∧ (State.atReset .t2).drv ≠ .faulted := by decide

theorem witness_IdentityReadLatchesWhatTheChipReports : verifying.drv ≠ .faulted := by decide

theorem witness_StatusReadReportsTheOperation :
    (busy (idle .t2) none).cfg.ok = true ∧ (busy (idle .t2) none).drv = .ready := by decide

/-- A full buffer, up to the end of the chip. -/
theorem witness_ReadBurstFillsTheStagingBuffer :
    ∃ (a n : Word) (s : State), s.drv = .ready ∧ 1 ≤ n.toNat ∧ n.toNat ≤ s.cfg.sectorSize ∧
      a.toNat % 2 ^ (8 * s.cfg.addrBytes) + n.toNat ≤ s.cfg.totalSize ∧ s.flash.wip = false :=
  ⟨24, 8, idle .t2, by decide⟩

theorem witness_WhereTransactionsStop_faulted : ∃ s : State, s.drv = .faulted :=
  ⟨{ idle .t2 with drv := .faulted }, rfl⟩

theorem witness_WhereTransactionsStop_not_ready : ∃ s : State, s.drv ≠ .faulted ∧ s.drv ≠ .ready :=
  ⟨State.atReset .t2, by decide⟩

/-- One byte more than the staging buffer has. -/
theorem witness_WhereTransactionsStop_staging :
    ∃ (s : State) (n : Word), s.drv = .ready ∧ n.toNat = s.cfg.sectorSize + 1 :=
  ⟨idle .t2, 9, by decide⟩

/-- One byte beyond the end of the chip. -/
theorem witness_WhereTransactionsStop_read_address :
    ∃ (s : State) (a n : Word), s.drv = .ready ∧ 1 ≤ n.toNat ∧ n.toNat ≤ s.cfg.sectorSize ∧
      s.cfg.totalSize + 1 = a.toNat % 2 ^ (8 * s.cfg.addrBytes) + n.toNat :=
  ⟨idle .t2, 31, 2, by decide⟩

/-- The last byte of a busy chip. -/
theorem witness_WhereTransactionsStop_read_busy :
    ∃ (s : State) (a n : Word), s.drv = .ready ∧ 1 ≤ n.toNat ∧ n.toNat ≤ s.cfg.sectorSize ∧
      a.toNat % 2 ^ (8 * s.cfg.addrBytes) + n.toNat = s.cfg.totalSize ∧ s.flash.wip = true :=
  ⟨busy (idle .t2) none, 31, 1, by decide⟩

theorem witness_WhereTransactionsStop_program_address :
    ∃ (s : State) (a : Word), s.drv = .ready ∧ s.cfg.totalSize = a.toNat % 2 ^ (8 * s.cfg.addrBytes) :=
  ⟨idle .t2, 32, by decide⟩

theorem witness_WhereTransactionsStop_program_busy :
    ∃ (s : State) (a : Word), s.drv = .ready ∧ a.toNat % 2 ^ (8 * s.cfg.addrBytes) + 1 = s.cfg.totalSize ∧
      s.flash.wip = true :=
  ⟨busy (idle .t2) none, 31, by decide⟩

theorem witness_WhereTransactionsStop_erase_unaligned :
    ∃ (s : State) (a : Word), s.drv = .ready ∧ a.toNat % 2 ^ (8 * s.cfg.addrBytes) % s.cfg.sectorSize ≠ 0 :=
  ⟨idle .t2, 7, by decide⟩

theorem witness_WhereTransactionsStop_erase_address :
    ∃ (s : State) (a : Word), s.drv = .ready ∧ a.toNat % 2 ^ (8 * s.cfg.addrBytes) % s.cfg.sectorSize = 0 ∧
      s.cfg.totalSize < a.toNat % 2 ^ (8 * s.cfg.addrBytes) + s.cfg.sectorSize :=
  ⟨idle .t2, 32, by decide⟩

theorem witness_WhereTransactionsStop_erase_busy :
    ∃ (s : State) (a : Word), s.drv = .ready ∧ a.toNat % 2 ^ (8 * s.cfg.addrBytes) % s.cfg.sectorSize = 0 ∧
      a.toNat % 2 ^ (8 * s.cfg.addrBytes) + s.cfg.sectorSize = s.cfg.totalSize ∧ s.flash.wip = true :=
  ⟨busy (idle .t2) none, 24, by decide⟩

/-- The page wrap below V-W9. -/
theorem witness_ProgramAndsIntoThePage :
    ∃ (a : Word) (d : List Byte) (s : State), s.cfg.ok = true ∧ s.drv = .ready ∧ d ≠ [] ∧
      a.toNat % 2 ^ (8 * s.cfg.addrBytes) < s.cfg.totalSize ∧ s.flash.wip = false ∧ s.flash.mem.wf = true ∧
      s.cfg.writePrelude <:+ s.flash.rawRun :=
  ⟨6, [0xA1, 0xA2, 0xA3], enabled (idle .t2), by decide⟩

/-- A whole page, at the end of the chip. -/
theorem witness_ProgramOnErasedBytesStoresTheData :
    ∃ (a : Word) (d : List Byte) (s t : State), s.cfg.ok = true ∧ s.flash.mem.wf = true ∧
      s.cfg.writePrelude <:+ s.flash.rawRun ∧ d ≠ [] ∧
      a.toNat % 2 ^ (8 * s.cfg.addrBytes) % s.cfg.pageSize + d.length ≤ s.cfg.pageSize ∧
      (∀ i, i < d.length → Memory.read s.flash.mem (a.toNat % 2 ^ (8 * s.cfg.addrBytes) + i) = 0xFF#8) ∧
      exec (.tProgram a d) s = .next t :=
  ⟨28, [1, 2, 3, 4], enabled (idle .t2), _, by decide, rfl, by decide, by decide, by decide, fun _ _ => rfl, rfl⟩

/-- The last sector. -/
theorem witness_ErasesSetTheirBytes_sector :
    ∃ (a : Word) (s : State), s.drv = .ready ∧ s.flash.wip = false ∧ s.cfg.writePrelude <:+ s.flash.rawRun ∧
      a.toNat % 2 ^ (8 * s.cfg.addrBytes) % s.cfg.sectorSize = 0 ∧
      a.toNat % 2 ^ (8 * s.cfg.addrBytes) + s.cfg.sectorSize ≤ s.cfg.totalSize :=
  ⟨24, enabled (idle .t2), by decide⟩

theorem witness_ErasesSetTheirBytes_chip :
    ∃ s : State, s.drv = .ready ∧ s.flash.wip = false ∧ s.cfg.writePrelude <:+ s.flash.rawRun :=
  ⟨enabled (idle .t3), by decide⟩

theorem witness_WithoutWriteEnableNothingIsStored :
    ∃ (a : Word) (s : State), s.drv = .ready ∧ s.flash.wip = false ∧ ¬s.cfg.writePrelude <:+ s.flash.rawRun ∧
      a.toNat % 2 ^ (8 * s.cfg.addrBytes) < s.cfg.totalSize ∧
      a.toNat % 2 ^ (8 * s.cfg.addrBytes) % s.cfg.sectorSize = 0 ∧
      a.toNat % 2 ^ (8 * s.cfg.addrBytes) + s.cfg.sectorSize ≤ s.cfg.totalSize :=
  ⟨24, idle .t2, by decide⟩

theorem witness_ChipEraseEqualsSectorErases :
    ∃ (c : Config) (f : Flash), c.ok = true ∧ f.mem.below c.totalSize = true ∧ f.mem.length = c.totalSize :=
  ⟨.t2, (withMem (idle .t2) (counting 32)).flash, by decide⟩

/-- V-D6: 0x0F and 0x11 are the neighbours of an opcode. -/
theorem witness_IgnoredByteIsOnlyConsumed :
    ∃ (b : Byte) (rest : List Byte) (s : State), s.cfg.ok = true ∧ s.blockTurn ∧ s.seq = .waitCmd ∧ s.rxQ = b :: rest ∧
      b ≠ 0x10#8 ∧ b ≠ 0x20#8 :=
  ⟨0x11, [0x10], withRx (idle .t2) [0x11, 0x10], by decide, .inr ⟨rfl, rfl⟩, rfl, rfl, by decide, by decide⟩

theorem witness_OpcodeOpensTheHeader_waits : ∃ s : State, s.seq = .waitCmd ∧ s.rxQ = [] := ⟨idle .t2, rfl, rfl⟩

theorem witness_OpcodeOpensTheHeader :
    ∃ (b : Byte) (rest : List Byte) (s : State), s.cfg.ok = true ∧ s.blockTurn ∧ s.seq = .waitCmd ∧ s.rxQ = b :: rest ∧
      b = 0x20#8 :=
  ⟨0x20, [], withRx (idle .t2) [0x20], by decide, .inr ⟨rfl, rfl⟩, rfl, rfl, rfl⟩

/-- The last address byte. -/
theorem witness_HeaderByteIsShiftedIn_address :
    ∃ (h : Byte) (rest : List Byte) (s : State), s.cfg.ok = true ∧ s.blockTurn ∧ s.seq = .hdr ∧ s.rxQ = h :: rest ∧
      s.hdrIdx ≠ 7#3 ∧ s.hdrIdx.toNat = 3 :=
  ⟨1, [], withRx (inHdr 0x10 3) [1], by decide, .inr ⟨rfl, rfl⟩, rfl, rfl, by decide, rfl⟩

/-- The last length byte but one. -/
theorem witness_HeaderByteIsShiftedIn_length :
    ∃ (h : Byte) (rest : List Byte) (s : State), s.cfg.ok = true ∧ s.blockTurn ∧ s.seq = .hdr ∧ s.rxQ = h :: rest ∧
      s.hdrIdx ≠ 7#3 ∧ s.hdrIdx.toNat = 6 :=
  ⟨1, [], withRx (inHdr 0x20 6) [1], by decide, .inr ⟨rfl, rfl⟩, rfl, rfl, by decide, rfl⟩

/-- P1's first frame and its first payload byte. -/
theorem witness_FrameIsRunByItsLastByte :
    ∃ (h1 h2 h3 h4 h5 h6 h7 h8 : Byte) (rest : List Byte) (i : Instr) (s : State), s.cfg.ok = true ∧ s.seq = .waitCmd ∧
      s.turns = [] ∧ s.rxQ = 0x20#8 :: h1 :: h2 :: h3 :: h4 :: h5 :: h6 :: h7 :: h8 :: rest ∧
      decodeFrame s.rxQ = .instr i rest :=
  ⟨0, 0, 0, 8, 0, 0, 0, 5, [0x11], .writeFlash 8 5, withRx (idle .t2) [0x20, 0, 0, 0, 8, 0, 0, 0, 5, 0x11], by decide⟩

/-- V-D5: the end of the chip, nothing to read. -/
theorem witness_RequestInContractIsAccepted :
    ∃ (a n : Word) (s : State), s.drv = .ready ∧ a.toNat + n.toNat = s.cfg.totalSize :=
  ⟨0x20, 0, idle .t2, by decide⟩

/-- V-D4. -/
theorem witness_RequestOutOfContractIsRefused :
    ∃ (a n : Word) (s : State), s.drv = .ready ∧ s.cfg.totalSize + 1 = a.toNat + n.toNat :=
  ⟨0x1F, 2, idle .t2, by decide⟩

theorem witness_RequestOutOfContractIsRefused_not_ready : ∃ s : State, s.drv ≠ .ready := ⟨State.atReset .t2, by decide⟩

theorem witness_ChunkDecision_end :
    ∃ s : State, s.cfg.ok = true ∧ s.blockTurn ∧ s.seq = .chunk ∧ s.rem = 0 :=
  ⟨inChunk .chunk 0x10 8 0, by decide, .inr ⟨rfl, rfl⟩, rfl, rfl⟩

/-- One byte more than a sector is left. -/
theorem witness_ChunkDecision_read :
    ∃ s : State, s.cfg.ok = true ∧ s.blockTurn ∧ s.seq = .chunk ∧ s.rem ≠ 0 ∧ s.op = 0x10#8 ∧
      s.rem.toNat = s.cfg.sectorSize + 1 :=
  ⟨inChunk .chunk 0x10 8 9, by decide, .inr ⟨rfl, rfl⟩, rfl, by decide, rfl, rfl⟩

theorem witness_ChunkDecision_write :
    ∃ s : State, s.cfg.ok = true ∧ s.blockTurn ∧ s.seq = .chunk ∧ s.rem ≠ 0 ∧ s.op = 0x20#8 ∧
      s.rem.toNat = s.cfg.sectorSize :=
  ⟨inChunk .chunk 0x20 8 8, by decide, .inr ⟨rfl, rfl⟩, rfl, by decide, rfl, rfl⟩

/-- The last byte but one of a chunk. -/
theorem witness_DrainSendsOneByte_more :
    ∃ (b : Byte) (s : State), s.cfg.ok = true ∧ s.blockTurn ∧ s.seq = .rdDrain ∧ s.buf[s.bufIdx.toNat]? = some b ∧
      s.bufIdx.toNat + 1 < s.chunkLen.toNat :=
  ⟨0, { inChunk .rdDrain 0x10 8 5 with bufIdx := 3 }, by decide, .inr ⟨rfl, rfl⟩, rfl, rfl, by decide⟩

theorem witness_DrainSendsOneByte_last :
    ∃ (b : Byte) (s : State), s.cfg.ok = true ∧ s.blockTurn ∧ s.seq = .rdDrain ∧ s.buf[s.bufIdx.toNat]? = some b ∧
      s.chunkLen.toNat ≤ s.bufIdx.toNat + 1 :=
  ⟨0, { inChunk .rdDrain 0x10 8 5 with bufIdx := 4 }, by decide, .inr ⟨rfl, rfl⟩, rfl, rfl, by decide⟩

theorem witness_ReadyByteIsSent :
    ∃ s : State, s.cfg.ok = true ∧ s.drv = .ready ∧ s.blockTurn ∧ s.seq = .wrReady :=
  ⟨inChunk .wrReady 0x20 8 5, by decide, rfl, .inr ⟨rfl, rfl⟩, rfl⟩

theorem witness_ReadyByteIsSent_not_ready : ∃ s : State, s.drv ≠ .ready := ⟨State.atReset .t2, by decide⟩

/-- Taking payload byte `i` of five. -/
def receiving (i : Word) : State := { withRx (inChunk .wrRecv 0x20 8 5) [0x55] with bufIdx := i }

theorem witness_PayloadByteIsStored_last :
    ∃ (b : Byte) (rest : List Byte) (s : State), s.cfg.ok = true ∧ s.blockTurn ∧ s.seq = .wrRecv ∧ s.rxQ = b :: rest ∧
      s.bufIdx.toNat < s.buf.length ∧ s.chunkLen.toNat ≤ s.bufIdx.toNat + 1 :=
  ⟨0x55, [], receiving 4, by decide, .inr ⟨rfl, rfl⟩, rfl, rfl, by decide, by decide⟩

theorem witness_PayloadByteIsStored_waits : ∃ s : State, s.seq = .wrRecv ∧ s.rxQ = [] :=
  ⟨inChunk .wrRecv 0x20 8 5, rfl, rfl⟩

theorem witness_PayloadByteIsStored_more :
    ∃ (b : Byte) (rest : List Byte) (s : State), s.cfg.ok = true ∧ s.blockTurn ∧ s.seq = .wrRecv ∧ s.rxQ = b :: rest ∧
      s.bufIdx.toNat < s.buf.length ∧ s.bufIdx.toNat + 1 < s.chunkLen.toNat :=
  ⟨0x55, [], receiving 3, by decide, .inr ⟨rfl, rfl⟩, rfl, rfl, by decide, by decide⟩

theorem witness_EraseCallCoversTheChunk :
    ∃ (b : Byte) (rest : List Byte) (s : State), s.cfg.ok = true ∧ s.blockTurn ∧ s.seq = .wrRecv ∧ s.rxQ = b :: rest ∧
      s.bufIdx.toNat < s.buf.length ∧ s.chunkLen.toNat = s.bufIdx.toNat + 1 ∧ s.chunkIn :=
  ⟨0x55, [], receiving 4, by decide, .inr ⟨rfl, rfl⟩, rfl, rfl, by decide, rfl, chunkIn_five .wrRecv 0x20⟩

theorem witness_EraseStepIssuesPreludeEraseThenPolls_prelude :
    ∃ (s : State) (k : Nat) (p : List Byte), s.cfg.ok = true ∧ s.blockTurn ∧ s.drv = .ready ∧
      s.seq = .wrErase ∧ s.erasePending = true ∧ s.eraseRefused = false ∧
      s.micro = .issue k ∧ s.cfg.writePrelude[k]? = some p :=
  ⟨erasing (.issue 0), 0, [0x06], by decide, .inr ⟨rfl, rfl⟩, rfl, rfl, by decide, by decide, rfl, rfl⟩

theorem witness_EraseStepIssuesPreludeEraseThenPolls_own :
    ∃ (s : State) (k : Nat), s.cfg.ok = true ∧ s.blockTurn ∧ s.drv = .ready ∧
      s.seq = .wrErase ∧ s.erasePending = true ∧ s.eraseRefused = false ∧
      s.micro = .issue k ∧ k = s.cfg.writePrelude.length ∧ s.flash.wip = false :=
  ⟨erasing (.issue 1), 1, by decide, .inr ⟨rfl, rfl⟩, rfl, rfl, by decide, by decide, rfl, rfl, rfl⟩

theorem witness_EraseStepIssuesPreludeEraseThenPolls_poll :
    ∃ s : State, s.cfg.ok = true ∧ s.blockTurn ∧ s.drv = .ready ∧
      s.seq = .wrErase ∧ s.erasePending = true ∧ s.eraseRefused = false ∧ s.micro = .poll :=
  ⟨erasing .poll, by decide, .inr ⟨rfl, rfl⟩, rfl, rfl, by decide, by decide, rfl⟩

theorem witness_ProgramStepIssuesPreludeProgramThenPolls_prelude :
    ∃ (s : State) (k : Nat) (p : List Byte), s.cfg.ok = true ∧ s.blockTurn ∧ s.drv = .ready ∧
      s.seq = .wrProgram ∧ s.wrOff.toNat < s.chunkLen.toNat ∧
      s.micro = .issue k ∧ s.cfg.writePrelude[k]? = some p :=
  ⟨programming (.issue 0), 0, [0x06], by decide, .inr ⟨rfl, rfl⟩, rfl, rfl, by decide, rfl, rfl⟩

theorem witness_ProgramStepIssuesPreludeProgramThenPolls_own :
    ∃ (s : State) (k : Nat), s.cfg.ok = true ∧ s.blockTurn ∧ s.drv = .ready ∧
      s.seq = .wrProgram ∧ s.wrOff.toNat < s.chunkLen.toNat ∧
      s.micro = .issue k ∧ k = s.cfg.writePrelude.length ∧ s.flash.wip = false ∧ (s.curAddr + s.wrOff).toNat < s.cfg.totalSize :=
  ⟨programming (.issue 1), 1, by decide, .inr ⟨rfl, rfl⟩, rfl, rfl, by decide, rfl, rfl, rfl, by decide⟩

theorem witness_ProgramStepIssuesPreludeProgramThenPolls_poll :
    ∃ s : State, s.cfg.ok = true ∧ s.blockTurn ∧ s.drv = .ready ∧
      s.seq = .wrProgram ∧ s.wrOff.toNat < s.chunkLen.toNat ∧ s.micro = .poll :=
  ⟨programming .poll, by decide, .inr ⟨rfl, rfl⟩, rfl, rfl, by decide, rfl⟩

/-- A program step goes on to its next transaction. -/
theorem witness_WriteModeIsChosenOncePerCall_next :
    ∃ s t : State, ¬s.resetNow ∧ step s = .next t ∧ t.seq = .wrProgram ∧ s.seq = .wrProgram :=
  ⟨programming (.issue 0), _, not_resetNow_of_nil rfl, rfl, rfl, rfl⟩

/-- A call that has nothing to erase is followed by the program. -/
theorem witness_WriteModeIsChosenOncePerCall_begin :
    ∃ s t : State, ¬s.resetNow ∧ step s = .next t ∧ t.seq = .wrProgram ∧ s.seq = .wrErase :=
  ⟨{ erasing .poll with erCount := 0 }, _, not_resetNow_of_nil rfl, rfl, rfl, rfl⟩

theorem witness_NoProgramCrossesAPage :
    RunInv (programming (.issue 1)) ∧ (programming (.issue 1)).fetch = some (.tProgram 8 [0x11, 0x22, 0x33, 0x44]) :=
  ⟨run_programming, by decide⟩

/-- What a poll of `s` reads: busy while the operation's draw has not run out. -/
def Polls (s : State) (busy : Bool) : Prop :=
  s.cfg.ok = true ∧ s.blockTurn ∧ s.drv = .ready ∧ s.micro = .poll ∧ s.eraseRefused = false ∧
    ((s.seq = .wrErase ∧ s.erasePending = true) ∨ (s.seq = .wrProgram ∧ s.programPending = true)) ∧
    ∃ u, exec .tReadStatus s.takeTurn = .next u ∧ (u.status &&& s.cfg.wipMask ≠ 0 ↔ busy = true)

/-- Every poll of a ready driver in one of its two polling states. -/
theorem polls {s : State} (hc : s.cfg.ok = true) (ht : s.turns = []) (hb : s.blockCanMove = true) (hd : s.drv = .ready)
    (hm : s.micro = .poll) (hr : s.eraseRefused = false)
    (hs : (s.seq = .wrErase ∧ s.erasePending = true) ∨ (s.seq = .wrProgram ∧ s.programPending = true)) :
    Polls s s.flash.poll.wip :=
  ⟨hc, .inr ⟨ht, hb⟩, hd, hm, hr, hs, _, execTReadStatus_next.2 ⟨hd, rfl⟩,
    statusByte_and_wipMask (Config.ok_geometry hc).2.2.2.2.2.2 _ _⟩

theorem witness_PollsUntilNotBusy_busy : Polls (busy (erasing .poll) (some 1)) true :=
  polls (by decide) rfl rfl rfl rfl (by decide) (by decide)

/-- The first of two sectors is done, neither region the whole chip. -/
theorem witness_PollsUntilNotBusy_next_sector :
    Polls { erasing .poll with erCount := 2 } false ∧ ¬(8#32 = 0 ∧ 2 = Config.t2.sectorCount) ∧ (0#32 + 1).toNat < 2 :=
  ⟨polls (by decide) rfl rfl rfl rfl (by decide) (by decide), by decide, by decide⟩

/-- The last sector is done. -/
theorem witness_PollsUntilNotBusy_last_sector :
    Polls (busy (erasing .poll) (some 0)) false ∧ ¬(8#32 = 0 ∧ 1 = Config.t2.sectorCount) ∧ 1 ≤ (0#32 + 1).toNat :=
  ⟨polls (by decide) rfl rfl rfl rfl (by decide) (by decide), by decide, by decide⟩

/-- The chip erase is done. -/
theorem witness_PollsUntilNotBusy_whole_chip :
    ∃ s : State, Polls s false ∧ s.seq = .wrErase ∧ s.erAddr = 0 ∧ s.erCount.toNat = s.cfg.sectorCount :=
  ⟨{ erasing .poll with erAddr := 0, erCount := 4 }, polls (by decide) rfl rfl rfl rfl (by decide) (by decide), by decide⟩

/-- Four of the five bytes are programmed. -/
theorem witness_PollsUntilNotBusy_program_next :
    ∃ s : State, Polls s false ∧ s.seq = .wrProgram ∧ s.wrPageMode = true ∧ (s.wrOff + 4).toNat + 1 = s.chunkLen.toNat ∧
      min s.cfg.pageSize (s.chunkLen.toNat - s.wrOff.toNat) = 4 :=
  ⟨programming .poll, polls (by decide) rfl rfl rfl rfl (by decide) (by decide), by decide⟩

/-- The fifth byte is programmed. -/
theorem witness_PollsUntilNotBusy_program_last :
    ∃ s : State, Polls s false ∧ s.seq = .wrProgram ∧ s.wrPageMode = true ∧ (s.wrOff + 1).toNat = s.chunkLen.toNat ∧
      min s.cfg.pageSize (s.chunkLen.toNat - s.wrOff.toNat) = 1 :=
  ⟨{ programming .poll with wrOff := 4 }, polls (by decide) rfl rfl rfl rfl (by decide) (by decide), by decide⟩

/-- V-X5. -/
theorem witness_BusyForEverPollsForEver :
    ∃ s : State, s.cfg.ok = true ∧ s.drv = .ready ∧ s.turns = [] ∧ s.hung ∧ s.eraseRefused = false :=
  ⟨busy (erasing .poll) none, by decide, rfl, rfl, ⟨.inl ⟨rfl, by decide⟩, rfl, rfl, rfl, rfl⟩, by decide⟩

theorem witness_OnlyPollsWhileBusy :
    RunInv (busy (erasing .poll) (some 1)) ∧ (busy (erasing .poll) (some 1)).flash.wip = true ∧
      (busy (erasing .poll) (some 1)).fetch = some .tReadStatus :=
  ⟨run_erasing, rfl, by decide⟩

/-- A chunk of two bytes, and a byte after it. -/
theorem witness_ReadyAndPayloadAlternate_waiting :
    ∃ (D rest : List Byte) (s : State), s.cfg.ok = true ∧ s.seq = .wrReady ∧ s.drv = .ready ∧ s.turns = [] ∧
      s.bufIdx = 0 ∧ D ≠ [] ∧ s.chunkLen.toNat = D.length ∧ D.length ≤ s.buf.length ∧ s.delivers D (.waiting rest) :=
  ⟨[1, 2], [3], withRx (inChunk .wrReady 0x20 8 2) [1, 2, 3], by decide, rfl, rfl, rfl, rfl, by decide, rfl, by decide, rfl⟩

/-- The same chunk, paced over a receive holding of one byte, with a third byte for the next chunk. -/
theorem witness_ReadyAndPayloadAlternate_paced :
    ∃ (D : List Byte) (acts : List HostAct) (s : State), s.cfg.ok = true ∧ s.seq = .wrReady ∧ s.drv = .ready ∧
      s.turns = [] ∧ s.bufIdx = 0 ∧ D ≠ [] ∧ s.chunkLen.toNat = D.length ∧ D.length ≤ s.buf.length ∧
      s.cfg.rxDepth = some 1 ∧ s.delivers D (.paced acts) :=
  ⟨[1, 2], sendPaced [3], withScript (inChunk .wrReady 0x20 8 2) (sendPaced [1, 2, 3]) [], by decide, rfl, rfl, rfl, rfl,
    by decide, rfl, by decide, rfl, rfl, rfl, rfl, by decide, rfl⟩

/-- V-RF2. -/
theorem witness_ReadFlashSendsFlashContent :
    ∃ (a n : Word) (s : State), s.cfg.ok = true ∧ s.drv = .ready ∧ s.turns = [] ∧ s.flash.wip = false ∧
      s.buf.length = s.cfg.sectorSize ∧ s.cs = false ∧ a.toNat + n.toNat ≤ s.cfg.totalSize ∧
      s.cfg.sectorSize < n.toNat :=
  ⟨3, 20, withMem (idle .t2) (counting 32), by decide⟩

/-- The premises of the two statements about a whole `WRITE_FLASH`. -/
def Writes (a n : Word) (D : List Byte) (way : Delivery) (s : State) : Prop :=
  s.cfg.ok = true ∧ s.drv = .ready ∧ s.turns = [] ∧ s.flash.wip = false ∧ s.flash.mem.wf = true ∧
    s.flash.mem.below s.cfg.totalSize = true ∧ s.buf.length = s.cfg.sectorSize ∧ s.cs = false ∧
    (∀ q, q ∈ s.flash.draws → q ≠ none) ∧ a.toNat + n.toNat ≤ s.cfg.totalSize ∧ D.length = n.toNat ∧ s.delivers D way

/-- P1: page aligned, the chip busy for one poll after each operation. -/
theorem witness_WriteFlashStoresThePayload_aligned :
    ∃ s, Writes 8 5 [0x11, 0x22, 0x33, 0x44, 0x55] (.waiting []) s ∧ (8#32).toNat % s.cfg.sectorSize = 0 :=
  ⟨withDraws (withRx (idle .t2) [0x11, 0x22, 0x33, 0x44, 0x55]) [some 1, some 1, some 1],
    ⟨by decide, rfl, rfl, rfl, rfl, rfl, rfl, rfl, by decide, by decide, rfl, rfl⟩, rfl⟩

/-- P1, its payload paced over a receive holding of one byte. -/
theorem witness_WriteFlashStoresThePayload_paced :
    ∃ s, Writes 8 5 [0x11, 0x22, 0x33, 0x44, 0x55] (.paced []) s ∧ s.cfg.rxDepth = some 1 ∧
      (8#32).toNat % s.cfg.sectorSize = 0 :=
  ⟨withScript (idle .t2) (sendPaced [0x11, 0x22, 0x33, 0x44, 0x55]) [],
    ⟨by decide, rfl, rfl, rfl, rfl, rfl, rfl, rfl, by decide, by decide, rfl, rfl, rfl, rfl, by decide, rfl⟩, rfl, rfl⟩

/-- P4: unaligned, one chunk; the covering sectors are the whole chip. -/
theorem witness_WriteFlashStoresThePayload_one_chunk :
    ∃ s, Writes 4 8 [1, 2, 3, 4, 5, 6, 7, 8] (.waiting [0x10]) s ∧ (8#32).toNat = s.cfg.sectorSize ∧
      (4#32).toNat % s.cfg.sectorSize ≠ 0 :=
  ⟨withRx (idle .t3) [1, 2, 3, 4, 5, 6, 7, 8, 0x10],
    ⟨by decide, rfl, rfl, rfl, rfl, rfl, rfl, rfl, by decide, by decide, rfl, rfl⟩, rfl, by decide⟩

/-- P2; the first byte lies in a chunk that is not the last. -/
theorem witness_UnalignedLongWriteLosesChunkTails_waiting :
    ∃ s, Writes 4 12 (List.replicate 12 0xA0) (.waiting []) s ∧ (4#32).toNat % s.cfg.sectorSize ≠ 0 ∧
      s.cfg.sectorSize < (12#32).toNat ∧ 0 / s.cfg.sectorSize < ((12#32).toNat - 1) / s.cfg.sectorSize :=
  ⟨withRx (idle .t2) (List.replicate 12 0xA0),
    ⟨by decide, rfl, rfl, rfl, rfl, rfl, rfl, rfl, by decide, by decide, rfl, rfl⟩, by decide, by decide, by decide⟩

/-- One byte more than a sector, paced, over the bytes of V-R2. -/
theorem witness_UnalignedLongWriteLosesChunkTails_paced :
    ∃ s, Writes 7 9 (List.replicate 9 0xA0) (.paced []) s ∧ (7#32).toNat % s.cfg.sectorSize ≠ 0 ∧
      s.cfg.sectorSize + 1 = (9#32).toNat :=
  ⟨withMem (withScript (idle .t2) (sendPaced (List.replicate 9 0xA0)) []) (counting 32),
    ⟨by decide, rfl, rfl, rfl, by decide, by decide, rfl, rfl, by decide, by decide, rfl, rfl, rfl, rfl, by decide, rfl⟩,
    by decide, rfl⟩

theorem witness_CommandLinesSendTheirFrames :
    ∃ (n : Word) (file : List Byte), file.length = n.toNat := ⟨2, [1, 2], by decide⟩

theorem witness_CommandLinesSendTheirFrames_long :
    ∃ (n : Word) (file : List Byte), n.toNat + 1 = file.length := ⟨1, [1, 2], by decide⟩

theorem witness_CommandLinesSendTheirFrames_short :
    ∃ (n : Word) (file : List Byte), file.length + 1 = n.toNat := ⟨2, [1], by decide⟩

/-- The largest count whose product fits, and the next. -/
theorem witness_DumpReadsFourBytesAWord_count :
    (0x3FFFFFFF : Word).toNat * 4 < 2 ^ 32 ∧ 2 ^ 32 ≤ (0x40000000 : Word).toNat * 4 := by decide

theorem witness_DumpReadsFourBytesAWord_words : 4 * 0 + 3 < ([0x78, 0x56, 0x34, 0x12] : List Byte).length := by decide

/-- Room for the last byte of a holding of one. -/
theorem witness_ReceiveHoldingAndOverrun_room :
    ∃ (b : Byte) (rest : List HostAct) (d : Nat) (s : State), s.cfg.ok = true ∧ s.hostTurn ∧
      s.host.script = .send b :: rest ∧ s.cfg.rxDepth = some d ∧ s.rxQ.length + 1 = d :=
  ⟨1, [], 1, withScript (idle .t2) [.send 1] [], by decide, .inr ⟨rfl, rfl, rfl, rfl⟩, rfl, rfl, rfl⟩

theorem witness_ReceiveHoldingAndOverrun_unbounded :
    ∃ (b : Byte) (rest : List HostAct) (s : State), s.cfg.ok = true ∧ s.hostTurn ∧
      s.host.script = .send b :: rest ∧ s.cfg.rxDepth = none :=
  ⟨1, [], withScript (idle { Config.t2 with rxDepth := none }) [.send 1] [], by decide, .inr ⟨rfl, rfl, rfl, rfl⟩, rfl, rfl⟩

theorem witness_ReceiveHoldingAndOverrun_full :
    ∃ (b : Byte) (rest : List HostAct) (d : Nat) (s : State), s.cfg.ok = true ∧ s.hostTurn ∧
      s.host.script = .send b :: rest ∧ s.cfg.rxDepth = some d ∧ d = s.rxQ.length ∧ s.seq ≠ .halt :=
  ⟨1, [], 1, withTurn (withScript (withRx (idle .t2) [0x10]) [.send 1] []) .host, by decide, .inl rfl, rfl, rfl, rfl,
    by decide⟩

theorem witness_ReceiveHoldingAndOverrun_halt :
    ∃ (b : Byte) (rest : List HostAct) (d : Nat) (s : State), s.cfg.ok = true ∧ s.hostTurn ∧
      s.host.script = .send b :: rest ∧ s.cfg.rxDepth = some d ∧ d = s.rxQ.length ∧ s.seq = .halt :=
  ⟨1, [], 1, withScript { withRx (idle .t2) [0x10] with seq := .halt } [.send 1] [], by decide, .inr ⟨rfl, rfl, rfl, rfl⟩, rfl,
    rfl, rfl, rfl⟩

theorem witness_HostFlowPolicy_ready :
    ∃ (b : Byte) (more : List Byte) (rest : List HostAct) (s : State), s.cfg.ok = true ∧ s.hostTurn ∧
      s.host.script = .awaitReady :: rest ∧ s.host.inbox = b :: more ∧ b = 0x42#8 :=
  ⟨0x42, [], [], withScript (idle .t2) [.awaitReady] [0x42], by decide, .inr ⟨rfl, rfl, rfl, rfl⟩, rfl, rfl, rfl⟩

theorem witness_HostFlowPolicy_lenient :
    ∃ (b : Byte) (more : List Byte) (rest : List HostAct) (s : State), s.cfg.ok = true ∧ s.hostTurn ∧
      s.host.script = .awaitReady :: rest ∧ s.host.inbox = b :: more ∧ b ≠ 0x42#8 ∧ s.cfg.flowPolicy = .lenient :=
  ⟨0x43, [], [], withScript (idle .t2) [.awaitReady] [0x43], by decide, .inr ⟨rfl, rfl, rfl, rfl⟩, rfl, rfl, by decide, rfl⟩

theorem witness_HostFlowPolicy_strict :
    ∃ (b : Byte) (more : List Byte) (rest : List HostAct) (s : State), s.cfg.ok = true ∧ s.hostTurn ∧
      s.host.script = .awaitReady :: rest ∧ s.host.inbox = b :: more ∧ b ≠ 0x42#8 ∧ s.cfg.flowPolicy = .strict :=
  ⟨0x43, [], [], withScript (idle { Config.t2 with flowPolicy := .strict }) [.awaitReady] [0x43], by decide,
    .inr ⟨rfl, rfl, rfl, rfl⟩, rfl, rfl, by decide, rfl⟩

theorem witness_HostStopsWhenItsDestinationFails_unlimited :
    ∃ (b : Byte) (more : List Byte) (rest : List HostAct) (s : State), s.cfg.ok = true ∧ s.hostTurn ∧
      s.host.script = .takeData :: rest ∧ s.host.inbox = b :: more ∧ s.host.sinkRoom = none :=
  ⟨1, [], [], withScript (idle .t2) [.takeData] [1], by decide, .inr ⟨rfl, rfl, rfl, rfl⟩, rfl, rfl, rfl⟩

/-- A destination with room for `k` more bytes. -/
def withRoom (s : State) (k : Nat) : State := { s with host := { s.host with sinkRoom := some k } }

/-- The last byte it takes. -/
theorem witness_HostStopsWhenItsDestinationFails_last :
    ∃ (b : Byte) (more : List Byte) (rest : List HostAct) (s : State), s.cfg.ok = true ∧ s.hostTurn ∧
      s.host.script = .takeData :: rest ∧ s.host.inbox = b :: more ∧ s.host.sinkRoom = some (0 + 1) :=
  ⟨1, [2], [.takeData], withRoom (withScript (idle .t2) [.takeData, .takeData] [1, 2]) 1, by decide,
    .inr ⟨rfl, rfl, rfl, rfl⟩, rfl, rfl, rfl⟩

theorem witness_HostStopsWhenItsDestinationFails_full :
    ∃ (b : Byte) (more : List Byte) (rest : List HostAct) (s : State), s.cfg.ok = true ∧ s.hostTurn ∧
      s.host.script = .takeData :: rest ∧ s.host.inbox = b :: more ∧ s.host.sinkRoom = some 0 :=
  ⟨1, [2], [.takeData], withRoom (withScript (idle .t2) [.takeData, .takeData] [1, 2]) 0, by decide,
    .inr ⟨rfl, rfl, rfl, rfl⟩, rfl, rfl, rfl⟩

theorem witness_ChipEndsItsOperation_scheduled :
    ∃ s : State, s.cfg.ok = true ∧ s.flashTurn ∧ s.flash.wip = true ∧ s.flash.busyPolls = none :=
  ⟨withTurn (busy (idle .t2) none) .flash, by decide, .inl rfl, rfl, rfl⟩

theorem witness_ChipEndsItsOperation_idle :
    ∃ s : State, s.cfg.ok = true ∧ s.flashTurn ∧ s.flash.wip = false :=
  ⟨withTurn (idle .t2) .flash, by decide, .inl rfl, rfl⟩

theorem witness_ChipEndsItsOperation_poll :
    ∃ s t : State, s.flash.wip = true ∧ exec .tReadStatus s = .next t ∧ t.flash.wip = false :=
  ⟨busy (enabled (idle .t2)) (some 0), _, rfl, rfl, rfl⟩

theorem witness_ChipEndsItsOperation_latch :
    ∃ (c : Config) (f : Flash), c.writePrelude ≠ [] ∧ f.rawRun = [] := ⟨.t2, (idle .t2).flash, by decide, rfl⟩

theorem witness_ChipEndsItsOperation_unscheduled :
    ∃ s : State, s.cfg.ok = true ∧ s.flashTurn ∧ s.turns = [] :=
  ⟨busy (idle .t2) (some 3), by decide, .inr ⟨rfl, rfl, rfl⟩, rfl⟩

/-- A frame. -/
theorem witness_StepRunsTheFetchedInstruction_frame :
    ∃ (s : State) (i : Instr), s.cfg.ok = true ∧ s.blockTurn ∧ s.fetch = some i ∧ s.eraseRefused = false ∧
      i = .writeFlash 0 0 :=
  ⟨withRx (inHdr 0x20 7) [0], _, by decide, .inr ⟨rfl, rfl⟩, rfl, by decide, by decide⟩

/-- An SPI transaction. -/
theorem witness_StepRunsTheFetchedInstruction_spi :
    ∃ (s : State) (i : Instr), s.cfg.ok = true ∧ s.blockTurn ∧ s.fetch = some i ∧ s.eraseRefused = false ∧
      i = .tSectorErase 8 :=
  ⟨erasing (.issue 1), .tSectorErase 8, by decide, .inr ⟨rfl, rfl⟩, by decide, by decide, rfl⟩

theorem witness_BadConfigurationIsRefused_sector : ∃ s : State, s.cfg.sectorSize = 0 :=
  ⟨State.atReset { Config.t2 with sectorSize := 0 }, rfl⟩

theorem witness_BadConfigurationIsRefused_total : ∃ s : State, s.cfg.totalSize = 0 :=
  ⟨State.atReset { Config.t2 with totalSize := 0 }, rfl⟩

theorem witness_BadConfigurationIsRefused_multiple : ∃ s : State, s.cfg.totalSize % s.cfg.sectorSize ≠ 0 :=
  ⟨State.atReset { Config.t2 with totalSize := 33 }, by decide⟩

theorem witness_BadConfigurationIsRefused_page :
    ∃ s : State, s.cfg.pageSize ≠ 0 ∧ s.cfg.sectorSize % s.cfg.pageSize ≠ 0 :=
  ⟨State.atReset { Config.t2 with pageSize := 3 }, by decide⟩

theorem witness_BadConfigurationIsRefused_address : ∃ s : State, 2 ^ (8 * s.cfg.addrBytes) < s.cfg.totalSize :=
  ⟨State.atReset { Config.t2 with totalSize := 0x1000008 }, by decide⟩

theorem witness_StepKeepsControlInv : ControlInv (idle .t2) ∧ ∃ t, step (idle .t2) = .next t := ⟨control_idle, _, rfl⟩

theorem witness_StepKeepsMemoryInv :
    MemoryInv (programming (.issue 1)) ∧ ∃ t, step (programming (.issue 1)) = .next t := ⟨run_programming.memory, _, rfl⟩

theorem witness_StepKeepsRunInv :
    RunInv (busy (erasing .poll) (some 1)) ∧ (busy (erasing .poll) (some 1)).noReset ∧
      ∃ t, step (busy (erasing .poll) (some 1)) = .next t :=
  ⟨run_erasing, nofun, _, rfl⟩

theorem witness_ResetMeetsTheInvariants : Config.t3.ok = true := by decide

theorem witness_BlockStopsOnlyOutOfContract_goes_on :
    RunInv (withRx { inHdr 0x10 7 with reqAddr := 0x1F } [1]) ∧
      ∃ t, blockMove (withRx { inHdr 0x10 7 with reqAddr := 0x1F } [1]) = .next t := ⟨run_header 1, _, rfl⟩

theorem witness_BlockStopsOnlyOutOfContract_stops :
    RunInv (withRx { inHdr 0x10 7 with reqAddr := 0x1F } [2]) ∧
      blockMove (withRx { inHdr 0x10 7 with reqAddr := 0x1F } [2]) = .refused .outOfContract := ⟨run_header 2, rfl⟩

theorem witness_SerialBytesAreTakenOnlyInThreeStates :
    ∃ s t : State, blockMove s = .next t ∧ t.rxQ ≠ s.rxQ := ⟨withRx (idle .t2) [0x00], _, rfl, by decide⟩

/-- The page program of P1. -/
theorem witness_FlashContentChangesOnlyWhileWriting :
    ∃ s t : State, step s = .next t ∧ t.flash.mem ≠ s.flash.mem := ⟨enabled (programming (.issue 1)), _, rfl, by decide⟩

theorem witness_OneLinkAtATime : ∃ t, blockMove (erasing .poll) = .next t := ⟨_, rfl⟩

/-- A reset while the chip works on the sector at 8. -/
theorem witness_ResetKeepsBytesOutsideTheOperation :
    ∃ s : State, s.cfg.ok = true ∧ s.turns.head? = some .reset ∧ s.flash.mem.wf = true ∧ s.flash.wip = true ∧
      s.flash.opBase = 8 ∧ s.flash.opLen = 8 :=
  ⟨withTurn (working 8 8) .reset, by decide⟩

/-- The premises of the statement about a reset inside the transaction of `i`. -/
def Cuts (k : Nat) (i : Instr) (u s : State) (es : List Event) : Prop :=
  s.cfg.ok = true ∧ s.turns.head? = some (.cut k) ∧ s.fetch = some i ∧ i.link = .spi ∧ s.eraseRefused = false ∧
    s.flash.wip = false ∧ s.flash.mem.wf = true ∧ exec i s.takeTurn = .next u ∧
    Appends s u (.cs true :: es ++ [.cs false])

/-- The last address byte of a page program is out, no data byte. -/
theorem witness_ResetInsideATransaction_program :
    ∃ u s es, Cuts 4 (.tProgram 8 [0x11, 0x22, 0x33, 0x44]) u s es ∧ 4 = 1 + s.cfg.addrBytes :=
  ⟨_, withTurn (enabled (programming (.issue 1))) (.cut 4), _,
    ⟨by decide, rfl, rfl, rfl, by decide, rfl, rfl, rfl, rfl⟩, rfl⟩

/-- The last address byte of a sector erase is not out. -/
theorem witness_ResetInsideATransaction_erase :
    ∃ u s es, Cuts 3 (.tSectorErase 8) u s es ∧ 3 = s.cfg.addrBytes :=
  ⟨_, withTurn (enabled (erasing (.issue 1))) (.cut 3), _,
    ⟨by decide, rfl, by decide, rfl, by decide, rfl, rfl, rfl, rfl⟩, rfl⟩

/-- Inside the identity read. -/
theorem witness_ResetInsideATransaction_read : ∃ u s es, Cuts 2 .tReadId u s es :=
  ⟨_, withTurn verifying (.cut 2), _, ⟨by decide, rfl, rfl, rfl, by decide, rfl, rfl, rfl, rfl⟩⟩

end Sys2Proof.Tests
end

section
/-!
Proofs about the scope of the model (R7): which configurations the machine runs at all.
-/
namespace Sys2Proof.Machine

/-- Each of the five constraints of R7, broken alone, contradicts the geometry of an admitted configuration. -/
theorem Config.not_ok_of_breaks_geometry {c : Config}
    (h : c.sectorSize = 0 ∨ c.totalSize = 0 ∨ c.totalSize % c.sectorSize ≠ 0 ∨
      (c.pageSize ≠ 0 ∧ c.sectorSize % c.pageSize ≠ 0) ∨ 2 ^ (8 * c.addrBytes) < c.totalSize) :
    c.ok = false := by
  refine Bool.eq_false_iff.mpr fun hok => ?_
  obtain ⟨hsector, htotal, hmultiple, hpage, hreach, -⟩ := Config.ok_geometry hok
  rcases h with h | h | h | ⟨hne, h⟩ | h
  · exact absurd h (Nat.ne_of_gt hsector)
  · exact absurd h (Nat.ne_of_gt htotal)
  · exact h hmultiple
  · exact hpage.elim hne h
  · exact absurd hreach (Nat.not_le_of_gt h)

/-- Settles O50: a configuration that breaks a constraint of R7 is not admitted, and a step checks that first. -/
theorem badConfigurationIsRefused : Obligations.BadConfigurationIsRefused :=
  fun _ h => step_of_not_ok (Config.not_ok_of_breaks_geometry h)

end Sys2Proof.Machine
end

section
/-!
Proofs about the encoding: which frame header byte 0 selects (R83), the fields of a header (R84), the address bytes of
an SPI transaction (R91).
-/
namespace Sys2Proof

theorem isOpcode_eq_false_iff {b : Byte} : isOpcode b = false ↔ b ≠ opReadFlash ∧ b ≠ opWriteFlash := by
  simp [isOpcode]

/-- A byte that is no opcode is a frame of its own, whatever follows it. -/
theorem decodeFrame_of_not_isOpcode {b : Byte} (h : isOpcode b = false) (rest : List Byte) :
    decodeFrame (b :: rest) = .instr (.ignored b) rest := by
  simp [decodeFrame, h]

section Header
variable (h1 h2 h3 h4 h5 h6 h7 h8 : Byte) (rest : List Byte)

theorem decodeFrame_opReadFlash :
    decodeFrame (opReadFlash :: h1 :: h2 :: h3 :: h4 :: h5 :: h6 :: h7 :: h8 :: rest) =
      .instr (.readFlash (joinBe32 h1 h2 h3 h4) (joinBe32 h5 h6 h7 h8)) rest := rfl

theorem decodeFrame_opWriteFlash :
    decodeFrame (opWriteFlash :: h1 :: h2 :: h3 :: h4 :: h5 :: h6 :: h7 :: h8 :: rest) =
      .instr (.writeFlash (joinBe32 h1 h2 h3 h4) (joinBe32 h5 h6 h7 h8)) rest := rfl

end Header

/-- Settles O2: both fields are assembled by `joinBe32`, whose value as a number is R84's sum. -/
theorem headerFieldsAreBigEndian : Obligations.HeaderFieldsAreBigEndian :=
  fun h1 h2 h3 h4 h5 h6 h7 h8 _ =>
    ⟨joinBe32 h1 h2 h3 h4, joinBe32 h5 h6 h7 h8, decodeFrame_opReadFlash .., decodeFrame_opWriteFlash ..,
      toNat_joinBe32 .., toNat_joinBe32 ..⟩

/-- Settles O1, by the three kinds of header byte 0: the two opcodes, and any other byte. -/
theorem opcodeByteDecidesTheFrame : Obligations.OpcodeByteDecidesTheFrame := by
  intro b a3 a2 a1 a0 n3 n2 n1 n0 rest
  split_ifs with hread hwrite
  · subst hread
    exact decodeFrame_opReadFlash ..
  · subst hwrite
    exact decodeFrame_opWriteFlash ..
  · exact decodeFrame_of_not_isOpcode (isOpcode_eq_false_iff.2 ⟨hread, hwrite⟩) _

/-- Settles O5: one clause per admitted width. Four address bytes are the whole field, most significant first. -/
theorem addressBytesMostSignificantFirst : Obligations.AddressBytesMostSignificantFirst :=
  fun _ a => ⟨fun h => addrBytesOf_three h a, fun h => addrBytesOf_four h a⟩

end Sys2Proof
end

section
/-!
Proofs about the flash driver: the content the two ways of erasing the chip leave (R123), and the extent of the program
transactions of `write_bytes` (R119, R227).
-/
namespace Sys2Proof.Machine

/-! ## Erasing the whole chip (R123) -/

/-- Two erases of ranges that meet are one erase of both. -/
theorem Memory.erase_erase_adjacent (m : Memory) (a n k : Nat) :
    Memory.erase (Memory.erase m a n) (a + n) k = Memory.erase m a (n + k) := by
  unfold Memory.erase
  rw [List.filter_filter]
  refine List.filter_congr fun cell _ => ?_
  rw [Bool.eq_iff_iff]
  simp only [Bool.and_eq_true, Bool.not_eq_true', Bool.and_eq_false_iff, decide_eq_false_iff_not]
  omega

theorem Memory.erase_zero_length (m : Memory) (a : Nat) : Memory.erase m a 0 = m :=
  List.filter_eq_self.2 fun cell _ => by
    simp only [Bool.not_eq_true', Bool.and_eq_false_iff, decide_eq_false_iff_not]
    omega

/-- An erase of all addresses that exist leaves no listed byte. -/
theorem Memory.erase_of_below {m : Memory} {t : Nat} (h : m.below t = true) : Memory.erase m 0 t = [] :=
  List.filter_eq_nil_iff.2 fun cell hcell => by
    have hlt := Memory.below_iff.1 h cell hcell
    simp [hlt]

/-- The write prelude as the last raw transactions enables the chip (R60). -/
theorem Flash.wel_writePrelude (c : Config) (f : Flash) : Flash.wel c { f with rawRun := c.writePrelude } = true :=
  List.isSuffixOf_iff_suffix.2 (List.suffix_refl _)

/-- A write enabled program or erase sets the content. -/
theorem Flash.modify_mem_of_wel {c : Config} {f : Flash} (h : f.wel c = true) (m : Memory) (base len : Nat) :
    (f.modify c m base len).mem = m := by
  obtain ⟨-, hbegin⟩ | ⟨hwel, -⟩ := Flash.modify_cases c f m base len
  · rw [hbegin]; rfl
  · rw [h] at hwel; contradiction

/-- Sector erases at `0`, `SECTOR_SIZE`, ..., each write enabled, erase the range from 0 that they cover. -/
theorem foldl_sectorErase_mem (c : Config) (f : Flash) (n : Nat) :
    ((List.range n).foldl
      (fun g k => Flash.sectorErase c { g with rawRun := c.writePrelude } (k * c.sectorSize)) f).mem =
      Memory.erase f.mem 0 (n * c.sectorSize) := by
  induction n with
  | zero => rw [Nat.zero_mul, Memory.erase_zero_length]; rfl
  | succ n ih =>
    rw [List.range_succ, List.foldl_append, List.foldl_cons, List.foldl_nil, Flash.sectorErase,
      Flash.modify_mem_of_wel (Flash.wel_writePrelude c _), ih, Nat.succ_mul]
    simpa using Memory.erase_erase_adjacent f.mem 0 (n * c.sectorSize) c.sectorSize

/-- Settles O20: both leave no listed byte, because the sectors fill the chip. -/
theorem chipEraseEqualsSectorErases : Obligations.ChipEraseEqualsSectorErases := by
  intro c f hok hbelow
  obtain ⟨-, -, hmultiple, -⟩ := Config.ok_geometry hok
  have hfill : c.sectorCount * c.sectorSize = c.totalSize := Nat.div_mul_cancel (Nat.dvd_of_mod_eq_zero hmultiple)
  rw [foldl_sectorErase_mem, hfill, Memory.erase_of_below hbelow, Flash.chipErase,
    Flash.modify_mem_of_wel (Flash.wel_writePrelude c f)]

/-! ## The program transactions of write_bytes (R118, R119) -/

theorem preludeOr_eq_tProgram {p : List (List Byte)} {k : Nat} {main : Instr} {a : Word} {d : List Byte}
    (h : preludeOr p k main = .tProgram a d) : main = .tProgram a d := by
  unfold preludeOr at h
  split at h
  · cases h
  · exact h

theorem stepInstr_eq_tProgram {s : State} {main : Instr} {a : Word} {d : List Byte}
    (h : s.stepInstr main = .tProgram a d) : main = .tProgram a d := by
  unfold State.stepInstr at h
  split at h
  · exact preludeOr_eq_tProgram h
  · cases h

theorem initInstr_ne_tProgram (s : State) (a : Word) (d : List Byte) : s.initInstr ≠ .tProgram a d := by
  intro h
  unfold State.initInstr at h
  split at h
  · cases preludeOr_eq_tProgram h
  · cases h

theorem eraseInstr_ne_tProgram (s : State) (a : Word) (d : List Byte) : s.eraseInstr ≠ .tProgram a d := by
  unfold State.eraseInstr
  split <;> nofun

theorem commandOf_ne_tProgram (op : Byte) (address length a : Word) (d : List Byte) :
    commandOf op address length ≠ .tProgram a d := by
  unfold commandOf
  split <;> nofun

/-- Only `write_bytes` programs, and only its next bytes (R118). -/
theorem fetch_tProgram {s : State} {a : Word} {d : List Byte} (h : s.fetch = some (.tProgram a d)) :
    s.seq = .wrProgram ∧ a = s.programAddr ∧ d = s.programData := by
  unfold State.fetch at h
  cases hseq : s.seq <;> rw [hseq] at h <;> simp only at h
  case wrProgram =>
    split at h
    · have hown : s.programInstr = .tProgram a d := stepInstr_eq_tProgram (Option.some.inj h)
      cases hown
      exact ⟨rfl, rfl, rfl⟩
    · cases h
  case wrErase =>
    split at h
    · exact absurd (stepInstr_eq_tProgram (Option.some.inj h)) (eraseInstr_ne_tProgram s a d)
    · cases h
  case init => exact absurd (Option.some.inj h) (initInstr_ne_tProgram s a d)
  case hdr =>
    split at h
    · cases h
    · split at h
      · exact absurd (Option.some.inj h) (commandOf_ne_tProgram _ _ _ a d)
      · cases h
  case waitCmd =>
    split at h
    · cases h
    · split at h <;> cases h
  all_goals cases h

theorem pageAligned_iff {c : Config} {a : Word} :
    pageAligned c a = true ↔ c.pageSize ≠ 0 ∧ a.toNat % c.pageSize = 0 := by
  simp [pageAligned]

/-- In page mode the next program is the rest of the chunk, at most a page (R118). -/
theorem programLen_of_pageMode {s : State} (h : s.wrPageMode = true) :
    s.programLen = min s.cfg.pageSize (s.chunkLen.toNat - s.wrOff.toNat) := if_pos h

/-- In byte mode the next program is one byte (R118). -/
theorem programLen_of_byteMode {s : State} (h : s.wrPageMode = false) : s.programLen = 1 :=
  if_neg (by simp [h])

section Program
variable {s : State}

/-- In page mode the variant has pages, and the next program begins at a page boundary of the request's addresses. -/
theorem programIn_pageMode (hin : s.programIn) (hpage : s.wrPageMode = true) :
    s.cfg.pageSize ≠ 0 ∧ (s.curAddr.toNat + s.wrOff.toNat) % s.cfg.pageSize = 0 := by
  obtain ⟨hmode, -, hoff⟩ := hin
  obtain ⟨hpages, hcur⟩ := pageAligned_iff.1 (hmode ▸ hpage)
  exact ⟨hpages, Nat.mod_eq_zero_of_dvd
    (Nat.dvd_add (Nat.dvd_of_mod_eq_zero hcur) (Nat.dvd_of_mod_eq_zero (hoff hpage)))⟩

/-- The next program has a byte and ends inside the chunk. -/
theorem programLen_bounds (hin : s.programIn) :
    1 ≤ s.programLen ∧ s.wrOff.toNat + s.programLen ≤ s.chunkLen.toNat := by
  have ⟨_, hpending, _⟩ := hin
  cases hmode : s.wrPageMode with
  | true =>
    have hpages := (programIn_pageMode hin hmode).1
    rw [programLen_of_pageMode hmode]
    omega
  | false =>
    rw [programLen_of_byteMode hmode]
    omega

/-- The staging buffer holds the whole chunk, so it has every byte of the next program. -/
theorem length_programData (hbuf : s.buf.length = s.cfg.sectorSize) (hchunk : s.chunkIn) (hin : s.programIn) :
    s.programData.length = s.programLen := by
  have hlen := (programLen_bounds hin).2
  obtain ⟨-, -, hsector, -⟩ := hchunk
  rw [State.programData, List.length_take, List.length_drop]
  omega

/-- The next program ends inside the chip. -/
theorem programEnd_le (hchunk : s.chunkIn) (hin : s.programIn) :
    s.curAddr.toNat + s.wrOff.toNat + s.programLen ≤ s.cfg.totalSize := by
  obtain ⟨hcursor, -, -, hrem⟩ := hchunk
  have hlen := (programLen_bounds hin).2
  unfold State.cursorIn at hcursor
  omega

/-- Its address is the plain sum, because the chip has less than `2^32` bytes. -/
theorem toNat_programAddr (hok : s.cfg.ok = true) (hchunk : s.chunkIn) (hin : s.programIn) :
    s.programAddr.toNat = s.curAddr.toNat + s.wrOff.toNat := by
  have hend := programEnd_le hchunk hin
  have hpos := (programLen_bounds hin).1
  have htotal := Config.ok_total hok
  rw [State.programAddr, BitVec.toNat_add, Nat.mod_eq_of_lt (by omega)]

/-- The next program stays in one page: in page mode it begins at the start of one and is at most a page long, in byte
mode it is one byte (R119). -/
theorem programLen_le_page (hin : s.programIn) :
    (s.curAddr.toNat + s.wrOff.toNat) % progPage s.cfg + s.programLen ≤ progPage s.cfg := by
  cases hmode : s.wrPageMode with
  | true =>
    obtain ⟨hpages, haligned⟩ := programIn_pageMode hin hmode
    rw [progPage, if_neg hpages, haligned, programLen_of_pageMode hmode, Nat.zero_add]
    exact Nat.min_le_left ..
  | false =>
    rw [programLen_of_byteMode hmode]
    exact Nat.mod_lt _ (progPage_pos s.cfg)

end Program

/-- Settles O35: the transaction is the next program of `write_bytes`, whose extent the run invariant bounds. -/
theorem noProgramCrossesAPage : Obligations.NoProgramCrossesAPage := by
  intro s a d hrun hfetch
  obtain ⟨hseq, rfl, rfl⟩ := fetch_tProgram hfetch
  obtain ⟨-, hmem, -, hdata⟩ := hrun
  simp only [State.dataIn, hseq] at hdata
  obtain ⟨-, hchunk, -, hin⟩ := hdata
  rw [length_programData hmem.buf_len hchunk hin, toNat_programAddr hmem.cfg_ok hchunk hin]
  refine ⟨(programLen_bounds hin).1, programEnd_le hchunk hin, fun P hP => hP ▸ programLen_le_page hin,
    fun hpage => ?_, programLen_of_byteMode⟩
  obtain ⟨hpages, haligned⟩ := programIn_pageMode hin hpage
  exact ⟨hpages, haligned, programLen_of_pageMode hpage ▸ Nat.min_le_left ..⟩

end Sys2Proof.Machine
end

section
/-!
Proofs about the executor's serial bytes: a byte that is no opcode (R142), and a payload byte in `S_WR_RECV` (R151).
-/
namespace Sys2Proof.Machine

/-- Settles O21: the step is the block's move of `S_WAIT_CMD` on a byte that is no opcode. -/
theorem ignoredByteIsOnlyConsumed : Obligations.IgnoredByteIsOnlyConsumed := by
  refine ⟨fun _ _ => rfl, fun b rest s hok hturn hseq hrx hread hwrite => ?_⟩
  have hignored : isOpcode b = false := isOpcode_eq_false_iff.2 ⟨hread, hwrite⟩
  rw [step_block hok hturn, blockMove_waitCmd_ignored (s := s.takeTurn) hseq hrx hignored]
  simp [State.serialTake, State.takeTurn, hrx]

section Receive
variable {s : State} {b : Byte} {rest : List Byte}

/-- While the chunk is not whole, the byte is stored and the next ready byte is due (R151). -/
theorem blockMove_wrRecv_more (hseq : s.seq = .wrRecv) (hrx : s.rxQ = b :: rest) (hroom : s.bufIdx.toNat < s.buf.length)
    (hmore : s.bufIdx.toNat + 1 < s.chunkLen.toNat) :
    blockMove s = .next (((s.serialTake b).storeByte b).nextByte .wrReady) := by
  rw [blockMove_wrRecv_byte hseq hrx, recvByte, if_pos hroom, if_pos (by simpa [State.moreBytes] using hmore)]

/-- The last byte of the chunk is stored and the call of `erase_region` begins (R151, R152). -/
theorem blockMove_wrRecv_last (hseq : s.seq = .wrRecv) (hrx : s.rxQ = b :: rest) (hroom : s.bufIdx.toNat < s.buf.length)
    (hlast : s.chunkLen.toNat ≤ s.bufIdx.toNat + 1) :
    blockMove s = .next ((s.serialTake b).storeByte b).beginErase := by
  rw [blockMove_wrRecv_byte hseq hrx, recvByte, if_pos hroom,
    if_neg (by simpa [State.moreBytes] using hlast)]

end Receive

/-- Settles O30, by the three moves of `S_WR_RECV`: no byte there, a byte before the last of the chunk, the last. -/
theorem payloadByteIsStored : Obligations.PayloadByteIsStored := by
  refine ⟨fun _ => blockMove_wrRecv_nil, fun b rest s hok hturn hseq hrx hroom => ⟨fun hmore => ?_, fun hlast => ?_⟩⟩
  · rw [step_block hok hturn, blockMove_wrRecv_more (s := s.takeTurn) hseq hrx hroom hmore]
    simp [State.nextByte, State.storeByte, State.serialTake, State.takeTurn, hrx]
  · refine ⟨((s.takeTurn.serialTake b).storeByte b).beginErase, ?_, rfl, ?_, rfl, rfl⟩
    · rw [step_block hok hturn, blockMove_wrRecv_last (s := s.takeTurn) hseq hrx hroom hlast]
    · simp [hrx]

end Sys2Proof.Machine
end

section
/-!
What `WRITE_FLASH` makes of the flash content, without the machine that does it (R118, R152, R156, R157): a chunk erases
its covering sectors and is ANDed in from its address; the chunks of a payload follow each other.
-/
namespace Sys2Proof.Machine

/-! ## Programming with no page boundary inside (R57) -/

/-- Bytes ANDed into the content one after the other, from address `a` on. -/
def Memory.andFrom : Memory → Nat → List Byte → Memory
  | m, _, [] => m
  | m, a, d :: ds => Memory.andFrom (Memory.write m a (Memory.read m a &&& d)) (a + 1) ds

theorem Memory.andFrom_append : ∀ (m : Memory) (a : Nat) (d e : List Byte),
    Memory.andFrom m a (d ++ e) = Memory.andFrom (Memory.andFrom m a d) (a + d.length) e
  | _, _, [], _ => rfl
  | m, a, v :: d, e => by
    rw [List.cons_append, Memory.andFrom, Memory.andFrom_append, List.length_cons, Memory.andFrom, Nat.add_right_comm]
    rfl

theorem Memory.programFrom_eq_andFrom (c : Config) (a : Nat) : ∀ (d : List Byte) (i : Nat) (m : Memory),
    a % progPage c + i + d.length ≤ progPage c → Memory.programFrom c a i d m = Memory.andFrom m (a + i) d
  | [], _, _, _ => rfl
  | v :: d, i, m, h => by
    rw [List.length_cons] at h
    rw [Memory.programFrom, Memory.andFrom, progTarget_of_le c (by omega),
      Memory.programFrom_eq_andFrom c a d (i + 1) _ (by omega), Nat.add_assoc]

/-- A program that stays in its page stores from its address upwards. -/
theorem Memory.program_eq_andFrom {c : Config} {a : Nat} {d : List Byte} (m : Memory)
    (h : a % progPage c + d.length ≤ progPage c) : Memory.program c m a d = Memory.andFrom m a d :=
  Memory.programFrom_eq_andFrom c a d 0 m h

theorem Memory.wf_andFrom : ∀ {m : Memory} (a : Nat) (d : List Byte), m.wf = true → (Memory.andFrom m a d).wf = true
  | _, _, [], hm => hm
  | _, a, _ :: d, hm => Memory.wf_andFrom (a + 1) d (Memory.wf_write _ _ hm)

theorem Memory.below_andFrom {t : Nat} : ∀ {m : Memory} {a : Nat} {d : List Byte}, a + d.length ≤ t →
    m.below t = true → (Memory.andFrom m a d).below t = true
  | _, _, [], _, hm => hm
  | m, a, v :: d, h, hm => by
    rw [List.length_cons] at h
    exact Memory.below_andFrom (m := Memory.write m a (Memory.read m a &&& v)) (by omega)
      (Memory.below_write _ (by omega) hm)

theorem Memory.read_andFrom_outside {x : Nat} : ∀ {m : Memory} {a : Nat} {d : List Byte}, m.wf = true →
    x < a ∨ a + d.length ≤ x → Memory.read (Memory.andFrom m a d) x = Memory.read m x
  | _, _, [], _, _ => rfl
  | m, a, v :: d, hm, hx => by
    rw [List.length_cons] at hx
    rw [Memory.andFrom, Memory.read_andFrom_outside (Memory.wf_write _ _ hm) (by omega), Memory.read_write _ _ _ hm,
      if_neg (by omega)]

/-- On erased bytes the data itself is stored. -/
theorem Memory.read_andFrom_blank : ∀ {m : Memory} {a i : Nat} {d : List Byte}, m.wf = true → i < d.length →
    Memory.read m (a + i) = Memory.blank → some (Memory.read (Memory.andFrom m a d) (a + i)) = d[i]?
  | m, a, 0, v :: d, hm, _, hblank => by
    have hones : Memory.blank &&& v = v := BitVec.allOnes_and
    rw [Memory.andFrom, Memory.read_andFrom_outside (Memory.wf_write _ _ hm) (by omega), Memory.read_write _ _ _ hm,
      if_pos (Nat.add_zero a).symm, show Memory.read m a = Memory.blank from hblank, hones]
    rfl
  | m, a, i + 1, v :: d, hm, hi, hblank => by
    have hnext : a + (i + 1) = a + 1 + i := by omega
    rw [Memory.andFrom, hnext, Memory.read_andFrom_blank (Memory.wf_write _ _ hm) (Nat.lt_of_succ_lt_succ hi)
      (by rw [Memory.read_write _ _ _ hm, if_neg (by omega), ← hnext, hblank])]
    rfl

/-! ## One chunk (R152, R153) -/

/-- The byte at `x` lies in a sector that covers the `n` bytes from `a` (R152). -/
abbrev Covers (S a n x : Nat) : Prop := a / S ≤ x / S ∧ x / S ≤ (a + n - 1) / S

/-- The covering sectors of `n` bytes from `a`, erased. -/
def Memory.eraseCovering (S : Nat) (m : Memory) (a n : Nat) : Memory :=
  Memory.erase m (a / S * S) (((a + n - 1) / S - a / S + 1) * S)

theorem Memory.wf_eraseCovering {m : Memory} (S a n : Nat) (hm : m.wf = true) :
    (Memory.eraseCovering S m a n).wf = true :=
  Memory.wf_erase _ _ hm

/-- A chunk stored: its covering sectors are erased, then its bytes are programmed. -/
def Memory.storeChunk (S : Nat) (m : Memory) (a : Nat) (D : List Byte) : Memory :=
  Memory.andFrom (Memory.eraseCovering S m a D.length) a D

theorem Memory.wf_storeChunk {S : Nat} {m : Memory} {a : Nat} {D : List Byte} (hm : m.wf = true) :
    (Memory.storeChunk S m a D).wf = true :=
  Memory.wf_andFrom _ _ (Memory.wf_eraseCovering _ _ _ hm)

theorem Memory.below_storeChunk {S t : Nat} {m : Memory} {a : Nat} {D : List Byte} (hm : m.below t = true)
    (hD : a + D.length ≤ t) : (Memory.storeChunk S m a D).below t = true :=
  Memory.below_andFrom hD (Memory.below_erase _ _ hm)

section Covering
variable {S a n x : Nat}

/-- The bytes themselves lie in their covering sectors. -/
theorem covers_of_mem (hax : a ≤ x) (hxn : x < a + n) : Covers S a n x :=
  ⟨Nat.div_le_div_right hax, Nat.div_le_div_right (by omega)⟩

variable (hS : 0 < S)
include hS

/-- The covering sectors as a range of addresses. -/
theorem covers_iff_range (hn : 1 ≤ n) :
    Covers S a n x ↔ a / S * S ≤ x ∧ x < a / S * S + ((a + n - 1) / S - a / S + 1) * S := by
  have hle : a / S ≤ (a + n - 1) / S := Nat.div_le_div_right (by omega)
  rw [← Nat.add_mul, show a / S + ((a + n - 1) / S - a / S + 1) = (a + n - 1) / S + 1 by omega,
    ← Nat.le_div_iff_mul_le hS, ← Nat.div_lt_iff_lt_mul hS, Nat.lt_succ_iff]

/-- The sectors of a first chunk of `S` bytes and the sectors of the rest are the sectors of all. -/
theorem covers_iff_chunk_or_rest (hn : S < n) : Covers S a n x ↔ Covers S a S x ∨ Covers S (a + S) (n - S) x := by
  have hlo : a / S ≤ (a + S - 1) / S := Nat.div_le_div_right (by omega)
  have hmid : (a + S - 1) / S ≤ (a + S) / S := Nat.div_le_div_right (by omega)
  have hhi : (a + S) / S ≤ (a + n - 1) / S := Nat.div_le_div_right (by omega)
  have hnext := Nat.add_div_right a hS
  unfold Covers
  rw [show a + S + (n - S) - 1 = a + n - 1 by omega]
  omega

theorem Memory.read_eraseCovering (m : Memory) (hn : 1 ≤ n) :
    Memory.read (Memory.eraseCovering S m a n) x = if Covers S a n x then Memory.blank else Memory.read m x := by
  rw [Memory.eraseCovering, Memory.read_erase]
  exact if_congr (covers_iff_range hS hn).symm rfl rfl

/-- The sector after the one of `a` begins `SECTOR_SIZE - o` bytes after `a`. -/
theorem next_sector_iff {i : Nat} : (a + S) / S ≤ (a + i) / S ↔ S - a % S ≤ i := by
  have hmod := Nat.mod_lt a hS
  rw [Nat.add_div_right _ hS, Nat.le_div_iff_mul_le hS, Nat.succ_mul]
  have hdiv := Nat.div_add_mod' a S
  omega

variable {m : Memory} {D : List Byte} (hm : m.wf = true)
include hm

/-- Every byte of a chunk is stored. -/
theorem Memory.read_storeChunk {i : Nat} (hi : i < D.length) :
    some (Memory.read (Memory.storeChunk S m a D) (a + i)) = D[i]? :=
  Memory.read_andFrom_blank (Memory.wf_eraseCovering _ _ _ hm) hi
    ((Memory.read_eraseCovering hS m (by omega)).trans (if_pos (covers_of_mem (by omega) (by omega))))

/-- Outside the chunk, the covering sectors are erased and nothing else changes. -/
theorem Memory.read_storeChunk_outside (hD : 1 ≤ D.length) (hx : x < a ∨ a + D.length ≤ x) :
    Memory.read (Memory.storeChunk S m a D) x =
      if Covers S a D.length x then Memory.blank else Memory.read m x := by
  rw [Memory.storeChunk, Memory.read_andFrom_outside (Memory.wf_eraseCovering _ _ _ hm) hx,
    Memory.read_eraseCovering hS m hD]

end Covering

/-! ## A whole payload, chunk by chunk (R145, R149) -/

/-- Induction over the chunks of a payload, `S` bytes each and the last one shorter. -/
theorem chunk_induction {S : Nat} (hS : 0 < S) {P : List Byte → Prop} (nil : P [])
    (chunk : ∀ D, 1 ≤ D.length → P (D.drop S) → P D) (D : List Byte) : P D := by
  induction hn : D.length using Nat.strong_induction_on generalizing D with
  | _ n ih =>
    rcases Nat.eq_zero_or_pos D.length with hD | hD
    · rwa [List.eq_nil_of_length_eq_zero hD]
    · exact chunk D hD (ih _ (by rw [List.length_drop]; omega) _ rfl)

/-- The content after the payload `D` has been written from `a`: every chunk is stored over what the ones before it
left. -/
def Memory.storeChunks (S : Nat) (m : Memory) (a : Nat) (D : List Byte) : Memory :=
  if _h : 0 < S ∧ 1 ≤ D.length then
    Memory.storeChunks S (Memory.storeChunk S m a (D.take S)) (a + S) (D.drop S)
  else m
termination_by D.length
decreasing_by rw [List.length_drop]; omega

@[simp] theorem Memory.storeChunks_nil (S : Nat) (m : Memory) (a : Nat) : Memory.storeChunks S m a [] = m := by
  rw [Memory.storeChunks, dif_neg (by simp)]

section Chunks
variable {S : Nat} (hS : 0 < S)
include hS

theorem Memory.storeChunks_chunk {m : Memory} {a : Nat} {D : List Byte} (hD : 1 ≤ D.length) :
    Memory.storeChunks S m a D = Memory.storeChunks S (Memory.storeChunk S m a (D.take S)) (a + S) (D.drop S) := by
  rw [Memory.storeChunks, dif_pos ⟨hS, hD⟩]

theorem Memory.storeChunks_last {m : Memory} {a : Nat} {D : List Byte} (hD : 1 ≤ D.length) (hlast : D.length ≤ S) :
    Memory.storeChunks S m a D = Memory.storeChunk S m a D := by
  rw [Memory.storeChunks_chunk hS hD, List.drop_of_length_le hlast, List.take_of_length_le hlast,
    Memory.storeChunks_nil]

/-- Outside the payload, the covering sectors are erased and nothing else changes (R156, R229). -/
theorem Memory.read_storeChunks_outside (D : List Byte) : ∀ {m : Memory} {a x : Nat}, m.wf = true → 1 ≤ D.length →
    x < a ∨ a + D.length ≤ x → Memory.read (Memory.storeChunks S m a D) x =
      if Covers S a D.length x then Memory.blank else Memory.read m x := by
  induction D using chunk_induction hS with
  | nil => intro _ _ _ _ hD; cases hD
  | chunk D _ ih =>
    intro m a x hm hD hx
    rcases Nat.lt_or_ge S D.length with hmore | hlast
    · have hlen : (D.take S).length = S := List.length_take_of_le hmore.le
      have hrest : (D.drop S).length = D.length - S := List.length_drop
      rw [Memory.storeChunks_chunk hS hD, ih (Memory.wf_storeChunk hm) (by omega) (by omega),
        Memory.read_storeChunk_outside hS hm (by omega) (by omega), hlen, hrest]
      rw [if_congr ((covers_iff_chunk_or_rest hS hmore).trans or_comm) rfl rfl, ite_or]
    · rw [Memory.storeChunks_last hS hD hlast, Memory.read_storeChunk_outside hS hm hD hx]

/-- Between the first sector boundary after a chunk's address and its end, the next chunk erases what this one stored
(R157). -/
theorem Memory.read_storeChunks_tail (D : List Byte) : ∀ {m : Memory} {a i : Nat}, m.wf = true → i < D.length →
    i / S < (D.length - 1) / S → S - a % S ≤ i % S →
    Memory.read (Memory.storeChunks S m a D) (a + i) = Memory.blank := by
  induction D using chunk_induction hS with
  | nil => intro _ _ _ _ hi; cases hi
  | chunk D hD ih =>
    intro m a i hm hi hchunk htail
    have hmore : S < D.length := by
      by_contra hlast
      rw [Nat.div_eq_of_lt (a := D.length - 1) (by omega)] at hchunk
      exact Nat.not_lt_zero _ hchunk
    have hrest : (D.drop S).length = D.length - S := List.length_drop
    rw [Memory.storeChunks_chunk hS hD]
    rcases Nat.lt_or_ge i S with hfirst | hlater
    · rw [Nat.mod_eq_of_lt hfirst] at htail
      rw [Memory.read_storeChunks_outside hS _ (Memory.wf_storeChunk hm) (by omega) (by omega), if_pos]
      exact ⟨(next_sector_iff hS).2 htail, Nat.div_le_div_right (by omega)⟩
    · obtain ⟨j, rfl⟩ := Nat.exists_eq_add_of_le' hlater
      rw [show D.length - 1 = D.length - S - 1 + S by omega, Nat.add_div_right _ hS, Nat.add_div_right _ hS] at hchunk
      rw [show a + (j + S) = a + S + j by omega]
      exact ih (Memory.wf_storeChunk hm) (by omega) (by rw [hrest]; omega)
        (by rwa [Nat.add_mod_right, ← Nat.add_mod_right j S])

/-- Every other byte of the payload is stored: those of the last chunk, and of the others those below the first sector
boundary (R157). -/
theorem Memory.read_storeChunks_kept (D : List Byte) : ∀ {m : Memory} {a i : Nat}, m.wf = true → i < D.length →
    i / S = (D.length - 1) / S ∨ i % S < S - a % S →
    some (Memory.read (Memory.storeChunks S m a D) (a + i)) = D[i]? := by
  induction D using chunk_induction hS with
  | nil => intro _ _ _ _ hi; cases hi
  | chunk D hD ih =>
    intro m a i hm hi hkept
    rcases Nat.lt_or_ge S D.length with hmore | hlast
    · have hlen : (D.take S).length = S := List.length_take_of_le hmore.le
      have hrest : (D.drop S).length = D.length - S := List.length_drop
      have hlast : (D.length - 1) / S = (D.length - S - 1) / S + 1 := by
        rw [← Nat.add_div_right _ hS, show D.length - S - 1 + S = D.length - 1 by omega]
      rw [Memory.storeChunks_chunk hS hD]
      rcases Nat.lt_or_ge i S with hfirst | hlater
      · rw [Nat.div_eq_of_lt hfirst, Nat.mod_eq_of_lt hfirst] at hkept
        rw [Memory.read_storeChunks_outside hS _ (Memory.wf_storeChunk hm) (by omega) (by omega), if_neg,
          Memory.read_storeChunk hS hm (by omega), List.getElem?_take_of_lt hfirst]
        rintro ⟨hnext, -⟩
        have hhead := hkept.resolve_left (hlast ▸ (Nat.succ_ne_zero _).symm)
        exact absurd ((next_sector_iff hS).1 hnext) (Nat.not_le_of_lt hhead)
      · obtain ⟨j, rfl⟩ := Nat.exists_eq_add_of_le' hlater
        rw [Nat.add_div_right _ hS, Nat.add_mod_right] at hkept
        rw [show a + (j + S) = a + S + j by omega, ih (Memory.wf_storeChunk hm) (by omega)
          (by rw [hrest, Nat.add_mod_right]; omega), List.getElem?_drop, Nat.add_comm]
    · rw [Memory.storeChunks_last hS hD hlast, Memory.read_storeChunk hS hm hi]

end Chunks

end Sys2Proof.Machine
end

section
/-!
Runs of the machine with no turn scheduled: runs put together, and the events they append.
-/
namespace Sys2Proof.Machine

/-- Some number of steps leads from `s` to `t` and appends the events `es`. -/
def Runs (s : State) (es : List Event) (t : State) : Prop := (∃ k, Reaches k s t) ∧ Appends s t es

/-- The same, with only the events of the serial link told. -/
def SerialRuns (s : State) (es : List Event) (t : State) : Prop :=
  ∃ fs, Runs s fs t ∧ fs.filter Event.onSerial = es

theorem run_succ_next (M : Host.Core) {k : Nat} {s u : M.State} :
    M.run (k + 1) s = .next u ↔ ∃ t, M.step s = .next t ∧ M.run k t = .next u := by
  rw [Host.Core.run]
  cases M.step s <;> simp

theorem reaches_succ {k : Nat} {s u : State} : Reaches (k + 1) s u ↔ ∃ t, step s = .next t ∧ Reaches k t u :=
  run_succ_next core

theorem Reaches.trans {j : Nat} : ∀ {k : Nat} {s t u : State}, Reaches k s t → Reaches j t u → Reaches (j + k) s u
  | 0, _, _, _, h, ht => by cases h; exact ht
  | _ + 1, _, _, _, h, ht =>
    have ⟨v, hv, h⟩ := reaches_succ.1 h
    reaches_succ.2 ⟨v, hv, h.trans ht⟩

theorem Runs.refl (s : State) : Runs s [] s := ⟨⟨0, rfl⟩, (List.append_nil _).symm⟩

theorem Runs.trans {s t u : State} {es fs : List Event} (h : Runs s es t) (ht : Runs t fs u) : Runs s (es ++ fs) u := by
  obtain ⟨⟨k, hk⟩, hes⟩ := h
  obtain ⟨⟨j, hj⟩, hfs⟩ := ht
  refine ⟨⟨j + k, hk.trans hj⟩, ?_⟩
  rw [Appends, hfs, hes, List.append_assoc]

theorem Runs.of_step {s t : State} {es : List Event} (h : step s = .next t) (hes : Appends s t es) : Runs s es t :=
  ⟨⟨1, reaches_succ.2 ⟨t, h, rfl⟩⟩, hes⟩

theorem Runs.serial {s t : State} {es fs : List Event} (h : Runs s es t) (hes : es.filter Event.onSerial = fs) :
    SerialRuns s fs t := ⟨es, h, hes⟩

theorem SerialRuns.refl (s : State) : SerialRuns s [] s := (Runs.refl s).serial rfl

theorem SerialRuns.trans {s t u : State} {es fs : List Event} (h : SerialRuns s es t) (ht : SerialRuns t fs u) :
    SerialRuns s (es ++ fs) u := by
  obtain ⟨es', hes, rfl⟩ := h
  obtain ⟨fs', hfs, rfl⟩ := ht
  exact (hes.trans hfs).serial (List.filter_append ..)

/-- A run without a serial event before a run. -/
theorem SerialRuns.after_silent {s t u : State} {es : List Event} (h : SerialRuns s [] t) (ht : SerialRuns t es u) :
    SerialRuns s es u := h.trans ht

/-- A run without a serial event after a run. -/
theorem SerialRuns.then_silent {s t u : State} {es : List Event} (h : SerialRuns s es t) (ht : SerialRuns t [] u) :
    SerialRuns s es u := List.append_nil es ▸ h.trans ht

/-- The exchanges of a transaction are no events of the serial link. -/
theorem onSerial_transaction {xs : List Event} (h : ∀ e ∈ xs, e.onSerial = false) :
    (Event.cs true :: xs ++ [Event.cs false]).filter Event.onSerial = [] := by
  simpa [List.filter_eq_nil_iff, Event.onSerial] using h

theorem onSerial_sent (bs : List Byte) : ∀ e ∈ sent bs, e.onSerial = false := by
  simp [sent, Event.onSerial]

theorem onSerial_kept (c : Config) (bs : List Byte) : ∀ e ∈ kept c bs, e.onSerial = false := by
  simp [kept, Event.onSerial]

/-! ## A ready block with no turn scheduled -/

/-- The block runs a command: the driver is ready, and no turn is scheduled. -/
structure Running (s : State) : Prop where
  cfg_ok : s.cfg.ok = true
  drv_eq : s.drv = .ready
  turns_nil : s.turns = []

theorem blockCanMove_of_not_reads {s : State} (hhalt : s.seq ≠ .halt) (h : s.reads = false) :
    s.blockCanMove = true := by
  simp [State.blockCanMove, h, hhalt]

theorem blockCanMove_of_rxQ {s : State} {b : Byte} {rest : List Byte} (hhalt : s.seq ≠ .halt) (h : s.rxQ = b :: rest) :
    s.blockCanMove = true := by
  simp [State.blockCanMove, h, hhalt]

theorem blockCanMove_of_waiting {s : State} (hseq : s.seq = .wrRecv) (h : s.rxQ = []) : s.blockCanMove = false := by
  simp [State.blockCanMove, State.reads, h, hseq]

section Running
variable {s : State} (hrun : Running s)
include hrun

theorem Running.step_block (h : s.blockCanMove = true) : step s = blockMove s := by
  rw [Machine.step_block hrun.cfg_ok (.inr ⟨hrun.turns_nil, h⟩), takeTurn_of_nil hrun.turns_nil]

theorem Running.step_host (hblock : s.blockCanMove = false) (hchip : s.flashCanMove = false)
    (hhost : s.hostCanMove = true) : step s = hostMove s := by
  rw [Machine.step_host hrun.cfg_ok (.inr ⟨hrun.turns_nil, hblock, hchip, hhost⟩), takeTurn_of_nil hrun.turns_nil]

end Running

end Sys2Proof.Machine
end

section
/-!
How the payload of a chunk gets to the staging buffer: ready bytes and payload bytes alternate, the payload waiting or
paced (R150, R151, R158, R172, R173).
-/
namespace Sys2Proof.Machine

/-! ## A payload delivered in parts -/

/-- The delivery of what comes before `E`: `E` is the first thing that follows it. -/
def Delivery.before (E : List Byte) : Delivery → Delivery
  | .waiting rest => .waiting (E ++ rest)
  | .paced acts => .paced (sendPaced E ++ acts)

theorem Delivery.before_nil (way : Delivery) : way.before [] = way := by cases way <;> rfl

theorem sendPaced_append (D E : List Byte) : sendPaced (D ++ E) = sendPaced D ++ sendPaced E := List.flatMap_append

theorem delivers_before {s : State} {D E : List Byte} {way : Delivery} :
    s.delivers (D ++ E) way ↔ s.delivers D (way.before E) := by
  cases way with
  | waiting rest => simp only [State.delivers, Delivery.before, List.append_assoc]
  | paced acts => simp only [State.delivers, Delivery.before, sendPaced_append, List.append_assoc]

/-- When the first part has been taken, the rest is there, or about to be sent. -/
theorem delivers_rest {s t : State} {D E : List Byte} {way : Delivery} {n : Nat} (h : s.delivers (D ++ E) way)
    (ht : t.delivered n s.host (way.before E)) (hcfg : t.cfg = s.cfg)
    (hchip : s.flashCanMove = false → t.flashCanMove = false) : t.delivers E way := by
  cases way with
  | waiting rest => exact ht.1
  | paced acts =>
    obtain ⟨-, hinbox, -, hdepth, hidle⟩ := h
    obtain ⟨hrx, hhost⟩ := ht
    exact ⟨hrx, by rw [hhost]; exact hinbox, by rw [hhost], by rwa [hcfg], hchip hidle⟩

/-- Two parts taken one after the other. -/
theorem delivered_append {t u : State} {E : List Byte} {way : Delivery} {h : HostSide} {m n : Nat}
    (ht : t.delivered m h (way.before E)) (hu : u.delivered n t.host way) : u.delivered (m + n) h way := by
  cases way with
  | waiting rest =>
    obtain ⟨-, hhost⟩ := ht
    obtain ⟨hrx, huhost⟩ := hu
    exact ⟨hrx, by rw [huhost, hhost, List.replicate_add, List.append_assoc]⟩
  | paced acts =>
    obtain ⟨-, hhost⟩ := ht
    obtain ⟨hrx, huhost⟩ := hu
    exact ⟨hrx, by rw [huhost, hhost]⟩

/-! ## One byte -/

/-- The block in `S_WR_RECV` after a ready byte, with the receive holding `q` and the host `h`. -/
def State.receiving (s : State) (q : List Byte) (h : HostSide) : State :=
  { s with seq := .wrRecv, rxQ := q, host := h, txFinished := true, trace := s.trace ++ [.tx readyByte] }

theorem Running.receiving {s : State} (hrun : Running s) (q : List Byte) (h : HostSide) : Running (s.receiving q h) :=
  ⟨hrun.cfg_ok, hrun.drv_eq, hrun.turns_nil⟩

/-- The ready byte goes out (R150). -/
theorem ready_goes_out {s : State} (hrun : Running s) (hseq : s.seq = .wrReady) :
    Runs s [.tx readyByte] (s.receiving s.rxQ (s.host.receive readyByte)) := by
  have hcan : s.blockCanMove = true := blockCanMove_of_not_reads (by simp [hseq]) (by simp [State.reads, hseq])
  exact .of_step (by rw [hrun.step_block hcan, blockMove_wrReady hseq, whenReady_of hrun.drv_eq]; rfl) rfl

/-- The host takes a ready byte where one is due (R173). -/
theorem hostMove_takes_ready {s : State} {acts : List HostAct} {more : List Byte}
    (hscript : s.host.script = .awaitReady :: acts) (hinbox : s.host.inbox = readyByte :: more) :
    hostMove s = .next (s.setHost { s.host with inbox := more, script := acts }) := by
  simp [hostMove, hostAct, HostSide.takeReady, hscript, hinbox]

/-- The host sends a byte where the receive holding has room (R40). -/
theorem hostMove_sends {s : State} {b : Byte} {acts : List HostAct} (hscript : s.host.script = .send b :: acts)
    (hroom : s.rxRoom = true) : hostMove s = .next ((s.rxArrive b).setHost (s.host.goOn acts)) := by
  simp [hostMove, hostAct, hostSend, hscript, hroom]

section Byte
variable {s : State} (hrun : Running s)
include hrun

/-- A pacing host takes the ready byte (R173). -/
theorem host_takes_ready {b : Byte} {h : HostSide} {acts : List HostAct} (hinbox : h.inbox = [readyByte])
    (hscript : h.script = .awaitReady :: .send b :: acts) (hchip : s.flashCanMove = false) :
    Runs (s.receiving [] h) [] (s.receiving [] { h with inbox := [], script := .send b :: acts }) := by
  have hstep := (hrun.receiving [] h).step_host (blockCanMove_of_waiting rfl rfl) hchip
    (by simp [State.hostCanMove, State.receiving, hscript, hinbox])
  rw [hostMove_takes_ready hscript hinbox] at hstep
  exact .of_step hstep (List.append_nil _).symm

/-- A pacing host sends the payload byte (R173). -/
theorem host_sends_byte {b : Byte} {h : HostSide} {acts : List HostAct} (hscript : h.script = .send b :: acts)
    (hdepth : s.cfg.rxDepth ≠ some 0) (hchip : s.flashCanMove = false) :
    Runs (s.receiving [] h) [] (s.receiving [b] { h with script := acts }) := by
  have hstep := (hrun.receiving [] h).step_host (blockCanMove_of_waiting rfl rfl) hchip
    (by simp [State.hostCanMove, State.receiving, hscript])
  have hroom : (s.receiving [] h).rxRoom = true := by
    unfold State.rxRoom State.receiving
    cases hd : s.cfg.rxDepth with
    | none => rfl
    | some d => simpa [Nat.pos_iff_ne_zero, hd] using hdepth
  rw [hostMove_sends hscript hroom] at hstep
  exact .of_step hstep (List.append_nil _).symm

/-- A ready byte goes out and the payload byte is there. -/
theorem payload_byte_arrives {d : Byte} {way : Delivery} (hseq : s.seq = .wrReady) (hway : s.delivers [d] way) :
    ∃ rest h, Runs s [.tx readyByte] (s.receiving (d :: rest) h) ∧ (s.receiving rest h).delivered 1 s.host way := by
  have hready := ready_goes_out hrun hseq
  cases way with
  | waiting rest =>
    have hrx : s.rxQ = d :: rest := hway
    exact ⟨rest, s.host.receive readyByte, hrx ▸ hready, rfl, rfl⟩
  | paced acts =>
    obtain ⟨hrx, hinbox, hscript, hdepth, hchip⟩ := hway
    have hinbox' : (s.host.receive readyByte).inbox = [readyByte] := by simp [hinbox]
    have hscript' : (s.host.receive readyByte).script = .awaitReady :: .send d :: acts := hscript
    rw [hrx] at hready
    refine ⟨[], _, hready.trans ((host_takes_ready hrun hinbox' hscript' hchip).trans
      (host_sends_byte hrun rfl hdepth hchip)), rfl, ?_⟩
    simp [State.receiving, HostSide.receive, ← hinbox]

end Byte

/-! ## A whole chunk -/

/-- An index below another register counts on without wrapping. -/
theorem toNat_add_one_of_lt {x y : Word} (h : x.toNat < y.toNat) : (x + 1).toNat = x.toNat + 1 :=
  BitVec.toNat_add_of_lt (lt_of_le_of_lt (Nat.succ_le_of_lt h) y.isLt)

/-- The list `b` with `D` in place of what it holds from index `i` on. -/
def splice (b : List Byte) (i : Nat) (D : List Byte) : List Byte := b.take i ++ D ++ b.drop (i + D.length)

theorem splice_nil (b : List Byte) (i : Nat) : splice b i [] = b := by simp [splice]

theorem splice_zero (b D : List Byte) : splice b 0 D = D ++ b.drop D.length := by simp [splice]

/-- Storing the first byte, then the rest after it. -/
theorem splice_set {b : List Byte} {i : Nat} (hi : i < b.length) (d : Byte) (D : List Byte) :
    splice (b.set i d) (i + 1) D = splice b i (d :: D) := by
  have htake : (b.set i d).take (i + 1) = b.take i ++ [d] := by
    rw [List.take_succ_eq_append_getElem (by simpa using hi), List.take_set_of_le (Nat.le_refl i),
      List.getElem_set_self]
  rw [splice, splice, htake, List.drop_set_of_lt (by omega), List.length_cons, Nat.add_assoc, Nat.add_comm 1]
  simp

/-- What receiving payload leaves alone: all but the control state, the staging buffer and its
index, and the serial link with its host. -/
def Receives (s t : State) : Prop :=
  ∃ c i b q h x tr, t = { s with
    seq := c, bufIdx := i, buf := b, rxQ := q, host := h, txFinished := x, trace := tr }

theorem Receives.trans {s t u : State} (h : Receives s t) (ht : Receives t u) : Receives s u := by
  obtain ⟨_, _, _, _, _, _, _, rfl⟩ := h
  obtain ⟨_, _, _, _, _, _, _, rfl⟩ := ht
  exact ⟨_, _, _, _, _, _, _, rfl⟩

/-- The block after it has stored the payload byte `d`, the next of the chunk due (R151). -/
def State.received (s : State) (d : Byte) (rest : List Byte) (h : HostSide) : State :=
  ((s.receiving (d :: rest) h).serialTake d).storeByte d

/-- The serial events of a payload: for each byte a ready byte, then the byte (R158). -/
def payloadEvents (D : List Byte) : List Event := D.flatMap (fun d => [.tx readyByte, .rx d])

section Received
variable {s : State} {d : Byte} {rest : List Byte} {h : HostSide}

theorem receives_received : Receives s (s.received d rest h) := ⟨_, _, _, _, _, _, _, rfl⟩

theorem receives_received_more : Receives s ((s.received d rest h).nextByte .wrReady) :=
  ⟨_, _, _, _, _, _, _, rfl⟩

theorem received_buf : (s.received d rest h).buf = s.buf.set s.bufIdx.toNat d := rfl

variable (hrun : Running s) (hroom : s.bufIdx.toNat < s.buf.length)
include hrun hroom

/-- Before the last byte of the chunk (R151). -/
theorem received_more (hmore : s.bufIdx.toNat + 1 < s.chunkLen.toNat) :
    Runs (s.receiving (d :: rest) h) [.rx d] ((s.received d rest h).nextByte .wrReady) := by
  have hcan : (s.receiving (d :: rest) h).blockCanMove = true := blockCanMove_of_rxQ nofun rfl
  refine .of_step (((hrun.receiving _ _).step_block hcan).trans ?_) rfl
  exact blockMove_wrRecv_more rfl rfl hroom hmore

/-- The last byte of the chunk (R151, R152). -/
theorem received_last (hlast : s.chunkLen.toNat ≤ s.bufIdx.toNat + 1) :
    Runs (s.receiving (d :: rest) h) [.rx d] (s.received d rest h).beginErase := by
  have hcan : (s.receiving (d :: rest) h).blockCanMove = true := blockCanMove_of_rxQ nofun rfl
  refine .of_step (((hrun.receiving _ _).step_block hcan).trans ?_) rfl
  exact blockMove_wrRecv_last rfl rfl hroom hlast

end Received

/-- What is left of a chunk arrives in the staging buffer and the call of `erase_region` begins (R150 to R152, R158). -/
theorem payload_arrives {way : Delivery} {D : List Byte} : ∀ {s : State}, Running s → s.seq = .wrReady → D ≠ [] →
    s.chunkLen.toNat = s.bufIdx.toNat + D.length → s.chunkLen.toNat ≤ s.buf.length → s.delivers D way →
    ∃ v, Runs s (payloadEvents D) v.beginErase ∧ Receives s v ∧ v.buf = splice s.buf s.bufIdx.toNat D ∧
      v.delivered D.length s.host way := by
  induction D with
  | nil => intro _ _ _ hD; contradiction
  | cons d D ih =>
    intro s hrun hseq _ hlen hbuf hway
    rw [List.length_cons] at hlen
    have hfirst : s.delivers ([d] ++ D) way := hway
    obtain ⟨rest, h, hready, hdone⟩ := payload_byte_arrives hrun hseq (delivers_before.1 hfirst)
    have hroom : s.bufIdx.toNat < s.buf.length := by omega
    by_cases hD : D = []
    · subst hD
      refine ⟨_, hready.trans (received_last hrun hroom hlen.le), receives_received, ?_, ?_⟩
      · rw [← splice_set hroom, splice_nil, received_buf]
      · rwa [Delivery.before_nil] at hdone
    · have hpos : 0 < D.length := List.length_pos_iff.2 hD
      have hnext : (s.bufIdx + 1).toNat = s.bufIdx.toNat + 1 :=
        toNat_add_one_of_lt (y := s.chunkLen) (by omega)
      obtain ⟨v, hruns, hframe, hvbuf, hvdone⟩ := ih (s := (s.received d rest h).nextByte .wrReady)
        ⟨hrun.cfg_ok, hrun.drv_eq, hrun.turns_nil⟩ rfl hD
        (show s.chunkLen.toNat = (s.bufIdx + 1).toNat + _ by omega)
        (show s.chunkLen.toNat ≤ (s.buf.set _ _).length by rwa [List.length_set])
        (delivers_rest hfirst hdone rfl id)
      refine ⟨v, (hready.trans (received_more hrun hroom (by omega))).trans hruns,
        receives_received_more.trans hframe, ?_, ?_⟩
      · rw [hvbuf, ← splice_set hroom, ← hnext]; rfl
      · rw [List.length_cons, Nat.add_comm]
        exact delivered_append hdone hvdone

end Sys2Proof.Machine
end

section
/-!
A step of `erase_region` or `write_bytes` as a run: the write prelude, the step's own transaction, the polls until the
chip is ready (R117, R118, R122, R124, R126). The chip is idle at its beginning and at its end.
-/
namespace Sys2Proof.Machine

/-! ## What the transactions of a step leave alone -/

/-- All but the position in the step, and the chip-select, status, events and chip that a transaction works on. -/
def Transacts (s t : State) : Prop :=
  ∃ m c b tr f n, t = { s with micro := m, cs := c, status := b, trace := tr, flash := f, noise := n }

theorem Transacts.refl (s : State) : Transacts s s := ⟨_, _, _, _, _, _, rfl⟩

theorem Transacts.trans {s t u : State} (h : Transacts s t) (ht : Transacts t u) : Transacts s u := by
  obtain ⟨_, _, _, _, _, _, rfl⟩ := h
  obtain ⟨_, _, _, _, _, _, rfl⟩ := ht
  exact ⟨_, _, _, _, _, _, rfl⟩

theorem Running.transacts {s t : State} (h : Running s) (ht : Transacts s t) : Running t := by
  obtain ⟨_, _, _, _, _, _, rfl⟩ := ht
  exact ⟨h.cfg_ok, h.drv_eq, h.turns_nil⟩

/-- The block is at work on a step whose own transaction is `main` and which goes on with `done` (R23). -/
inductive Operates (s : State) : Instr → (State → State) → Prop
  | erase : s.seq = .wrErase → s.erasePending = true → s.eraseRefused = false →
      Operates s s.eraseInstr State.eraseStepDone
  | program : s.seq = .wrProgram → s.programPending = true → Operates s s.programInstr State.programStepDone

section Operates
variable {s : State} {main : Instr} {done : State → State}

theorem Operates.transacts {t : State} (h : Operates s main done) (ht : Transacts s t) : Operates t main done := by
  obtain ⟨_, _, _, _, _, _, rfl⟩ := ht
  cases h with
  | erase hseq hpending hok => exact .erase hseq hpending hok
  | program hseq hpending => exact .program hseq hpending

theorem Operates.blockMove (h : Operates s main done) :
    blockMove s = andThen (exec (s.stepInstr main) s) (fun t => .next (t.afterTransaction (done t))) := by
  cases h with
  | erase hseq hpending hok => exact blockMove_wrErase hseq hpending hok
  | program hseq hpending => exact blockMove_wrProgram hseq hpending

theorem Operates.blockCanMove (h : Operates s main done) : s.blockCanMove = true := by
  cases h with
  | erase hseq => exact blockCanMove_of_not_reads (by simp [hseq]) (by simp [State.reads, hseq])
  | program hseq => exact blockCanMove_of_not_reads (by simp [hseq]) (by simp [State.reads, hseq])

/-- What a step goes on with is no event. -/
theorem Operates.trace_done (h : Operates s main done) (t : State) : (done t).trace = t.trace := by
  cases h with
  | erase => unfold State.eraseStepDone; split_ifs <;> rfl
  | program => unfold State.programStepDone; split_ifs <;> rfl

/-- One transaction of the step. -/
theorem Operates.step (h : Operates s main done) (hrun : Running s) {i : Instr} {t : State}
    (hi : s.stepInstr main = i) (ht : exec i s = .next t) : step s = .next (t.afterTransaction (done t)) := by
  rw [hrun.step_block h.blockCanMove, h.blockMove, hi, ht]
  rfl

end Operates

/-! ## The prelude, the own transaction and the polls -/

/-- The instruction goes out, and the chip begins the operation that leaves the content `m`. -/
def TakesEffect (s : State) (i : Instr) (m : Memory) : Prop :=
  ∃ bs base len, exec i s = .next ((s.spi (sent bs)).setFlash (s.flash.begin m base len))

/-- The chip is idle with the content `m`, and every later operation ends (R59). -/
structure Flash.RestsWith (f : Flash) (m : Memory) : Prop where
  mem_eq : f.mem = m
  wip_eq : f.wip = false
  ends   : ∀ q ∈ f.draws, q ≠ none

/-- A chip at work on the content `m` for `j` more polls, every later operation of which ends. -/
structure Flash.WorksOn (f : Flash) (m : Memory) (j : Nat) : Prop where
  mem_eq : f.mem = m
  wip_eq : f.wip = true
  polls  : f.busyPolls = some j
  ends   : ∀ q ∈ f.draws, q ≠ none

theorem Flash.begin_worksOn {f : Flash} (h : ∀ q ∈ f.draws, q ≠ none) (m : Memory) (base len : Nat) :
    ∃ j, (f.begin m base len).WorksOn m j := by
  cases hd : f.draws with
  | nil => exact ⟨0, rfl, rfl, by simp [hd], by simp [hd]⟩
  | cons q rest =>
    rw [hd] at h
    obtain ⟨j, rfl⟩ := Option.ne_none_iff_exists'.1 (h q List.mem_cons_self)
    exact ⟨j, rfl, rfl, by simp [hd], by simpa [hd] using fun q hq => h q (List.mem_cons_of_mem _ hq)⟩

theorem Flash.poll_of_worksOn_zero {f : Flash} {m : Memory} (h : f.WorksOn m 0) : f.poll.RestsWith m := by
  have hpoll : f.poll = f.finish := by simp [Flash.poll, h.wip_eq, h.polls]
  exact hpoll ▸ ⟨h.mem_eq, rfl, h.ends⟩

theorem Flash.poll_of_worksOn_succ {f : Flash} {m : Memory} {j : Nat} (h : f.WorksOn m (j + 1)) :
    f.poll.WorksOn m j := by
  have hpoll : f.poll = { f with busyPolls := some j } := by simp [Flash.poll, h.wip_eq, h.polls]
  exact hpoll ▸ ⟨h.mem_eq, h.wip_eq, rfl, h.ends⟩

/-- The write prelude, last of the raw transactions, enables the chip (R60). -/
theorem Flash.wel_append_prelude (c : Config) (f : Flash) (r : List (List Byte)) :
    Flash.wel c { f with rawRun := r ++ c.writePrelude } = true :=
  List.isSuffixOf_iff_suffix.2 (List.suffix_append ..)

section Step
variable {main : Instr} {done : State → State}

/-- The state after a transaction of the prelude. -/
def State.afterRaw (s : State) (p : List Byte) : State := (s.spi (sent p)).setFlash (s.flash.raw p)

/-- Transaction `k` of the prelude (R117, R124). -/
theorem Operates.prelude_step {s : State} {k : Nat} {p : List Byte} (hop : Operates s main done) (hrun : Running s)
    (hmicro : s.micro = .issue k) (hp : s.cfg.writePrelude[k]? = some p) :
    Machine.step s = .next ((s.afterRaw p).setMicro (.issue (k + 1))) := by
  obtain ⟨hlt, rfl⟩ := List.getElem?_eq_some_iff.1 hp
  have hne : s.cfg.writePrelude[k] ≠ [] := (Config.ok_preludes hrun.cfg_ok).2 _ (List.getElem_mem hlt)
  have hdrv : s.drv ≠ .faulted := by simp [hrun.drv_eq]
  have hi : s.stepInstr main = .tRaw s.cfg.writePrelude[k] := by simp only [State.stepInstr, hmicro, preludeOr, hp]
  have hexec : exec (.tRaw s.cfg.writePrelude[k]) s = .next (s.afterRaw s.cfg.writePrelude[k]) :=
    execTRaw_next.2 ⟨hdrv, hne, rfl⟩
  rw [hop.step hrun hi hexec, afterTransaction_issue (s := s.afterRaw _) hmicro hlt]

/-- The own transaction, after the prelude (R117, R124). -/
theorem Operates.own_step {s t : State} (hop : Operates s main done) (hrun : Running s)
    (hmicro : s.micro = .issue s.cfg.writePrelude.length) (hexec : exec main s = .next t)
    (hframe : t.micro = s.micro ∧ t.cfg = s.cfg) : Machine.step s = .next (t.setMicro .poll) := by
  have hi : s.stepInstr main = main := by simp [State.stepInstr, hmicro, preludeOr]
  obtain ⟨htmicro, hcfg⟩ := hframe
  rw [hop.step hrun hi hexec, afterTransaction_own (htmicro.trans hmicro) (by rw [hcfg])]

/-- A poll: it is repeated while it reads busy, and the first that does not ends the step (R126). -/
theorem Operates.poll_step {s : State} (hop : Operates s main done) (hrun : Running s) (hmicro : s.micro = .poll) :
    Machine.step s = .next (if s.flash.poll.wip then s.afterReadStatus else done s.afterReadStatus) := by
  have hi : s.stepInstr main = .tReadStatus := by simp only [State.stepInstr, hmicro]
  have hexec : exec .tReadStatus s = .next s.afterReadStatus := execTReadStatus_next.2 ⟨hrun.drv_eq, rfl⟩
  have hbusy : s.afterReadStatus.flashBusy = s.flash.poll.wip := flashBusy_afterReadStatus hrun.cfg_ok
  rw [hop.step hrun hi hexec, afterTransaction_poll (s := s.afterReadStatus) hmicro, hbusy]

/-- The rest of the prelude goes out, from transaction `k` on. -/
theorem Operates.prelude_runs {j : Nat} : ∀ {s : State} {k : Nat}, Operates s main done → Running s →
    s.micro = .issue k → k + j = s.cfg.writePrelude.length → ∃ t, SerialRuns s [] t ∧ Transacts s t ∧
      t.micro = .issue s.cfg.writePrelude.length ∧
      t.flash = { s.flash with rawRun := s.flash.rawRun ++ s.cfg.writePrelude.drop k } := by
  induction j with
  | zero =>
    intro s k _ _ hmicro hk
    refine ⟨s, .refl s, .refl s, by rw [hmicro, ← hk]; rfl, ?_⟩
    rw [List.drop_of_length_le (Nat.add_zero k ▸ hk.ge), List.append_nil]
  | succ j ih =>
    intro s k hop hrun hmicro hk
    have hlt : k < s.cfg.writePrelude.length := by omega
    have hstep := hop.prelude_step hrun hmicro (List.getElem?_eq_getElem hlt)
    have hframe : Transacts s ((s.afterRaw s.cfg.writePrelude[k]).setMicro (.issue (k + 1))) :=
      ⟨_, _, _, _, _, _, rfl⟩
    have hfirst := (Runs.of_step hstep rfl).serial (onSerial_transaction (onSerial_sent _))
    obtain ⟨t, hruns, ht, htmicro, htflash⟩ := ih (hop.transacts hframe) (hrun.transacts hframe) rfl
      ((Nat.add_right_comm k 1 j).trans hk)
    refine ⟨t, hfirst.after_silent hruns, hframe.trans ht, htmicro, htflash.trans ?_⟩
    rw [List.drop_eq_getElem_cons hlt, List.append_cons]
    rfl

/-- A chip that gets ready is polled until it is, and the step goes on. -/
theorem Operates.polls_run {m : Memory} {j : Nat} : ∀ {s : State}, Operates s main done → Running s →
    s.micro = .poll → s.flash.WorksOn m j →
    ∃ t, SerialRuns s [] (done t) ∧ Transacts s t ∧ t.flash.RestsWith m := by
  have hsilent (s : State) := onSerial_transaction (xs := sent [s.cfg.cmdReadStatus] ++
    kept s.cfg [statusByte s.cfg s.flash.poll.wip s.noise]) (fun e he =>
      (List.mem_append.1 he).elim (onSerial_sent _ e) (onSerial_kept _ _ e))
  have hframe (s : State) : Transacts s s.afterReadStatus := ⟨_, _, _, _, _, _, rfl⟩
  induction j with
  | zero =>
    intro s hop hrun hmicro hworks
    have hrests := Flash.poll_of_worksOn_zero hworks
    have hstep := hop.poll_step hrun hmicro
    rw [hrests.wip_eq, if_neg Bool.false_ne_true] at hstep
    exact ⟨s.afterReadStatus, (Runs.of_step hstep (hop.trace_done _)).serial (hsilent s), hframe s, hrests⟩
  | succ j ih =>
    intro s hop hrun hmicro hworks
    have hstill := Flash.poll_of_worksOn_succ hworks
    have hstep := hop.poll_step hrun hmicro
    rw [hstill.wip_eq, if_pos rfl] at hstep
    obtain ⟨t, hruns, ht, hrests⟩ := ih (hop.transacts (hframe s)) (hrun.transacts (hframe s)) hmicro hstill
    exact ⟨t, ((Runs.of_step hstep rfl).serial (hsilent s)).after_silent hruns, (hframe s).trans ht, hrests⟩

/-- A whole step on an idle chip: its own transaction takes effect because the prelude comes directly before it. -/
theorem Operates.runs {s : State} {m m' : Memory} (hop : Operates s main done) (hrun : Running s)
    (hmicro : s.micro = .issue 0) (hchip : s.flash.RestsWith m)
    (hmain : ∀ t, Running t → t.cfg = s.cfg → t.flash.RestsWith m → t.flash.wel t.cfg = true → TakesEffect t main m') :
    ∃ t, SerialRuns s [] (done t) ∧ Transacts s t ∧ t.flash.RestsWith m' := by
  obtain ⟨u, hprelude, hu, humicro, huflash⟩ := hop.prelude_runs hrun hmicro (Nat.zero_add _)
  have hucfg : u.cfg = s.cfg := by obtain ⟨_, _, _, _, _, _, rfl⟩ := hu; rfl
  have hwel : u.flash.wel u.cfg = true := by
    rw [hucfg, huflash, List.drop_zero]
    exact Flash.wel_append_prelude ..
  have huchip : u.flash.RestsWith m := huflash ▸ ⟨hchip.mem_eq, hchip.wip_eq, hchip.ends⟩
  obtain ⟨bs, base, len, hexec⟩ := hmain u (hrun.transacts hu) hucfg huchip hwel
  have hown := (hop.transacts hu).own_step (hrun.transacts hu) (hucfg ▸ humicro) hexec ⟨rfl, rfl⟩
  have hv := hu.trans (u := ((u.spi (sent bs)).setFlash (u.flash.begin m' base len)).setMicro .poll)
    ⟨_, _, _, _, _, _, rfl⟩
  obtain ⟨j, hworks⟩ := Flash.begin_worksOn huchip.ends m' base len
  obtain ⟨t, hpolls, ht, hrests⟩ := (hop.transacts hv).polls_run (hrun.transacts hv) rfl hworks
  have hsilent := (Runs.of_step hown rfl).serial (onSerial_transaction (onSerial_sent bs))
  exact ⟨t, (hprelude.after_silent hsilent).after_silent hpolls, hv.trans ht, hrests⟩

end Step

end Sys2Proof.Machine
end

section
/-!
The two calls that store a chunk, as runs. What their transactions do, and `erase_region` over the covering sectors (R121,
R122, R152).
-/
namespace Sys2Proof.Machine

/-! ## The own transactions of the two calls -/

theorem Flash.modify_of_wel {c : Config} {f : Flash} (h : f.wel c = true) (m : Memory) (base len : Nat) :
    f.modify c m base len = f.begin m base len := if_pos h

section Own
variable {s : State} (hrun : Running s) (hidle : s.flash.wip = false) (hwel : s.flash.wel s.cfg = true)
include hrun hidle hwel

theorem takesEffect_sectorErase {a : Word} (haligned : a.toNat % s.cfg.sectorSize = 0)
    (hfits : a.toNat + s.cfg.sectorSize ≤ s.cfg.totalSize) :
    TakesEffect s (.tSectorErase a) (Memory.erase s.flash.mem a.toNat s.cfg.sectorSize) := by
  have hsector := (Config.ok_geometry hrun.cfg_ok).1
  have haddr : spiAddr s.cfg a = a.toNat := spiAddr_of_lt hrun.cfg_ok (by omega)
  refine ⟨addressed s.cfg s.cfg.cmdSectorErase a, a.toNat, s.cfg.sectorSize, execTSectorErase_next.2
    ⟨hrun.drv_eq, haddr.symm ▸ haligned, haddr.symm ▸ hfits, hidle, ?_⟩⟩
  rw [State.afterSectorErase, Flash.sectorErase, Flash.modify_of_wel hwel, haddr]

theorem takesEffect_chipErase : TakesEffect s .tChipErase [] :=
  ⟨[s.cfg.cmdChipErase], 0, s.cfg.totalSize, execTChipErase_next.2 ⟨hrun.drv_eq, hidle, by
    rw [State.afterChipErase, Flash.chipErase, Flash.modify_of_wel hwel]⟩⟩

theorem takesEffect_program {a : Word} {d : List Byte} (hd : d ≠ []) (ha : a.toNat < s.cfg.totalSize) :
    TakesEffect s (.tProgram a d) (Memory.program s.cfg s.flash.mem a.toNat d) := by
  have haddr : spiAddr s.cfg a = a.toNat := spiAddr_of_lt hrun.cfg_ok ha
  refine ⟨addressed s.cfg s.cfg.cmdProgram a ++ d, a.toNat / progPage s.cfg * progPage s.cfg, progPage s.cfg,
    execTProgram_next.2 ⟨hrun.drv_eq, .inr ⟨hd, haddr.symm ▸ ha, hidle, ?_⟩⟩⟩
  rw [State.afterProgram, Flash.program, Flash.modify_of_wel hwel, haddr]

end Own

/-! ## What the two calls leave alone -/

/-- All but the loop variables of the two calls and what their transactions work on. -/
def Drives (s t : State) : Prop :=
  ∃ q m o p e c b tr f n, t = { s with
    seq := q, micro := m, wrOff := o, wrPageMode := p, erIdx := e,
    cs := c, status := b, trace := tr, flash := f, noise := n }

theorem Drives.trans {s t u : State} (h : Drives s t) (ht : Drives t u) : Drives s u := by
  obtain ⟨_, _, _, _, _, _, _, _, _, _, rfl⟩ := h
  obtain ⟨_, _, _, _, _, _, _, _, _, _, rfl⟩ := ht
  exact ⟨_, _, _, _, _, _, _, _, _, _, rfl⟩

theorem Transacts.drives {s t : State} (h : Transacts s t) : Drives s t := by
  obtain ⟨_, _, _, _, _, _, rfl⟩ := h
  exact ⟨_, _, _, _, _, _, _, _, _, _, rfl⟩

theorem Running.drives {s t : State} (h : Running s) (ht : Drives s t) : Running t := by
  obtain ⟨_, _, _, _, _, _, _, _, _, _, rfl⟩ := ht
  exact ⟨h.cfg_ok, h.drv_eq, h.turns_nil⟩

/-! ## erase_region (R121, R122) -/

/-- The call `erase_region(address, count)` of the block is about to erase sector `er_idx`. -/
structure Erasing (s : State) (address count : Nat) : Prop where
  seq_eq    : s.seq = .wrErase
  micro_eq  : s.micro = .issue 0
  erAddr_eq : s.erAddr.toNat = address
  count_eq  : s.erCount.toNat = count
  aligned   : address % s.cfg.sectorSize = 0
  fits      : address + count * s.cfg.sectorSize ≤ s.cfg.totalSize

section Erase
variable {s : State} {address count : Nat}

theorem Erasing.not_refused (h : Erasing s address count) : s.eraseRefused = false := by
  have hok : eraseRegionOk s.cfg s.erAddr s.erCount = true := by
    rw [eraseRegionOk, h.erAddr_eq, h.count_eq, decide_eq_true h.aligned, decide_eq_true h.fits]
    rfl
  simp [State.eraseRefused, hok]

/-- A region that is the whole chip is erased by the chip erase (R122). -/
theorem Erasing.runs_whole {m : Memory} (h : Erasing s address count) (hrun : Running s) (hcount : 1 ≤ count)
    (hchip : s.flash.RestsWith m) (hbelow : m.below s.cfg.totalSize = true)
    (hwhole : eraseWholeChip s.cfg s.erAddr s.erCount = true) :
    ∃ t, SerialRuns s [] t.beginProgram ∧ Drives s t ∧
      t.flash.RestsWith (Memory.erase m address (count * s.cfg.sectorSize)) := by
  have hpending : s.erasePending = true := erasePending_iff.2 ⟨by rw [h.count_eq]; omega, .inl hwhole⟩
  have hop := Operates.erase h.seq_eq hpending h.not_refused
  obtain ⟨t, hruns, ht, hrests⟩ := hop.runs hrun h.micro_eq hchip (m' := []) fun t htrun _ htchip hwel => by
    have hinstr : s.eraseInstr = .tChipErase := if_pos hwhole
    exact hinstr ▸ takesEffect_chipErase htrun htchip.wip_eq hwel
  refine ⟨t, ?_, ht.drives, ?_⟩
  · obtain ⟨_, _, _, _, _, _, rfl⟩ := ht
    rwa [State.eraseStepDone, if_pos hwhole] at hruns
  · have hfull : count * s.cfg.sectorSize = s.cfg.totalSize ∧ address = 0 := by
      simp only [eraseWholeChip, Bool.and_eq_true, beq_iff_eq, decide_eq_true_eq] at hwhole
      obtain ⟨haddr, hall⟩ := hwhole
      rw [← h.count_eq, hall, ← h.erAddr_eq, haddr]
      exact ⟨Nat.div_mul_cancel (Nat.dvd_of_mod_eq_zero (Config.ok_geometry hrun.cfg_ok).2.2.1), rfl⟩
    rwa [hfull.1, hfull.2, Memory.erase_of_below hbelow]

/-- One sector of any other region is erased (R122). -/
theorem Erasing.runs_sector {m : Memory} (h : Erasing s address count) (hrun : Running s) (hchip : s.flash.RestsWith m)
    (hpart : eraseWholeChip s.cfg s.erAddr s.erCount = false) (hidx : s.erIdx.toNat < count) :
    ∃ t, SerialRuns s [] t.eraseStepDone ∧ Transacts s t ∧
      t.flash.RestsWith (Memory.erase m (address + s.erIdx.toNat * s.cfg.sectorSize) s.cfg.sectorSize) := by
  have hpending : s.erasePending = true := erasePending_iff.2 ⟨by rw [h.count_eq]; omega, .inr (by rwa [h.count_eq])⟩
  have hend : address + s.erIdx.toNat * s.cfg.sectorSize + s.cfg.sectorSize ≤ s.cfg.totalSize :=
    calc address + s.erIdx.toNat * s.cfg.sectorSize + s.cfg.sectorSize
        = address + (s.erIdx.toNat + 1) * s.cfg.sectorSize := by rw [Nat.succ_mul, Nat.add_assoc]
      _ ≤ address + count * s.cfg.sectorSize :=
        Nat.add_le_add_left (Nat.mul_le_mul_right _ hidx) _
      _ ≤ s.cfg.totalSize := h.fits
  have hsizes := Config.ok_sizes hrun.cfg_ok
  have hsector := (Config.ok_geometry hrun.cfg_ok).1
  have haddr : (BitVec.ofNat 32 (address + s.erIdx.toNat * s.cfg.sectorSize)).toNat =
      address + s.erIdx.toNat * s.cfg.sectorSize := Nat.mod_eq_of_lt (by omega)
  have hinstr : s.eraseInstr = .tSectorErase (BitVec.ofNat 32 (address + s.erIdx.toNat * s.cfg.sectorSize)) := by
    rw [State.eraseInstr, hpart, h.erAddr_eq]
    rfl
  refine (Operates.erase h.seq_eq hpending h.not_refused).runs hrun h.micro_eq hchip fun t htrun hcfg htchip hwel => ?_
  have heffect := takesEffect_sectorErase htrun htchip.wip_eq hwel
    (a := BitVec.ofNat 32 (address + s.erIdx.toNat * s.cfg.sectorSize))
    (by rw [haddr, hcfg, Nat.add_mul_mod_self_right]; exact h.aligned) (by rw [haddr, hcfg]; exact hend)
  rwa [haddr, htchip.mem_eq, hcfg, ← hinstr] at heffect

/-- After a sector, the next one if there is one, else the program of the chunk (R122). -/
theorem eraseStepDone_of_part {t : State} (ht : Transacts s t)
    (hpart : eraseWholeChip s.cfg s.erAddr s.erCount = false) : t.eraseStepDone =
      if (s.erIdx + 1).toNat < s.erCount.toNat then t.nextSector else t.nextSector.beginProgram := by
  obtain ⟨_, _, _, _, _, _, rfl⟩ := ht
  rw [State.eraseStepDone, if_neg (by simp [hpart])]
  exact if_congr (erasePending_nextSector hpart) rfl rfl

theorem Transacts.nextSector_drives {t : State} (h : Transacts s t) : Drives s t.nextSector := by
  obtain ⟨_, _, _, _, _, _, rfl⟩ := h
  exact ⟨_, _, _, _, _, _, _, _, _, _, rfl⟩

theorem Erasing.nextSector {t : State} (h : Erasing s address count) (ht : Transacts s t) :
    Erasing t.nextSector address count := by
  obtain ⟨_, _, _, _, _, _, rfl⟩ := ht
  exact ⟨h.seq_eq, rfl, h.erAddr_eq, h.count_eq, h.aligned, h.fits⟩

/-- Any other region is erased sector by sector, here the last `j + 1` sectors of it. -/
theorem Erasing.runs_sectors {j : Nat} : ∀ {s : State} {m : Memory}, Erasing s address count → Running s →
    s.flash.RestsWith m → eraseWholeChip s.cfg s.erAddr s.erCount = false → s.erIdx.toNat + (j + 1) = count →
    ∃ t, SerialRuns s [] t.beginProgram ∧ Drives s t ∧
      t.flash.RestsWith
        (Memory.erase m (address + s.erIdx.toNat * s.cfg.sectorSize) ((j + 1) * s.cfg.sectorSize)) := by
  induction j with
  | zero =>
    intro s m h hrun hchip hpart hidx
    obtain ⟨t, hruns, ht, hrests⟩ := h.runs_sector hrun hchip hpart (by omega)
    have hcount := h.count_eq
    have hnext : (s.erIdx + 1).toNat = s.erIdx.toNat + 1 := toNat_add_one_of_lt (y := s.erCount) (by omega)
    rw [eraseStepDone_of_part ht hpart, if_neg (by omega)] at hruns
    exact ⟨t.nextSector, hruns, ht.nextSector_drives, by rwa [Nat.zero_add, Nat.one_mul]⟩
  | succ j ih =>
    intro s m h hrun hchip hpart hidx
    obtain ⟨t, hruns, ht, hrests⟩ := h.runs_sector hrun hchip hpart (by omega)
    have hcount := h.count_eq
    have hnext : (s.erIdx + 1).toNat = s.erIdx.toNat + 1 := toNat_add_one_of_lt (y := s.erCount) (by omega)
    rw [eraseStepDone_of_part ht hpart, if_pos (by omega)] at hruns
    have hregs : t.nextSector.erIdx = s.erIdx + 1 ∧ t.nextSector.cfg = s.cfg ∧ t.nextSector.erAddr = s.erAddr ∧
        t.nextSector.erCount = s.erCount := by
      obtain ⟨_, _, _, _, _, _, rfl⟩ := ht
      exact ⟨rfl, rfl, rfl, rfl⟩
    obtain ⟨hidx', hcfg', haddr', hcount'⟩ := hregs
    obtain ⟨u, hrest, hu, hurests⟩ := ih (h.nextSector ht) (hrun.drives ht.nextSector_drives) hrests
      (by rwa [hcfg', haddr', hcount']) (by rw [hidx']; omega)
    refine ⟨u, hruns.after_silent hrest, ht.nextSector_drives.trans hu, ?_⟩
    rw [hidx', hcfg', hnext, Nat.succ_mul, ← Nat.add_assoc, Memory.erase_erase_adjacent] at hurests
    rwa [Nat.succ_mul (j + 1), Nat.add_comm ((j + 1) * _)]

/-- The whole call: its region is erased and the program of the chunk begins. -/
theorem Erasing.runs {m : Memory} (h : Erasing s address count) (hrun : Running s) (hcount : 1 ≤ count)
    (hchip : s.flash.RestsWith m) (hbelow : m.below s.cfg.totalSize = true)
    (hfirst : eraseWholeChip s.cfg s.erAddr s.erCount = false → s.erIdx = 0) :
    ∃ t, SerialRuns s [] t.beginProgram ∧ Drives s t ∧
      t.flash.RestsWith (Memory.erase m address (count * s.cfg.sectorSize)) := by
  cases hwhole : eraseWholeChip s.cfg s.erAddr s.erCount with
  | true => exact h.runs_whole hrun hcount hchip hbelow hwhole
  | false =>
    obtain ⟨j, rfl⟩ := Nat.exists_eq_add_of_le' hcount
    have hzero : s.erIdx.toNat = 0 := by rw [hfirst hwhole]; rfl
    obtain ⟨t, hruns, ht, hrests⟩ := h.runs_sectors hrun hchip hwhole (by rw [hzero, Nat.zero_add])
    rw [hzero, Nat.zero_mul, Nat.add_zero] at hrests
    exact ⟨t, hruns, ht, hrests⟩

end Erase
end Sys2Proof.Machine
end

section
/-! The call of `write_bytes` (R118, R153) as a run, and the two calls together: a chunk is stored. -/
namespace Sys2Proof.Machine

/-! ## write_bytes -/

/-- The call of `write_bytes` of the block is about to program its next bytes (R118). -/
structure Programming (s : State) : Prop where
  seq_eq   : s.seq = .wrProgram
  micro_eq : s.micro = .issue 0
  chunk    : s.chunkIn
  call     : s.programIn
  buf_len  : s.buf.length = s.cfg.sectorSize

/-- What is still to be programmed of the chunk. -/
def State.unprogrammed (s : State) : List Byte := (s.buf.take s.chunkLen.toNat).drop s.wrOff.toNat

section Program
variable {s t : State}

/-- The next program is the first part of what is left (R118). -/
theorem unprogrammed_eq (hin : s.programIn) :
    s.unprogrammed = s.programData ++ (s.buf.take s.chunkLen.toNat).drop (s.wrOff.toNat + s.programLen) := by
  have hlen := (programLen_bounds hin).2
  have hdata : s.programData = s.unprogrammed.take s.programLen := by
    rw [State.programData, State.unprogrammed, List.drop_take, List.take_take, Nat.min_eq_left (by omega)]
  rw [hdata, ← List.drop_drop]
  exact (List.take_append_drop _ _).symm

/-- The next bytes of the chunk are programmed. -/
theorem Programming.runs_one {m : Memory} (h : Programming s) (hrun : Running s) (hchip : s.flash.RestsWith m) :
    ∃ t, SerialRuns s [] t.programStepDone ∧ Transacts s t ∧
      t.flash.RestsWith (Memory.andFrom m (s.curAddr.toNat + s.wrOff.toNat) s.programData) := by
  have hlen := programLen_bounds h.call
  have hend := programEnd_le h.chunk h.call
  have haddr := toNat_programAddr hrun.cfg_ok h.chunk h.call
  have hdata := length_programData h.buf_len h.chunk h.call
  have hpending : s.programPending = true := decide_eq_true h.call.2.1
  refine (Operates.program h.seq_eq hpending).runs hrun h.micro_eq hchip fun u hurun hcfg huchip hwel => ?_
  have hne : s.programData ≠ [] := List.ne_nil_of_length_pos (by omega)
  have heffect := takesEffect_program hurun huchip.wip_eq hwel (a := s.programAddr) hne (by rw [haddr, hcfg]; omega)
  rwa [haddr, huchip.mem_eq, hcfg, Memory.program_eq_andFrom _ (hdata.symm ▸ programLen_le_page h.call)] at heffect

theorem toNat_wrOff_nextProgram (hin : s.programIn) (ht : Transacts s t) :
    t.nextProgram.wrOff.toNat = s.wrOff.toNat + s.programLen := by
  obtain ⟨_, _, _, _, _, _, rfl⟩ := ht
  have hlen := (programLen_bounds hin).2
  have hchunk := s.chunkLen.isLt
  have hstep : (BitVec.ofNat 32 s.programLen).toNat = s.programLen := Nat.mod_eq_of_lt (by omega)
  show (s.wrOff + BitVec.ofNat 32 s.programLen).toNat = _
  rw [BitVec.toNat_add_of_lt (by omega), hstep]

theorem Transacts.nextProgram_drives (h : Transacts s t) : Drives s t.nextProgram := by
  obtain ⟨_, _, _, _, _, _, rfl⟩ := h
  exact ⟨_, _, _, _, _, _, _, _, _, _, rfl⟩

/-- While bytes are left the call goes on; in page mode only whole pages have been programmed (R118). -/
theorem Programming.nextProgram (h : Programming s) (ht : Transacts s t)
    (hmore : s.wrOff.toNat + s.programLen < s.chunkLen.toNat) : Programming t.nextProgram := by
  have hoff := toNat_wrOff_nextProgram h.call ht
  obtain ⟨_, _, _, _, _, _, rfl⟩ := ht
  obtain ⟨hmode, hpending, hpage⟩ := h.call
  refine ⟨h.seq_eq, rfl, h.chunk, ⟨hmode, hoff.trans_lt hmore, fun hpageMode => ?_⟩, h.buf_len⟩
  have hpageMode : s.wrPageMode = true := hpageMode
  rw [hoff]
  show (s.wrOff.toNat + s.programLen) % s.cfg.pageSize = 0
  have hwhole : s.programLen = s.cfg.pageSize := by
    rw [programLen_of_pageMode hpageMode] at hmore ⊢
    omega
  rw [hwhole, Nat.add_mod_right, hpage hpageMode]

/-- After a program, the next one if bytes are left, else the cursor advances (R118, R149). -/
theorem programStepDone_eq (hin : s.programIn) (ht : Transacts s t) : t.programStepDone =
    if s.wrOff.toNat + s.programLen < s.chunkLen.toNat then t.nextProgram else t.nextProgram.advanceCursor := by
  have hoff := toNat_wrOff_nextProgram hin ht
  have hlen : t.nextProgram.chunkLen = s.chunkLen := by obtain ⟨_, _, _, _, _, _, rfl⟩ := ht; rfl
  rw [State.programStepDone, State.programPending, hoff, hlen]
  simp only [decide_eq_true_eq]

/-- The rest of the call: what is left of the chunk is programmed, and the cursor advances (R118, R149). -/
theorem Programming.runs {n : Nat} : ∀ {s : State} {m : Memory}, Programming s → Running s →
    s.flash.RestsWith m → s.chunkLen.toNat - s.wrOff.toNat = n →
    ∃ t, SerialRuns s [] t.advanceCursor ∧ Drives s t ∧
      t.flash.RestsWith (Memory.andFrom m (s.curAddr.toNat + s.wrOff.toNat) s.unprogrammed) := by
  induction n using Nat.strong_induction_on with
  | _ n ih =>
    intro s m h hrun hchip hn
    have hlen := programLen_bounds h.call
    obtain ⟨t, hruns, ht, hrests⟩ := h.runs_one hrun hchip
    have hdrives := ht.nextProgram_drives
    have hoff := toNat_wrOff_nextProgram h.call ht
    rw [programStepDone_eq h.call ht] at hruns
    rw [unprogrammed_eq h.call, Memory.andFrom_append, length_programData h.buf_len h.chunk h.call, Nat.add_assoc]
    by_cases hmore : s.wrOff.toNat + s.programLen < s.chunkLen.toNat
    · rw [if_pos hmore] at hruns
      have hregs : t.nextProgram.curAddr = s.curAddr ∧ t.nextProgram.chunkLen = s.chunkLen ∧
          t.nextProgram.buf = s.buf := by
        obtain ⟨_, _, _, _, _, _, rfl⟩ := ht
        exact ⟨rfl, rfl, rfl⟩
      obtain ⟨hcur, hchunk, hbuf⟩ := hregs
      obtain ⟨u, hrest, hu, hurests⟩ := ih (s.chunkLen.toNat - (s.wrOff.toNat + s.programLen)) (by omega)
        (h.nextProgram ht hmore) (hrun.drives hdrives) hrests (by rw [hchunk, hoff])
      rw [State.unprogrammed, hcur, hchunk, hbuf, hoff] at hurests
      exact ⟨u, hruns.after_silent hrest, hdrives.trans hu, hurests⟩
    · rw [if_neg hmore] at hruns
      have hnone : (s.buf.take s.chunkLen.toNat).drop (s.wrOff.toNat + s.programLen) = [] :=
        List.drop_of_length_le ((List.length_take_le ..).trans (by omega))
      rw [hnone]
      exact ⟨t.nextProgram, hruns, hdrives, hrests⟩

end Program

/-! ## The two calls together -/

section Chunk
variable {v : State}

/-- The covering sectors of a chunk lie in the chip (R152). -/
theorem coverEnd_le (hrun : Running v) (hchunk : v.chunkIn) :
    v.coverFirst * v.cfg.sectorSize + v.coverCount * v.cfg.sectorSize ≤ v.cfg.totalSize := by
  obtain ⟨hcursor, hpos, -, hrem⟩ := hchunk
  obtain ⟨hsector, -, hmultiple, -⟩ := Config.ok_geometry hrun.cfg_ok
  unfold State.cursorIn at hcursor
  have hle : v.coverFirst ≤ v.coverLast := Nat.div_le_div_right (by omega)
  have hend := page_end_le (a := v.curAddr.toNat + v.chunkLen.toNat - 1) hsector hmultiple (by omega)
  rwa [← Nat.add_mul, State.coverCount, show v.coverFirst + (v.coverLast - v.coverFirst + 1) = v.coverLast + 1 by omega,
    Nat.succ_mul]

/-- The call of `erase_region` that R152 makes. -/
theorem erasing_beginErase (hrun : Running v) (hchunk : v.chunkIn) :
    Erasing v.beginErase (v.coverFirst * v.cfg.sectorSize) v.coverCount := by
  have hend := coverEnd_le hrun hchunk
  have hcount := coverCount_le hchunk
  have htotal := (Config.ok_sizes hrun.cfg_ok).1
  exact ⟨rfl, rfl, Nat.mod_eq_of_lt (by omega), Nat.mod_eq_of_lt (by omega), Nat.mul_mod_left .., hend⟩

theorem programming_beginProgram {t : State} (hchunk : v.chunkIn) (hbuf : v.buf.length = v.cfg.sectorSize)
    (ht : Drives v.beginErase t) : Programming t.beginProgram := by
  obtain ⟨_, _, _, _, _, _, _, _, _, _, rfl⟩ := ht
  obtain ⟨hcursor, hpos, hsector, hrem⟩ := hchunk
  exact ⟨rfl, rfl, ⟨hcursor, hpos, hsector, hrem⟩, ⟨rfl, hpos, fun _ => Nat.zero_mod _⟩, hbuf⟩

/-- The chunk in the staging buffer is stored: its covering sectors are erased, it is programmed, and the cursor
advances (R152, R153, R149). -/
theorem chunk_stored {m : Memory} (hrun : Running v) (hchunk : v.chunkIn) (hbuf : v.buf.length = v.cfg.sectorSize)
    (hchip : v.flash.RestsWith m) (hbelow : m.below v.cfg.totalSize = true) :
    ∃ t, SerialRuns v.beginErase [] t.advanceCursor ∧ Drives v.beginErase t ∧ t.flash.RestsWith
      (Memory.storeChunk v.cfg.sectorSize m v.curAddr.toNat (v.buf.take v.chunkLen.toNat)) := by
  have hfirst (h : eraseWholeChip v.cfg v.beginErase.erAddr v.beginErase.erCount = false) : v.beginErase.erIdx = 0 :=
    if_neg (by simpa using h)
  have hrun' : Running v.beginErase := ⟨hrun.cfg_ok, hrun.drv_eq, hrun.turns_nil⟩
  obtain ⟨t, hruns, ht, hrests⟩ := (erasing_beginErase hrun hchunk).runs hrun' (coverCount_le hchunk).1 hchip hbelow
    hfirst
  have hprog := programming_beginProgram hchunk hbuf ht
  have hdrives : Drives v.beginErase t.beginProgram := ht.trans ⟨_, _, _, _, _, _, _, _, _, _, rfl⟩
  obtain ⟨u, hprogram, hu, hurests⟩ := hprog.runs (hrun'.drives hdrives) hrests rfl
  refine ⟨u, hruns.after_silent hprogram, hdrives.trans hu, ?_⟩
  have hlen : (v.buf.take v.chunkLen.toNat).length = v.chunkLen.toNat :=
    List.length_take_of_le (hbuf ▸ hchunk.2.2.1)
  rw [Memory.storeChunk, hlen]
  obtain ⟨_, _, _, _, _, _, _, _, _, _, rfl⟩ := ht
  exact hurests

end Chunk

end Sys2Proof.Machine
end

section
/-! A whole `WRITE_FLASH` as a run, chunk by chunk, and what it leaves (R145, R154, R156, R157). -/
namespace Sys2Proof.Machine

/-- What a command leaves alone of the registers outside it. -/
structure CommandFrame (s t : State) : Prop where
  cfg        : t.cfg = s.cfg
  drv        : t.drv = s.drv
  turns      : t.turns = s.turns
  op         : t.op = s.op
  faultCause : t.faultCause = s.faultCause
  idMfr      : t.idMfr = s.idMfr
  idDev      : t.idDev = s.idDev

theorem CommandFrame.trans {s t u : State} (h : CommandFrame s t) (ht : CommandFrame t u) : CommandFrame s u :=
  ⟨ht.cfg.trans h.cfg, ht.drv.trans h.drv, ht.turns.trans h.turns, ht.op.trans h.op, ht.faultCause.trans h.faultCause,
    ht.idMfr.trans h.idMfr, ht.idDev.trans h.idDev⟩

theorem Running.commandFrame {s t : State} (h : Running s) (ht : CommandFrame s t) : Running t :=
  ⟨ht.cfg ▸ h.cfg_ok, ht.drv.trans h.drv_eq, ht.turns.trans h.turns_nil⟩

/-- The block is in `S_CHUNK` of a `WRITE_FLASH`: the payload `D` is still to be written from `a`, it is delivered, and
the chip is idle with the content `m`. -/
structure Writing (s : State) (a : Nat) (D : List Byte) (way : Delivery) (m : Memory) : Prop where
  running  : Running s
  seq_eq   : s.seq = .chunk
  op_eq    : s.op = opWriteFlash
  cur_eq   : s.curAddr.toNat = a
  rem_eq   : s.rem.toNat = D.length
  fits     : a + D.length ≤ s.cfg.totalSize
  buf_len  : s.buf.length = s.cfg.sectorSize
  delivers : s.delivers D way
  chip     : s.flash.RestsWith m
  mem_wf   : m.wf = true
  mem_in   : m.below s.cfg.totalSize = true

/-- The chunk `E`, from the cursor of `s` on, has arrived in the staging buffer of `v`. -/
structure Staged (s v : State) (E : List Byte) : Prop where
  frame    : CommandFrame s v
  cur_eq   : v.curAddr = s.curAddr
  rem_eq   : v.rem = s.rem
  flash_eq : v.flash = s.flash
  len_eq   : v.chunkLen.toNat = E.length
  buf_eq   : v.buf.take E.length = E
  buf_len  : v.buf.length = v.cfg.sectorSize

theorem delivered_congr {t u : State} (hrx : t.rxQ = u.rxQ) (hhost : t.host = u.host) (n : Nat) (h : HostSide)
    (way : Delivery) : t.delivered n h way ↔ u.delivered n h way := by
  unfold State.delivered
  rw [hrx, hhost]

theorem onSerial_payloadEvents (D : List Byte) : (payloadEvents D).filter Event.onSerial = payloadEvents D :=
  List.filter_eq_self.2 fun e he => by
    obtain ⟨d, -, he⟩ := List.mem_flatMap.1 he
    rcases List.mem_pair.1 he with rfl | rfl <;> rfl

section Chunk
variable {s : State} {a : Nat} {D : List Byte} {way : Delivery} {m : Memory}

theorem Writing.step (h : Writing s a D way m) : step s = .next s.decideChunk := by
  have hcan : s.blockCanMove = true := blockCanMove_of_not_reads (by simp [h.seq_eq]) (by simp [State.reads, h.seq_eq])
  rw [h.running.step_block hcan, blockMove_chunk h.seq_eq]

/-- The length of the chunk that begins is that of the next part of the payload (R145). -/
theorem Writing.toNat_chunkLen (h : Writing s a D way m) :
    s.beginChunk.chunkLen.toNat = (D.take s.cfg.sectorSize).length := by
  have hrem := s.rem.isLt
  have hlen : (BitVec.ofNat 32 s.chunkSize).toNat = s.chunkSize :=
    Nat.mod_eq_of_lt (lt_of_le_of_lt (Nat.min_le_left ..) hrem)
  rw [State.beginChunk_chunkLen, hlen, List.length_take, State.chunkSize, h.rem_eq, Nat.min_comm]

theorem Writing.beginChunk_runs (h : Writing s a D way m) (hD : 1 ≤ D.length) : SerialRuns s [] s.beginChunk := by
  have hrem : s.rem ≠ 0 := by
    intro hzero
    rw [← h.rem_eq, hzero] at hD
    exact absurd hD (by decide)
  have hstep := h.step
  rw [State.decideChunk, if_neg hrem] at hstep
  exact (Runs.of_step hstep (List.append_nil _).symm).serial rfl

/-- A chunk begins and its part of the payload arrives (R145, R150, R151). -/
theorem Writing.payload_arrives (h : Writing s a D way m) (hD : 1 ≤ D.length) :
    ∃ v, SerialRuns s (payloadEvents (D.take s.cfg.sectorSize)) v.beginErase ∧
      Staged s v (D.take s.cfg.sectorSize) ∧
      v.delivered (D.take s.cfg.sectorSize).length s.host (way.before (D.drop s.cfg.sectorSize)) := by
  have hsector := (Config.ok_geometry h.running.cfg_ok).1
  have hlen := h.toNat_chunkLen
  have hpart : (D.take s.cfg.sectorSize).length ≤ s.cfg.sectorSize := List.length_take_le ..
  have hpos : 1 ≤ (D.take s.cfg.sectorSize).length := by rw [List.length_take]; omega
  have hwrite : s.op ≠ opReadFlash := by rw [h.op_eq]; decide
  have hidx : s.beginChunk.bufIdx.toNat = 0 := by rw [State.beginChunk_bufIdx, if_neg hwrite]; rfl
  have hway : s.delivers (D.take s.cfg.sectorSize ++ D.drop s.cfg.sectorSize) way := by
    rw [List.take_append_drop]
    exact h.delivers
  obtain ⟨v, hruns, hframe, hbuf, hdone⟩ := Machine.payload_arrives (s := s.beginChunk)
    ⟨h.running.cfg_ok, h.running.drv_eq, h.running.turns_nil⟩ (if_neg hwrite) (List.ne_nil_of_length_pos hpos)
    (by rw [hidx, Nat.zero_add]; exact hlen) (by rw [hlen, State.beginChunk_buf, h.buf_len]; exact hpart)
    (delivers_before.1 hway)
  rw [hidx, splice_zero, State.beginChunk_buf] at hbuf
  have hbuflen : v.buf.length = s.cfg.sectorSize := by
    rw [hbuf, List.length_append, List.length_drop, h.buf_len]
    omega
  have htake : v.buf.take (D.take s.cfg.sectorSize).length = D.take s.cfg.sectorSize := by rw [hbuf, List.take_left]
  refine ⟨v, (h.beginChunk_runs hD).after_silent (hruns.serial (onSerial_payloadEvents _)), ?_, hdone⟩
  obtain ⟨_, _, _, _, _, _, _, rfl⟩ := hframe
  exact ⟨⟨rfl, rfl, rfl, rfl, rfl, rfl, rfl⟩, rfl, rfl, rfl, hlen, htake, hbuflen⟩

theorem Writing.chunkIn {v : State} {E : List Byte} (h : Writing s a D way m) (hv : Staged s v E) (hE : 1 ≤ E.length)
    (hsector : E.length ≤ s.cfg.sectorSize) (hpart : E.length ≤ D.length) : v.chunkIn := by
  have hfits := h.fits
  have hcur := h.cur_eq
  have hrem := h.rem_eq
  rw [State.chunkIn, State.cursorIn, hv.cur_eq, hv.rem_eq, hv.len_eq, hv.frame.cfg]
  omega

/-- What the two calls leave of the block when the cursor has advanced (R149). -/
theorem Drives.advanced {v t : State} (h : Drives v.beginErase t) :
    CommandFrame v t.advanceCursor ∧ t.advanceCursor.curAddr = v.curAddr + v.chunkLen ∧
      t.advanceCursor.rem = v.rem - v.chunkLen ∧ t.advanceCursor.buf = v.buf ∧ t.advanceCursor.rxQ = v.rxQ ∧
      t.advanceCursor.host = v.host := by
  obtain ⟨_, _, _, _, _, _, _, _, _, _, rfl⟩ := h
  exact ⟨⟨rfl, rfl, rfl, rfl, rfl, rfl, rfl⟩, rfl, rfl, rfl, rfl, rfl⟩

/-- A chunk of the payload is written: the same holds of the rest of it, from the next address on. -/
theorem Writing.chunk_runs (h : Writing s a D way m) (hD : 1 ≤ D.length) :
    ∃ t, SerialRuns s (payloadEvents (D.take s.cfg.sectorSize)) t ∧ CommandFrame s t ∧
      t.delivered (D.take s.cfg.sectorSize).length s.host (way.before (D.drop s.cfg.sectorSize)) ∧
      Writing t (a + (D.take s.cfg.sectorSize).length) (D.drop s.cfg.sectorSize) way
        (Memory.storeChunk s.cfg.sectorSize m a (D.take s.cfg.sectorSize)) := by
  obtain ⟨v, hpayload, hv, hdone⟩ := h.payload_arrives hD
  have hsector := (Config.ok_geometry h.running.cfg_ok).1
  have htake : (D.take s.cfg.sectorSize).length = min s.cfg.sectorSize D.length := List.length_take
  have hdrop : (D.drop s.cfg.sectorSize).length = D.length - s.cfg.sectorSize := List.length_drop
  have hchunk := h.chunkIn hv (by omega) (by omega) (by omega)
  have hrun := h.running.commandFrame hv.frame
  obtain ⟨t, hstored, hdrives, hrests⟩ := chunk_stored hrun hchunk hv.buf_len (hv.flash_eq ▸ h.chip)
    (hv.frame.cfg ▸ h.mem_in)
  rw [hv.len_eq, hv.buf_eq, hv.frame.cfg, hv.cur_eq, h.cur_eq] at hrests
  obtain ⟨hframe, hcur, hrem, hbuf, hrx, hhost⟩ := hdrives.advanced
  have hframe := hv.frame.trans hframe
  have hdone := (delivered_congr hrx hhost ..).2 hdone
  refine ⟨t.advanceCursor, hpayload.then_silent hstored, hframe, hdone, ?_⟩
  have hfits := h.fits
  have hcur' := h.cur_eq
  have hrem' := h.rem_eq
  have htotal := (Config.ok_sizes h.running.cfg_ok).1
  have hlen := hv.len_eq
  exact {
    running := h.running.commandFrame hframe
    seq_eq := rfl
    op_eq := hframe.op.trans h.op_eq
    cur_eq := by rw [hcur, hv.cur_eq, BitVec.toNat_add_of_lt (by omega), hlen, hcur']
    rem_eq := by rw [hrem, hv.rem_eq, BitVec.toNat_sub_of_le (by rw [BitVec.le_def]; omega), hlen]; omega
    fits := by rw [hframe.cfg]; omega
    buf_len := by rw [hbuf, hframe.cfg, hv.buf_len, hv.frame.cfg]
    delivers := delivers_rest (by rw [List.take_append_drop]; exact h.delivers) hdone hframe.cfg
      (fun _ => by simp [State.flashCanMove, hrests.wip_eq])
    chip := hrests
    mem_wf := Memory.wf_storeChunk h.mem_wf
    mem_in := by rw [hframe.cfg]; exact Memory.below_storeChunk h.mem_in (by omega) }

end Chunk

/-! ## The command -/

theorem delivered_nil {s : State} {way : Delivery} (h : s.delivers [] way) : s.delivered 0 s.host way := by
  cases way with
  | waiting rest => exact ⟨h, by simp⟩
  | paced acts =>
    obtain ⟨hrx, -, hscript, -⟩ := h
    exact ⟨hrx, by rw [← show s.host.script = acts from hscript]⟩

/-- With no payload left the command is complete (R145, R154). -/
theorem Writing.end_runs {s : State} {a : Nat} {way : Delivery} {m : Memory} (h : Writing s a [] way m) :
    SerialRuns s [] s.endCommand := by
  have hrem : s.rem = 0 := BitVec.eq_of_toNat_eq h.rem_eq
  have hstep := h.step
  rw [State.decideChunk, if_pos hrem] at hstep
  by_cases hled : s.ledBusy = false
  · exact (Runs.of_step hstep (es := []) (by simp [Appends, hled])).serial rfl
  · exact (Runs.of_step hstep (es := [.led false]) (by simp [Appends, hled])).serial rfl

/-- A `WRITE_FLASH` runs to its end, and the chip holds the chunks of its payload. -/
theorem Writing.runs {way : Delivery} {c : Config} (hok : c.ok = true) (D : List Byte) :
    ∀ {s : State} {a : Nat} {m : Memory}, s.cfg = c → Writing s a D way m →
    ∃ u, SerialRuns s (payloadEvents D) u ∧ CommandFrame s u ∧ u.seq = .waitCmd ∧ u.ledBusy = false ∧ u.rem = 0 ∧
      u.delivered D.length s.host way ∧ u.flash.RestsWith (Memory.storeChunks c.sectorSize m a D) := by
  have hsector := (Config.ok_geometry hok).1
  induction D using chunk_induction hsector with
  | nil =>
    intro s a m _ h
    rw [Memory.storeChunks_nil]
    exact ⟨s.endCommand, h.end_runs, ⟨rfl, rfl, rfl, rfl, rfl, rfl, rfl⟩, rfl, rfl, BitVec.eq_of_toNat_eq h.rem_eq,
      delivered_nil h.delivers, h.chip⟩
  | chunk D hD ih =>
    intro s a m hcfg h
    obtain ⟨t, hchunk, hframe, hdone, hrest⟩ := h.chunk_runs hD
    rw [hcfg] at hchunk hdone hrest
    obtain ⟨u, hruns, huframe, hseq, hled, hrem, hudone, hrests⟩ := ih (hframe.cfg.trans hcfg) hrest
    refine ⟨u, ?_, hframe.trans huframe, hseq, hled, hrem, ?_, ?_⟩
    · have hevents : payloadEvents D = payloadEvents (D.take c.sectorSize) ++ payloadEvents (D.drop c.sectorSize) := by
        rw [payloadEvents, payloadEvents, payloadEvents, ← List.flatMap_append, List.take_append_drop]
      rw [hevents]
      exact hchunk.trans hruns
    · have hlen := congrArg List.length (List.take_append_drop c.sectorSize D)
      rw [← hlen, List.length_append]
      exact delivered_append hdone hudone
    · rw [Memory.storeChunks_chunk hsector hD]
      rcases Nat.lt_or_ge c.sectorSize D.length with hmore | hlast
      · rwa [List.length_take_of_le hmore.le] at hrests
      · rw [List.drop_of_length_le hlast] at hrests ⊢
        rwa [Memory.storeChunks_nil] at hrests ⊢

/-- A request in contract begins the command with all of the payload still to be written (R144, R146). -/
theorem writing_loadCursor {s : State} {a n : Word} {D : List Byte} {way : Delivery} (hrun : Running s)
    (hfits : a.toNat + n.toNat ≤ s.cfg.totalSize) (hbuf : s.buf.length = s.cfg.sectorSize)
    (hlen : D.length = n.toNat) (hway : s.delivers D way) (hchip : s.flash.RestsWith s.flash.mem)
    (hwf : s.flash.mem.wf = true) (hbelow : s.flash.mem.below s.cfg.totalSize = true) :
    Writing (s.loadCursor opWriteFlash a n) a.toNat D way s.flash.mem where
  running := ⟨hrun.cfg_ok, hrun.drv_eq, hrun.turns_nil⟩
  seq_eq := rfl
  op_eq := rfl
  cur_eq := rfl
  rem_eq := hlen.symm
  fits := hlen.symm ▸ hfits
  buf_len := hbuf
  delivers := by cases way <;> exact hway
  chip := hchip
  mem_wf := hwf
  mem_in := hbelow

/-- Settles O42: the command runs to its end and leaves the chunks of the payload, each of which erases what the one
before it stored beyond the sector boundary. -/
theorem unalignedLongWriteLosesChunkTails : Obligations.UnalignedLongWriteLosesChunkTails := by
  intro a n D way s hok hdrv hturns hidle hwf hbelow hbuf hdraws hfits hlen hway S o hS ho _ hlong
  subst hS ho
  rw [← hlen] at hlong ⊢
  have hsector := (Config.ok_geometry hok).1
  have hstart := writing_loadCursor (a := a) ⟨hok, hdrv, hturns⟩ hfits hbuf hlen hway ⟨rfl, hidle, hdraws⟩ hwf hbelow
  obtain ⟨u, ⟨es, ⟨⟨k, hreaches⟩, happends⟩, hserial⟩, hframe, hseq, -, -, hdone, hrests⟩ :=
    Writing.runs hok D (s := s.loadCursor opWriteFlash a n) rfl hstart
  refine ⟨s.loadCursor opWriteFlash a n, u, k, es, execWriteFlash_next.2 ⟨hdrv, hfits, rfl⟩, hreaches, hseq,
    hframe.drv.trans hdrv, hframe.faultCause, hrests.wip_eq, hdone, happends, hserial, fun i hi => ?_, fun x hx => ?_⟩
  · rw [hrests.mem_eq]
    exact ⟨fun ⟨hchunk, htail⟩ => Memory.read_storeChunks_tail hsector D hwf hi hchunk htail,
      Memory.read_storeChunks_kept hsector D hwf hi⟩
  · rw [hrests.mem_eq]
    exact Memory.read_storeChunks_outside hsector D hwf (by omega) hx

end Sys2Proof.Machine
end

section
/-!
A chip that never gets ready (R192): polling for ever.
-/
namespace Sys2Proof.Machine

/-- The events of one status transaction that reads `b` (R95). -/
def statusRead (c : Config) (b : Byte) : List Event :=
  [.cs true, .xfer c.cmdReadStatus none, .xfer c.dummy (some b), .cs false]

theorem appends_afterReadStatus (s : State) :
    Appends s s.afterReadStatus (statusRead s.cfg s.afterReadStatus.status) := rfl

section Hung
variable {s : State}

theorem State.hung.operates (h : s.hung) (hok : s.eraseRefused = false) : ∃ main done, Operates s main done := by
  obtain ⟨⟨hseq, hpending⟩ | ⟨hseq, hpending⟩, -⟩ := h
  · exact ⟨_, _, .erase hseq hpending hok⟩
  · exact ⟨_, _, .program hseq hpending⟩

theorem State.hung.poll_eq (h : s.hung) : s.flash.poll = s.flash :=
  have ⟨_, _, hwip, hforever, _⟩ := h
  Flash.poll_forever hwip hforever

/-- A hung block polls once more (R126, R192). -/
theorem State.hung.step (h : s.hung) (hrun : Running s) (hok : s.eraseRefused = false) :
    step s = .next s.afterReadStatus := by
  obtain ⟨main, done, hop⟩ := h.operates hok
  have ⟨_, hmicro, hwip, _, _⟩ := h
  rw [hop.poll_step hrun hmicro, h.poll_eq, hwip, if_pos rfl]

theorem State.hung.afterReadStatus (h : s.hung) : s.afterReadStatus.hung := by
  have hflash : s.afterReadStatus.flash = s.flash := h.poll_eq
  obtain ⟨hseq, hmicro, hwip, hforever, hturns⟩ := h
  exact ⟨hseq, hmicro, hflash ▸ hwip, hflash ▸ hforever, hturns⟩

/-- The status read by a hung block has the busy bit set (R59, R125). -/
theorem State.hung.status_busy (h : s.hung) (hrun : Running s) : s.afterReadStatus.status &&& s.cfg.wipMask ≠ 0 := by
  obtain ⟨-, -, -, -, -, -, hmask⟩ := Config.ok_geometry hrun.cfg_ok
  have ⟨_, _, hwip, _, _⟩ := h
  exact (statusByte_and_wipMask hmask s.flash.poll.wip s.noise).2 (by rw [h.poll_eq, hwip])

end Hung

/-- `k` steps of a hung block are `k` status transactions, and the chip stays as it is (R192). -/
theorem State.hung.reaches (k : Nat) : ∀ {s : State}, s.hung → Running s → s.eraseRefused = false →
    ∃ (u : State) (sts : List Byte), Reaches k s u ∧ u.hung ∧ Transacts s u ∧ u.flash = s.flash ∧ sts.length = k ∧
      (∀ b ∈ sts, b &&& s.cfg.wipMask ≠ 0) ∧ Appends s u (sts.flatMap (statusRead s.cfg)) := by
  induction k with
  | zero =>
    intro s h _ _
    exact ⟨s, [], rfl, h, .refl s, rfl, rfl, by simp, by simp [Appends]⟩
  | succ k ih =>
    intro s h hrun hok
    have hframe : Transacts s s.afterReadStatus := ⟨_, _, _, _, _, _, rfl⟩
    obtain ⟨u, sts, hreaches, hu, ht, hflash, hlen, hbusy, happends⟩ :=
      ih h.afterReadStatus (hrun.transacts hframe) hok
    refine ⟨u, s.afterReadStatus.status :: sts, reaches_succ.2 ⟨_, h.step hrun hok, hreaches⟩, hu, hframe.trans ht,
      hflash.trans h.poll_eq, congrArg Nat.succ hlen, List.forall_mem_cons.2 ⟨h.status_busy hrun, hbusy⟩, ?_⟩
    rw [Appends, happends, appends_afterReadStatus s, List.append_assoc]
    rfl

/-- Settles O37, by induction on the number of steps: a poll of a chip that is busy for ever leaves it as it is. -/
theorem busyForEverPollsForEver : Obligations.BusyForEverPollsForEver := by
  intro s hok hdrv hturns h hregion k
  obtain ⟨u, sts, hreaches, hu, ⟨_, _, _, _, _, _, rfl⟩, hflash, hlen, hbusy, happends⟩ :=
    h.reaches k ⟨hok, hdrv, hturns⟩ hregion
  exact ⟨_, hreaches, hu, rfl, hdrv, by simp [State.faulted, hdrv], rfl, rfl, rfl, congrArg Flash.mem hflash, sts, hlen,
    hbusy, happends⟩

end Sys2Proof.Machine
end

section
/-!
A busy chip and the block (R67, R235): the run invariant places the block at a poll of `wait_ready`, and there it runs a
status read and nothing else.
-/
namespace Sys2Proof.Machine
variable {s : State}

theorem stepInstr_poll (h : s.micro = .poll) (main : Instr) : s.stepInstr main = .tReadStatus := by
  rw [State.stepInstr, h]

/-- The transaction of a step of `erase_region`, while a sector is pending (R122). -/
theorem fetch_wrErase {i : Instr} (hseq : s.seq = .wrErase) (h : s.fetch = some i) :
    s.erasePending = true ∧ s.stepInstr s.eraseInstr = i := by
  simpa [State.fetch, hseq] using h

/-- The transaction of a step of `write_bytes`, while bytes are pending (R118). -/
theorem fetch_wrProgram {i : Instr} (hseq : s.seq = .wrProgram) (h : s.fetch = some i) :
    s.programPending = true ∧ s.stepInstr s.programInstr = i := by
  simpa [State.fetch, hseq] using h

theorem State.busyOnlyPolling.micro_eq (h : s.busyOnlyPolling) (hbusy : s.flash.wip = true) : s.micro = .poll :=
  h.resolve_right (by simp [hbusy])

/-- While the chip is busy the block polls in one of its two write operations: every other control state begins with the
chip idle. -/
theorem RunInv.polls_of_busy (hrun : RunInv s) (hbusy : s.flash.wip = true) :
    s.micro = .poll ∧ (s.seq = .wrErase ∨ s.seq = .wrProgram) := by
  have hdata := hrun.data_in
  unfold State.dataIn at hdata
  cases hseq : s.seq <;> rw [hseq] at hdata
  case wrErase => exact ⟨hdata.1.micro_eq hbusy, .inl rfl⟩
  case wrProgram => exact ⟨hdata.1.micro_eq hbusy, .inr rfl⟩
  all_goals simp [hbusy] at hdata

/-- Settles O38: the chip is busy only while the block polls, and in both write operations a poll is a status read. -/
theorem onlyPollsWhileBusy : Obligations.OnlyPollsWhileBusy := by
  intro s i hrun hbusy hfetch
  obtain ⟨hpoll, herase | hprogram⟩ := hrun.polls_of_busy hbusy
  · obtain ⟨-, rfl⟩ := fetch_wrErase herase hfetch
    exact stepInstr_poll hpoll _
  · obtain ⟨-, rfl⟩ := fetch_wrProgram hprogram hfetch
    exact stepInstr_poll hpoll _

end Sys2Proof.Machine
end

section
/-!
What a move of the block can do, said once (R23): a move that goes on is one of the moves below, each with what it tells
of the state it starts from.
-/
namespace Sys2Proof.Machine

/-- The moves of the block that go on, by control state. -/
inductive BlockMoves (s : State) : State → Prop
  | leavesReset : s.seq = .reset → BlockMoves s s.enterInit
  | initRaw {k : Nat} {p : List Byte} : s.seq = .init → s.micro = .issue k → s.cfg.initPrelude[k]? = some p →
      p ≠ [] → BlockMoves s ((s.afterRaw p).setMicro (.issue (k + 1)))
  | initReadId : s.seq = .init → BlockMoves s s.afterReadId.checkIdentity
  | halted : s.seq = .halt → BlockMoves s s
  | waits : s.reads = true → s.rxQ = [] → BlockMoves s s
  | ignores {b : Byte} {rest : List Byte} : s.seq = .waitCmd → s.rxQ = b :: rest → BlockMoves s (s.serialTake b)
  | opens {b : Byte} {rest : List Byte} : s.seq = .waitCmd → s.rxQ = b :: rest → isOpcode b = true →
      BlockMoves s ((s.serialTake b).openHeader b)
  | latches {b : Byte} {rest : List Byte} : s.seq = .hdr → s.rxQ = b :: rest →
      BlockMoves s ((s.serialTake b).latchHeader b).nextHeader
  | accepts {b : Byte} {rest : List Byte} : s.seq = .hdr → s.rxQ = b :: rest →
      s.reqAddr.toNat + (shiftIn s.reqLen b).toNat ≤ s.cfg.totalSize →
      BlockMoves s (((s.serialTake b).latchHeader b).loadCursor
        (if s.op = opReadFlash then opReadFlash else opWriteFlash) s.reqAddr (shiftIn s.reqLen b))
  | endsCommand : s.seq = .chunk → BlockMoves s s.endCommand
  | beginsChunk : s.seq = .chunk → s.rem ≠ 0 → BlockMoves s s.beginChunk
  | fillsNothing : s.seq = .rdFill → s.chunkLen = 0 → BlockMoves s s.beginDrain
  | fills : s.seq = .rdFill → s.chunkLen.toNat ≤ s.cfg.sectorSize →
      BlockMoves s (s.afterRead s.curAddr s.chunkLen).beginDrain
  | drains {b : Byte} : s.seq = .rdDrain → s.moreBytes = true → BlockMoves s ((s.serialWrite b).nextByte .rdDrain)
  | drainsLast {b : Byte} : s.seq = .rdDrain → BlockMoves s (s.serialWrite b).advanceCursor
  | sendsReady : s.seq = .wrReady → BlockMoves s (s.serialWrite readyByte).beginRecv
  | stores {b : Byte} {rest : List Byte} : s.seq = .wrRecv → s.rxQ = b :: rest → s.moreBytes = true →
      BlockMoves s (((s.serialTake b).storeByte b).nextByte .wrReady)
  | storesLast {b : Byte} {rest : List Byte} : s.seq = .wrRecv → s.rxQ = b :: rest →
      BlockMoves s ((s.serialTake b).storeByte b).beginErase
  | erasesNothing : s.seq = .wrErase → s.erasePending = false → BlockMoves s s.beginProgram
  | programsNothing : s.seq = .wrProgram → s.programPending = false → BlockMoves s s.advanceCursor
  | sendsPrelude {main : Instr} {done : State → State} {k : Nat} {p : List Byte} : Operates s main done →
      s.micro = .issue k → s.cfg.writePrelude[k]? = some p → p ≠ [] →
      BlockMoves s ((s.afterRaw p).setMicro (.issue (k + 1)))
  | sendsOwn {main : Instr} {done : State → State} {u : State} : Operates s main done →
      exec main s = .next u → BlockMoves s (u.setMicro .poll)
  | pollsBusy {main : Instr} {done : State → State} : Operates s main done → s.micro = .poll →
      BlockMoves s s.afterReadStatus
  | pollsReady {main : Instr} {done : State → State} : Operates s main done → s.afterReadStatus.flashBusy = false →
      BlockMoves s (done s.afterReadStatus)

variable {s t : State}

/-! ## The moves that run a transaction -/

/-- The first transactions of an operation are its prelude, the next is its own (R111, R117, R124). -/
theorem preludeOr_cases (p : List (List Byte)) (k : Nat) (main : Instr) :
    (∃ b, p[k]? = some b ∧ preludeOr p k main = .tRaw b) ∨ (p.length ≤ k ∧ preludeOr p k main = main) := by
  unfold preludeOr
  cases hp : p[k]? with
  | some b => exact .inl ⟨b, rfl, rfl⟩
  | none => exact .inr ⟨List.getElem?_eq_none_iff.1 hp, rfl⟩

theorem lt_length_of_getElem?_eq_some {α : Type} {l : List α} {k : Nat} {a : α} (h : l[k]? = some a) : k < l.length :=
  (List.getElem?_eq_some_iff.1 h).1

/-- The transaction of `S_INIT` is one of the prelude, or the identity read (R111). -/
theorem initInstr_cases (s : State) :
    (∃ k p, s.micro = .issue k ∧ s.cfg.initPrelude[k]? = some p ∧ s.initInstr = .tRaw p) ∨
      ((∀ k, s.micro = .issue k → s.cfg.initPrelude.length ≤ k) ∧ s.initInstr = .tReadId) := by
  cases hmicro : s.micro with
  | poll => exact .inr ⟨nofun, by simp only [State.initInstr, hmicro]⟩
  | issue k =>
    have hi : s.initInstr = preludeOr s.cfg.initPrelude k .tReadId := by simp only [State.initInstr, hmicro]
    obtain ⟨p, hp, hraw⟩ | ⟨hlast, hown⟩ := preludeOr_cases s.cfg.initPrelude k .tReadId
    · exact .inl ⟨k, p, rfl, hp, hi.trans hraw⟩
    · exact .inr ⟨by rintro _ ⟨⟩; exact hlast, hi.trans hown⟩

theorem afterInit_issue {k : Nat} (hmicro : s.micro = .issue k) (hk : k < s.cfg.initPrelude.length) :
    s.afterInit = s.setMicro (.issue (k + 1)) := by
  simp [State.afterInit, hmicro, hk]

theorem afterInit_last (hlast : ∀ k, s.micro = .issue k → s.cfg.initPrelude.length ≤ k) :
    s.afterInit = s.checkIdentity := by
  cases hmicro : s.micro with
  | poll => simp [State.afterInit, hmicro]
  | issue k => simp [State.afterInit, hmicro, Nat.not_lt.2 (hlast k hmicro)]

theorem blockMoves_of_init (hseq : s.seq = .init) (h : blockMove s = .next t) : BlockMoves s t := by
  rw [blockMove_init hseq] at h
  obtain ⟨u, hexec, h⟩ := andThen_next.1 h
  obtain rfl := next_eq.1 h
  obtain ⟨k, p, hmicro, hp, hi⟩ | ⟨hlast, hi⟩ := initInstr_cases s <;> rw [hi] at hexec
  · obtain ⟨-, hne, rfl⟩ := execTRaw_next.1 hexec
    rw [afterInit_issue (s := (s.spi (sent p)).setFlash (s.flash.raw p)) hmicro (lt_length_of_getElem?_eq_some hp)]
    exact .initRaw hseq hmicro hp hne
  · obtain ⟨-, rfl⟩ := execTReadId_next.1 hexec
    rw [afterInit_last (s := s.afterReadId) hlast]
    exact .initReadId hseq

/-- The transaction of a step is one of the write prelude, its own, or a poll (R117, R124, R126). -/
theorem stepInstr_cases (s : State) (main : Instr) :
    (∃ k p, s.micro = .issue k ∧ s.cfg.writePrelude[k]? = some p ∧ s.stepInstr main = .tRaw p) ∨
      (∃ k, s.micro = .issue k ∧ s.cfg.writePrelude.length ≤ k ∧ s.stepInstr main = main) ∨
      (s.micro = .poll ∧ s.stepInstr main = .tReadStatus) := by
  cases hmicro : s.micro with
  | poll => exact .inr (.inr ⟨rfl, by simp only [State.stepInstr, hmicro]⟩)
  | issue k =>
    have hi : s.stepInstr main = preludeOr s.cfg.writePrelude k main := by simp only [State.stepInstr, hmicro]
    obtain ⟨p, hp, hraw⟩ | ⟨hlast, hown⟩ := preludeOr_cases s.cfg.writePrelude k main
    · exact .inl ⟨k, p, rfl, hp, hi.trans hraw⟩
    · exact .inr (.inl ⟨k, rfl, hlast, hi.trans hown⟩)

theorem Operates.link_spi {main : Instr} {done : State → State} (h : Operates s main done) : main.link = .spi := by
  cases h with
  | erase => exact link_eraseInstr s
  | program => rfl

/-- A transaction of `erase_region` or `write_bytes` (R117, R124, R126). -/
theorem Operates.blockMoves {main : Instr} {done : State → State} (hop : Operates s main done)
    (h : Machine.blockMove s = .next t) : BlockMoves s t := by
  rw [hop.blockMove] at h
  obtain ⟨u, hexec, h⟩ := andThen_next.1 h
  obtain rfl := next_eq.1 h
  obtain ⟨k, p, hmicro, hp, hi⟩ | ⟨k, hmicro, hlast, hi⟩ | ⟨hmicro, hi⟩ := stepInstr_cases s main <;> rw [hi] at hexec
  · obtain ⟨-, hne, rfl⟩ := execTRaw_next.1 hexec
    rw [afterTransaction_issue (s := (s.spi (sent p)).setFlash (s.flash.raw p)) hmicro
      (lt_length_of_getElem?_eq_some hp)]
    exact .sendsPrelude hop hmicro hp hne
  · have hframe : SpiFrame s u := exec_spiFrame hop.link_spi hexec
    rw [afterTransaction_own (hframe.micro.trans hmicro) (hframe.cfg ▸ hlast)]
    exact .sendsOwn hop hexec
  · obtain ⟨-, rfl⟩ := execTReadStatus_next.1 hexec
    rw [afterTransaction_poll (s := s.afterReadStatus) hmicro]
    cases hbusy : s.afterReadStatus.flashBusy with
    | true => exact .pollsBusy hop hmicro
    | false => exact .pollsReady hop hbusy

/-! ## The moves of the serial link and of the staging buffer -/

theorem blockMoves_of_waitCmd (hseq : s.seq = .waitCmd) (h : blockMove s = .next t) : BlockMoves s t := by
  cases hq : s.rxQ with
  | nil =>
    rw [blockMove_waitCmd_nil hseq hq] at h
    obtain rfl := next_eq.1 h
    exact .waits (by simp [State.reads, hseq]) hq
  | cons b rest =>
    cases hb : isOpcode b with
    | false =>
      rw [blockMove_waitCmd_ignored hseq hq hb] at h
      exact next_eq.1 h ▸ .ignores hseq hq
    | true =>
      rw [blockMove_waitCmd_opcode hseq hq hb] at h
      exact next_eq.1 h ▸ .opens hseq hq hb

theorem blockMoves_of_hdr (hseq : s.seq = .hdr) (h : blockMove s = .next t) : BlockMoves s t := by
  cases hq : s.rxQ with
  | nil =>
    rw [blockMove_hdr_nil hseq hq] at h
    obtain rfl := next_eq.1 h
    exact .waits (by simp [State.reads, hseq]) hq
  | cons b rest =>
    by_cases hi : s.hdrIdx = 7
    · rw [blockMove_hdr_last hseq hq hi] at h
      obtain ⟨-, hfits, rfl⟩ := acceptRequest_next.1 h
      exact .accepts hseq hq (by simpa using hfits)
    · rw [blockMove_hdr_byte hseq hq hi] at h
      exact next_eq.1 h ▸ .latches hseq hq

theorem blockMoves_of_rdFill (hseq : s.seq = .rdFill) (h : blockMove s = .next t) : BlockMoves s t := by
  rw [blockMove_rdFill hseq] at h
  obtain ⟨u, hexec, h⟩ := andThen_next.1 h
  obtain rfl := next_eq.1 h
  obtain ⟨-, ⟨hnone, rfl⟩ | ⟨-, hsector, -, -, rfl⟩⟩ := execTRead_next.1 hexec
  · exact .fillsNothing hseq hnone
  · exact .fills hseq hsector

theorem blockMoves_of_rdDrain (hseq : s.seq = .rdDrain) (h : blockMove s = .next t) : BlockMoves s t := by
  rw [blockMove_rdDrain hseq, drainByte] at h
  split at h
  · cases h
  · split at h
    · next hmore => exact next_eq.1 h ▸ .drains hseq hmore
    · exact next_eq.1 h ▸ .drainsLast hseq

theorem blockMoves_of_wrRecv (hseq : s.seq = .wrRecv) (h : blockMove s = .next t) : BlockMoves s t := by
  cases hq : s.rxQ with
  | nil =>
    rw [blockMove_wrRecv_nil hseq hq] at h
    obtain rfl := next_eq.1 h
    exact .waits (by simp [State.reads, hseq]) hq
  | cons b rest =>
    rw [blockMove_wrRecv_byte hseq hq, recvByte] at h
    split at h
    · split at h
      · next hmore => exact next_eq.1 h ▸ .stores hseq hq hmore
      · exact next_eq.1 h ▸ .storesLast hseq hq
    · cases h

/-! ## Every move -/

theorem blockMove_cases (h : blockMove s = .next t) : BlockMoves s t := by
  cases hseq : s.seq with
  | reset =>
    rw [blockMove_reset hseq] at h
    exact next_eq.1 h ▸ .leavesReset hseq
  | init => exact blockMoves_of_init hseq h
  | halt =>
    rw [blockMove_halt hseq] at h
    obtain rfl := next_eq.1 h
    exact .halted hseq
  | waitCmd => exact blockMoves_of_waitCmd hseq h
  | hdr => exact blockMoves_of_hdr hseq h
  | chunk =>
    rw [blockMove_chunk hseq, State.decideChunk] at h
    obtain rfl := next_eq.1 h
    split
    · exact .endsCommand hseq
    · next hrem => exact .beginsChunk hseq hrem
  | rdFill => exact blockMoves_of_rdFill hseq h
  | rdDrain => exact blockMoves_of_rdDrain hseq h
  | wrReady =>
    rw [blockMove_wrReady hseq] at h
    obtain ⟨-, h⟩ := whenReady_next.1 h
    exact next_eq.1 h ▸ .sendsReady hseq
  | wrRecv => exact blockMoves_of_wrRecv hseq h
  | wrErase =>
    cases hpending : s.erasePending with
    | false =>
      rw [blockMove_wrErase_none hseq hpending] at h
      exact next_eq.1 h ▸ .erasesNothing hseq hpending
    | true =>
      cases hok : s.eraseRefused with
      | false => exact (Operates.erase hseq hpending hok).blockMoves h
      | true =>
        rw [blockMove_wrErase_refused hseq hpending hok] at h
        cases h
  | wrProgram =>
    cases hpending : s.programPending with
    | false =>
      rw [blockMove_wrProgram_none hseq hpending] at h
      exact next_eq.1 h ▸ .programsNothing hseq hpending
    | true => exact (Operates.program hseq hpending).blockMoves h

/-! ## What every move leaves alone -/

/-- The own transaction of a step works on the chip-select, the events and the chip only (R93, R94). -/
theorem Operates.exec_transacts {main : Instr} {done : State → State} {u : State} (hop : Operates s main done)
    (h : exec main s = .next u) : Transacts s u := by
  cases hop with
  | erase =>
    unfold State.eraseInstr at h
    split at h
    · obtain ⟨-, -, rfl⟩ := execTChipErase_next.1 h
      exact ⟨_, _, _, _, _, _, rfl⟩
    · obtain ⟨-, -, -, -, rfl⟩ := execTSectorErase_next.1 h
      exact ⟨_, _, _, _, _, _, rfl⟩
  | program =>
    obtain ⟨-, ⟨-, rfl⟩ | ⟨-, -, -, rfl⟩⟩ := execTProgram_next.1 h
    · exact .refl _
    · exact ⟨_, _, _, _, _, _, rfl⟩

theorem transacts_afterReadStatus (s : State) : Transacts s s.afterReadStatus := ⟨_, _, _, _, _, _, rfl⟩

/-- What a step of `erase_region` goes on with (R122). -/
theorem eraseStepDone_cases (t : State) :
    t.eraseStepDone = t.beginProgram ∨ (t.nextSector.erasePending = true ∧ t.eraseStepDone = t.nextSector) ∨
      t.eraseStepDone = t.nextSector.beginProgram := by
  unfold State.eraseStepDone
  split
  · exact .inl rfl
  · split
    · next h => exact .inr (.inl ⟨h, rfl⟩)
    · exact .inr (.inr rfl)

/-- What a step of `write_bytes` goes on with (R118, R149). -/
theorem programStepDone_cases (t : State) :
    (t.nextProgram.programPending = true ∧ t.programStepDone = t.nextProgram) ∨
      t.programStepDone = t.nextProgram.advanceCursor := by
  unfold State.programStepDone
  split
  · next h => exact .inl ⟨h, rfl⟩
  · exact .inr rfl

/-- The registers that no move of the block writes, and those that going on with a step does not write. -/
structure MoveFrame (s t : State) : Prop where
  cfg        : t.cfg = s.cfg
  turns      : t.turns = s.turns
  faultCause : t.faultCause = s.faultCause
  drv        : t.drv = s.drv
  cs         : t.cs = s.cs
  ledBusy    : t.ledBusy = s.ledBusy
  buf        : t.buf = s.buf
  rxQ        : t.rxQ = s.rxQ
  trace      : t.trace = s.trace
  flash      : t.flash = s.flash

theorem Operates.done_frame {main : Instr} {done : State → State} (h : Operates s main done) (t : State) :
    MoveFrame t (done t) := by
  cases h with
  | erase => obtain h | ⟨-, h⟩ | h := eraseStepDone_cases t <;> rw [h] <;> constructor <;> rfl
  | program => obtain ⟨-, h⟩ | h := programStepDone_cases t <;> rw [h] <;> constructor <;> rfl

/-- The end of the identity check writes `drv`, `seq` and the fault cause, and nothing else (R111, R190). -/
theorem checkIdentity_cases (t : State) :
    (identityOk t.cfg t.idMfr t.idDev = true ∧ t.checkIdentity = t.becomeReady) ∨
      (identityOk t.cfg t.idMfr t.idDev = false ∧ t.checkIdentity = t.raiseIdentityMismatch) := by
  unfold State.checkIdentity
  split
  · next h => exact .inl ⟨h, rfl⟩
  · next h => exact .inr ⟨by simpa using h, rfl⟩

theorem BlockMoves.cfg_turns (h : BlockMoves s t) : t.cfg = s.cfg ∧ t.turns = s.turns := by
  cases h with
  | initReadId => obtain ⟨-, h⟩ | ⟨-, h⟩ := checkIdentity_cases s.afterReadId <;> rw [h] <;> exact ⟨rfl, rfl⟩
  | sendsOwn hop hexec =>
    obtain ⟨_, _, _, _, _, _, rfl⟩ := hop.exec_transacts hexec
    exact ⟨rfl, rfl⟩
  | pollsReady hop => exact ⟨(hop.done_frame _).cfg, (hop.done_frame _).turns⟩
  | latches => simp
  | accepts => simp
  | _ => exact ⟨rfl, rfl⟩

end Sys2Proof.Machine
end

section
/-!
The control registers agree after every step (R22, R32, R90, R190), and what follows for `Ready` and `Faulted` (R21,
R195).
-/
namespace Sys2Proof.Machine
variable {s t : State}

/-- A transaction ends with the chip deselected (R90). -/
theorem exec_spi_cs {i : Instr} (hi : i.link = .spi) (h : exec i s = .next t) (hcs : s.cs = false) : t.cs = false := by
  cases i <;> cases hi
  case tRaw => obtain ⟨-, -, rfl⟩ := execTRaw_next.1 h; rfl
  case tReadId => obtain ⟨-, rfl⟩ := execTReadId_next.1 h; rfl
  case tReadStatus => obtain ⟨-, rfl⟩ := execTReadStatus_next.1 h; rfl
  case tRead => obtain ⟨-, ⟨-, rfl⟩ | ⟨-, -, -, -, rfl⟩⟩ := execTRead_next.1 h <;> first | exact hcs | rfl
  case tProgram => obtain ⟨-, ⟨-, rfl⟩ | ⟨-, -, -, rfl⟩⟩ := execTProgram_next.1 h <;> first | exact hcs | rfl
  case tSectorErase => obtain ⟨-, -, -, -, rfl⟩ := execTSectorErase_next.1 h; rfl
  case tChipErase => obtain ⟨-, -, rfl⟩ := execTChipErase_next.1 h; rfl

/-- No move of the block leaves the chip selected. -/
theorem BlockMoves.cs (h : BlockMoves s t) (hcs : s.cs = false) : t.cs = false := by
  cases h with
  | initReadId => obtain ⟨-, h⟩ | ⟨-, h⟩ := checkIdentity_cases s.afterReadId <;> rw [h] <;> rfl
  | sendsOwn hop hexec => exact (exec_spi_cs hop.link_spi hexec hcs :)
  | pollsReady hop => exact (hop.done_frame _).cs
  | latches => simpa using hcs
  | accepts => simpa using hcs
  | initRaw | fills | sendsPrelude | pollsBusy => rfl
  | _ => exact hcs

/-- The control states in which the driver is ready (R22). -/
theorem Seq.drvOf_eq_ready_of_inCommand {q : Seq} (h : q.inCommand = true) : q.drvOf = .ready := by
  cases q <;> first | rfl | cases h

/-- A move between control states of the same driver state, the fault cause untouched. -/
theorem ControlInv.moves (hc : ControlInv s) (hdrv : t.drv = s.drv) (hcause : t.faultCause = s.faultCause)
    (hcs : t.cs = false) (hseq : t.seq.drvOf = s.seq.drvOf) (hled : t.ledBusy = t.seq.inCommand) : ControlInv t where
  drv_eq := by rw [hdrv, hseq, hc.drv_eq]
  cause_iff := by rw [hcause, hdrv]; exact hc.cause_iff
  led_eq := hled
  cs_low := hcs

/-- A move inside a command. -/
theorem ControlInv.moves_in_command (hc : ControlInv s) (hdrv : t.drv = s.drv) (hcause : t.faultCause = s.faultCause)
    (hcs : t.cs = false) (hled : t.ledBusy = s.ledBusy) (hs : s.seq.inCommand = true) (ht : t.seq.inCommand = true) :
    ControlInv t :=
  hc.moves hdrv hcause hcs
    ((Seq.drvOf_eq_ready_of_inCommand ht).trans (Seq.drvOf_eq_ready_of_inCommand hs).symm)
    (hled.trans (hc.led_eq.trans (hs.trans ht.symm)))

/-- A move that changes none of the control registers. -/
theorem ControlInv.congr (hc : ControlInv s) (hdrv : t.drv = s.drv) (hseq : t.seq = s.seq)
    (hcause : t.faultCause = s.faultCause) (hled : t.ledBusy = s.ledBusy) (hcs : t.cs = false) : ControlInv t :=
  hc.moves hdrv hcause hcs (congrArg _ hseq) (by rw [hled, hc.led_eq, hseq])

/-- Before the identity is read the fault has not been taken (R111, R190). -/
theorem ControlInv.cause_none (hc : ControlInv s) (h : s.seq.drvOf ≠ .faulted) : s.faultCause ≠ .identityMismatch :=
  fun hcause => h (hc.drv_eq.symm.trans (hc.cause_iff.1 hcause))

theorem ControlInv.checkIdentity (hc : ControlInv s) (hseq : s.seq = .init) :
    ControlInv s.afterReadId.checkIdentity := by
  have hnone := hc.cause_none (by rw [hseq]; decide)
  have hled : s.ledBusy = false := by rw [hc.led_eq, hseq]; rfl
  obtain ⟨-, h⟩ | ⟨-, h⟩ := checkIdentity_cases s.afterReadId <;> rw [h]
  · exact ⟨rfl, iff_of_false hnone (by simp), hled, rfl⟩
  · exact ⟨rfl, iff_of_true rfl rfl, hled, rfl⟩

theorem Operates.inCommand {main : Instr} {done : State → State} (h : Operates s main done) :
    s.seq.inCommand = true := by
  cases h with
  | erase hseq => rw [hseq]; rfl
  | program hseq => rw [hseq]; rfl

theorem Operates.done_inCommand {main : Instr} {done : State → State} (h : Operates s main done)
    (ht : t.seq.inCommand = true) : (done t).seq.inCommand = true := by
  cases h with
  | erase => obtain h | ⟨-, h⟩ | h := eraseStepDone_cases t <;> rw [h] <;> first | rfl | exact ht
  | program => obtain ⟨-, h⟩ | h := programStepDone_cases t <;> rw [h] <;> first | rfl | exact ht

/-- The block keeps the control registers in agreement. -/
theorem BlockMoves.control (h : BlockMoves s t) (hc : ControlInv s) : ControlInv t := by
  have hcs := h.cs hc.cs_low
  cases h with
  | leavesReset hseq =>
    have hled : s.ledBusy = false := by rw [hc.led_eq, hseq]; rfl
    exact ⟨rfl, iff_of_false (hc.cause_none (by rw [hseq]; decide)) (by simp), hled, hcs⟩
  | initReadId hseq => exact hc.checkIdentity hseq
  | halted | waits => exact hc
  | initRaw | ignores | sendsPrelude | pollsBusy => exact hc.congr rfl rfl rfl rfl hcs
  | opens hseq => exact hc.moves rfl rfl hcs (by rw [hseq]; rfl) rfl
  | latches => exact hc.congr (by simp) (by simp) (by simp) (by simp) hcs
  | accepts hseq => exact hc.moves (by simp) (by simp) hcs (by rw [hseq]; rfl) rfl
  | endsCommand hseq => exact hc.moves rfl rfl hcs (by rw [hseq]; rfl) rfl
  | beginsChunk hseq =>
    exact hc.moves_in_command rfl rfl hcs rfl (by rw [hseq]; rfl) (by rw [State.beginChunk_seq]; split <;> rfl)
  | fillsNothing hseq | fills hseq | drains hseq | drainsLast hseq | sendsReady hseq | stores hseq | storesLast hseq
  | erasesNothing hseq | programsNothing hseq =>
    exact hc.moves_in_command rfl rfl hcs rfl (by rw [hseq]; rfl) rfl
  | sendsOwn hop hexec =>
    obtain ⟨_, _, _, _, _, _, rfl⟩ := hop.exec_transacts hexec
    exact hc.congr rfl rfl rfl rfl hcs
  | pollsReady hop =>
    have hframe := hop.done_frame s.afterReadStatus
    exact hc.moves_in_command hframe.drv hframe.faultCause hcs hframe.ledBusy hop.inCommand
      (hop.done_inCommand hop.inCommand)

/-- A hardware reset leaves them in agreement, whatever they were (R45, R220). -/
theorem control_hardReset (s : State) : ControlInv s.hardReset := ⟨rfl, by simp, rfl, rfl⟩

theorem control_cutShort (s : State) (k : Nat) (i : Instr) (u : State) : ControlInv (s.cutShort k i u) :=
  ⟨rfl, by simp, rfl, rfl⟩

theorem HostFrame.control (h : HostFrame s t) (hc : ControlInv s) : ControlInv t := by
  obtain ⟨⟨_, _, rfl⟩, -⟩ := h
  exact ⟨hc.drv_eq, hc.cause_iff, hc.led_eq, hc.cs_low⟩

/-- The schedule is no control register. -/
theorem ControlInv.takeTurn (hc : ControlInv s) : ControlInv s.takeTurn :=
  ⟨hc.drv_eq, hc.cause_iff, hc.led_eq, hc.cs_low⟩

/-- Settles O51, by the agents whose move a step can be: the block, the host, the chip, none, or a reset. -/
theorem stepKeepsControlInv : Obligations.StepKeepsControlInv := by
  intro s t hc hstep
  obtain ⟨-, ⟨-, hblock⟩ | ⟨-, hhost⟩ | ⟨-, rfl⟩ | ⟨rfl, -⟩ | ⟨-, rfl | ⟨k, hcut⟩⟩⟩ := step_cases hstep
  · exact (blockMove_cases hblock).control hc.takeTurn
  · exact (hostMove_frame hhost).control hc.takeTurn
  · exact ⟨hc.drv_eq, hc.cause_iff, hc.led_eq, hc.cs_low⟩
  · exact hc
  · exact control_hardReset _
  · obtain ⟨i, u, -, -, -, -, rfl⟩ | rfl := cutMove_next hcut
    · exact control_cutShort ..
    · exact control_hardReset _

/-! ## Ready and Faulted -/

/-- Only leaving `S_RESET` and the end of the identity check write `drv` (R111, R221). -/
theorem BlockMoves.drv (h : BlockMoves s t) : t.drv = s.drv ∨ s.seq = .reset ∨ s.seq = .init := by
  cases h with
  | leavesReset hseq => exact .inr (.inl hseq)
  | initRaw hseq | initReadId hseq => exact .inr (.inr hseq)
  | latches | accepts => exact .inl (by simp)
  | sendsOwn hop hexec =>
    obtain ⟨_, _, _, _, _, _, rfl⟩ := hop.exec_transacts hexec
    exact .inl rfl
  | pollsReady hop => exact .inl (hop.done_frame _).drv
  | _ => exact .inl rfl

/-- A step short of a reset keeps `drv`, but in `S_RESET` and `S_INIT`. -/
theorem step_drv (h : step s = .next t) (hreset : ¬s.resetNow) : t.drv = s.drv ∨ s.seq = .reset ∨ s.seq = .init := by
  obtain ⟨-, ⟨-, hblock⟩ | ⟨-, hhost⟩ | ⟨-, rfl⟩ | ⟨rfl, -⟩ | ⟨hnow, -⟩⟩ := step_cases h
  · exact (blockMove_cases hblock).drv
  · obtain ⟨⟨_, _, rfl⟩, -⟩ := hostMove_frame hhost
    exact .inl rfl
  · exact .inl rfl
  · exact .inl rfl
  · exact absurd hnow hreset

/-- Settles O10: where the control registers agree, `drv` is neither `Ready` nor `Faulted` in the two control states
that write it. -/
theorem readyAndFaultedAreLeftOnlyByReset : Obligations.ReadyAndFaultedAreLeftOnlyByReset := by
  intro s t hc hreset hstep
  obtain hdrv | hseq | hseq := step_drv hstep hreset
  · rw [hdrv]
    exact ⟨id, id⟩
  · have hun : s.drv = .uninitialized := by rw [hc.drv_eq, hseq]; rfl
    simp [hun]
  · have hver : s.drv = .verifying := by rw [hc.drv_eq, hseq]; rfl
    simp [hver]

end Sys2Proof.Machine
end

section
/-!
The chip's content and the staging buffer in every step (R30, R50), and which steps touch the chip at all (R6, R110).
-/
namespace Sys2Proof.Machine
variable {s t : State} {c : Config} {f : Flash}

/-! ## The chip's part of the memory invariant -/

/-- Content canonical and inside the chip, an operation in progress at work inside it (R50). -/
structure Flash.InChip (c : Config) (f : Flash) : Prop where
  mem_wf : f.mem.wf = true
  mem_in : f.mem.below c.totalSize = true
  op_in  : f.wip = true → f.opBase + f.opLen ≤ c.totalSize

theorem MemoryInv.inChip (h : MemoryInv s) : s.flash.InChip s.cfg := ⟨h.mem_wf, h.mem_in, h.op_in⟩

theorem Flash.InChip.memory (h : s.flash.InChip s.cfg) (hok : s.cfg.ok = true)
    (hbuf : s.buf.length = s.cfg.sectorSize) : MemoryInv s := ⟨hok, h.mem_wf, h.mem_in, h.op_in, hbuf⟩

/-- The chip keeps its content, its identity and the bytes it is at work on, and begins no operation. -/
structure Flash.Keeps (f g : Flash) : Prop where
  mem     : g.mem = f.mem
  chipMfr : g.chipMfr = f.chipMfr
  chipDev : g.chipDev = f.chipDev
  opBase  : g.opBase = f.opBase
  opLen   : g.opLen = f.opLen
  wip     : g.wip = true → f.wip = true

theorem Flash.keeps_refl (f : Flash) : f.Keeps f := ⟨rfl, rfl, rfl, rfl, rfl, id⟩

theorem Flash.Keeps.trans {g k : Flash} (h : f.Keeps g) (hg : g.Keeps k) : f.Keeps k :=
  ⟨hg.mem.trans h.mem, hg.chipMfr.trans h.chipMfr, hg.chipDev.trans h.chipDev, hg.opBase.trans h.opBase,
    hg.opLen.trans h.opLen, h.wip ∘ hg.wip⟩

theorem Flash.keeps_raw (f : Flash) (b : List Byte) : f.Keeps (f.raw b) := ⟨rfl, rfl, rfl, rfl, rfl, id⟩

theorem Flash.keeps_endRaw (f : Flash) : f.Keeps f.endRaw := ⟨rfl, rfl, rfl, rfl, rfl, id⟩

theorem Flash.keeps_finish (f : Flash) : f.Keeps f.finish := ⟨rfl, rfl, rfl, rfl, rfl, nofun⟩

theorem Flash.keeps_poll (f : Flash) : f.Keeps f.poll where
  mem := f.poll_mem
  chipMfr := f.poll_chipMfr
  chipDev := f.poll_chipDev
  opBase := f.poll_opBase
  opLen := f.poll_opLen
  wip hwip := by
    rw [Flash.poll_wip, Bool.and_eq_true] at hwip
    exact hwip.1

theorem Flash.Keeps.inChip {g : Flash} (h : f.Keeps g) (hf : f.InChip c) : g.InChip c where
  mem_wf := h.mem ▸ hf.mem_wf
  mem_in := h.mem ▸ hf.mem_in
  op_in hwip := by rw [h.opBase, h.opLen]; exact hf.op_in (h.wip hwip)

theorem Flash.InChip.modify (h : f.InChip c) {m : Memory} {base len : Nat} (hwf : m.wf = true)
    (hin : m.below c.totalSize = true) (hop : base + len ≤ c.totalSize) : (f.modify c m base len).InChip c := by
  obtain ⟨-, h'⟩ | ⟨-, h'⟩ := Flash.modify_cases c f m base len <;> rw [h']
  · exact ⟨hwf, hin, fun _ => hop⟩
  · exact f.keeps_endRaw.inChip h

theorem Flash.InChip.program (h : f.InChip c) (hok : c.ok = true) {a : Nat} (ha : a < c.totalSize) (d : List Byte) :
    (f.program c a d).InChip c :=
  h.modify (Memory.wf_program c a d h.mem_wf) (Memory.below_programFrom c (Config.ok_pages hok) ha d 0 h.mem_in)
    (page_end_le (progPage_pos c) (Config.ok_pages hok) ha)

theorem Flash.InChip.sectorErase (h : f.InChip c) {a : Nat} (ha : a + c.sectorSize ≤ c.totalSize) :
    (f.sectorErase c a).InChip c :=
  h.modify (Memory.wf_erase _ _ h.mem_wf) (Memory.below_erase _ _ h.mem_in) ha

theorem Flash.InChip.chipErase (h : f.InChip c) : (f.chipErase c).InChip c :=
  h.modify rfl rfl (Nat.zero_add _).le

theorem Flash.InChip.torn (h : f.InChip c) (d : Nat) : (f.torn d).InChip c := by
  unfold Flash.torn
  split
  · next hwip =>
    exact ⟨(Memory.read_tear d f.opBase 0 h.mem_wf f.opLen).1,
      Memory.below_tear d f.opBase h.mem_in f.opLen (h.op_in hwip),
      h.op_in⟩
  · exact h

/-- A transaction that is no program and no erase: raw, identity, status or read. -/
abbrev Instr.SparesContent (i : Instr) : Prop :=
  (∃ b, i = .tRaw b) ∨ i = .tReadId ∨ i = .tReadStatus ∨ ∃ a n, i = .tRead a n

theorem Flash.keeps_exec {i : Instr} (hi : Instr.SparesContent i) (h : exec i s = .next t) : s.flash.Keeps t.flash := by
  obtain ⟨b, rfl⟩ | rfl | rfl | ⟨a, n, rfl⟩ := hi
  · obtain ⟨-, -, rfl⟩ := execTRaw_next.1 h
    exact Flash.keeps_raw ..
  · obtain ⟨-, rfl⟩ := execTReadId_next.1 h
    exact Flash.keeps_endRaw _
  · obtain ⟨-, rfl⟩ := execTReadStatus_next.1 h
    exact Flash.keeps_poll _
  · obtain ⟨-, ⟨-, rfl⟩ | ⟨-, -, -, -, rfl⟩⟩ := execTRead_next.1 h
    · exact Flash.keeps_refl _
    · exact Flash.keeps_endRaw _

/-- The SPI link carries these, programs and erases. -/
theorem Instr.spi_cases {i : Instr} (hi : i.link = .spi) :
    Instr.SparesContent i ∨ (∃ a d, i = .tProgram a d) ∨ (∃ a, i = .tSectorErase a) ∨ i = .tChipErase := by
  cases i <;> simp_all [Instr.link, Instr.SparesContent]

/-- Every transaction keeps the chip's content canonical and inside it. -/
theorem Flash.InChip.exec_spi {i : Instr} (hf : s.flash.InChip s.cfg) (hok : s.cfg.ok = true) (hi : i.link = .spi)
    (h : exec i s = .next t) : t.flash.InChip s.cfg := by
  obtain hspares | ⟨a, d, rfl⟩ | ⟨a, rfl⟩ | rfl := Instr.spi_cases hi
  · exact (Flash.keeps_exec hspares h).inChip hf
  · obtain ⟨-, ⟨-, rfl⟩ | ⟨-, ha, -, rfl⟩⟩ := execTProgram_next.1 h
    · exact hf
    · exact hf.program hok ha _
  · obtain ⟨-, -, ha, -, rfl⟩ := execTSectorErase_next.1 h
    exact hf.sectorErase ha
  · obtain ⟨-, -, rfl⟩ := execTChipErase_next.1 h
    exact hf.chipErase

theorem Flash.modify_identity (c : Config) (f : Flash) (m : Memory) (base len : Nat) :
    (f.modify c m base len).chipMfr = f.chipMfr ∧ (f.modify c m base len).chipDev = f.chipDev := by
  obtain ⟨-, h⟩ | ⟨-, h⟩ := Flash.modify_cases c f m base len <;> rw [h] <;> exact ⟨rfl, rfl⟩

/-- No transaction changes what the chip reports as its identity (R61). -/
theorem exec_spi_identity {i : Instr} (hi : i.link = .spi) (h : exec i s = .next t) :
    t.flash.chipMfr = s.flash.chipMfr ∧ t.flash.chipDev = s.flash.chipDev := by
  obtain hspares | ⟨a, d, rfl⟩ | ⟨a, rfl⟩ | rfl := Instr.spi_cases hi
  · exact ⟨(Flash.keeps_exec hspares h).chipMfr, (Flash.keeps_exec hspares h).chipDev⟩
  · obtain ⟨-, ⟨-, rfl⟩ | ⟨-, -, -, rfl⟩⟩ := execTProgram_next.1 h
    · exact ⟨rfl, rfl⟩
    · exact Flash.modify_identity ..
  · obtain ⟨-, -, -, -, rfl⟩ := execTSectorErase_next.1 h
    exact Flash.modify_identity ..
  · obtain ⟨-, -, rfl⟩ := execTChipErase_next.1 h
    exact Flash.modify_identity ..

/-! ## What a move of the block does to the chip and to the staging buffer -/

/-- The chip keeps what it holds, but for the own transactions of the two write operations. -/
theorem BlockMoves.flash (h : BlockMoves s t) : s.flash.Keeps t.flash ∨
    ∃ main done u, Operates s main done ∧ exec main s = .next u ∧ t.flash = u.flash := by
  cases h with
  | initRaw | sendsPrelude => exact .inl (Flash.keeps_raw _ _)
  | initReadId =>
    obtain ⟨-, h⟩ | ⟨-, h⟩ := checkIdentity_cases s.afterReadId <;> rw [h] <;> exact .inl (Flash.keeps_endRaw _)
  | fills => exact .inl (Flash.keeps_endRaw _)
  | pollsBusy => exact .inl (Flash.keeps_poll _)
  | pollsReady hop => exact .inl (by rw [(hop.done_frame _).flash]; exact Flash.keeps_poll _)
  | sendsOwn hop hexec => exact .inr ⟨_, _, _, hop, hexec, rfl⟩
  | latches | accepts => exact .inl (by simpa using Flash.keeps_refl _)
  | _ => exact .inl (Flash.keeps_refl _)

theorem BlockMoves.length_buf (h : BlockMoves s t) (hbuf : s.buf.length = s.cfg.sectorSize) :
    t.buf.length = s.buf.length := by
  cases h with
  | initReadId => obtain ⟨-, h⟩ | ⟨-, h⟩ := checkIdentity_cases s.afterReadId <;> rw [h] <;> rfl
  | fills _ hsector =>
    simp only [State.beginDrain_buf, State.afterRead, State.fillBuf_buf, List.length_append, List.length_drop,
      Memory.length_slice, State.setFlash_buf, State.spi_buf]
    omega
  | stores | storesLast => exact List.length_set
  | sendsOwn hop hexec =>
    obtain ⟨_, _, _, _, _, _, rfl⟩ := hop.exec_transacts hexec
    rfl
  | pollsReady hop => exact congrArg _ (hop.done_frame _).buf
  | latches | accepts => simp
  | _ => rfl

/-! ## The memory invariant -/

theorem BlockMoves.memory (h : BlockMoves s t) (hm : MemoryInv s) : MemoryInv t := by
  have hcfg := h.cfg_turns.1
  have hchip : t.flash.InChip s.cfg := by
    obtain hkeeps | ⟨main, done, u, hop, hexec, hflash⟩ := h.flash
    · exact hkeeps.inChip hm.inChip
    · exact hflash ▸ hm.inChip.exec_spi hm.cfg_ok hop.link_spi hexec
  exact Flash.InChip.memory (hcfg ▸ hchip) (hcfg ▸ hm.cfg_ok) (by rw [h.length_buf hm.buf_len, hcfg, hm.buf_len])

/-- A hardware reset leaves a fresh staging buffer, and tears bytes of the chip only (R220, R223). -/
theorem MemoryInv.hardReset (hm : MemoryInv s) : MemoryInv s.hardReset :=
  Flash.InChip.memory (s := s.hardReset) (hm.inChip.torn _) hm.cfg_ok List.length_replicate

theorem MemoryInv.cutShort {i : Instr} {u : State} (hm : MemoryInv s) (k : Nat) (hi : i.link = .spi)
    (h : exec i s = .next u) : MemoryInv (s.cutShort k i u) := by
  have hcfg := (exec_spiFrame hi h).cfg
  have hu : u.flash.InChip u.cfg := hcfg ▸ hm.inChip.exec_spi hm.cfg_ok hi h
  have hchip : (s.cutShort k i u).flash.InChip u.cfg := by
    by_cases hraw : ∃ b, i = .tRaw b
    · obtain ⟨b, rfl⟩ := hraw
      exact cutShort_raw ▸ Flash.InChip.torn (hcfg ▸ (Flash.keeps_raw _ _).inChip hm.inChip) _
    · rw [cutShort_flash (fun b hb => hraw ⟨b, hb⟩)]
      split
      · exact hu.torn _
      · exact (Flash.keeps_finish _).inChip (hu.torn _)
  exact Flash.InChip.memory (s := s.cutShort k i u) hchip (hcfg ▸ hm.cfg_ok) List.length_replicate

theorem HostFrame.memory (h : HostFrame s t) (hm : MemoryInv s) : MemoryInv t := by
  obtain ⟨⟨_, _, rfl⟩, -⟩ := h
  exact ⟨hm.cfg_ok, hm.mem_wf, hm.mem_in, hm.op_in, hm.buf_len⟩

theorem MemoryInv.takeTurn (hm : MemoryInv s) : MemoryInv s.takeTurn :=
  ⟨hm.cfg_ok, hm.mem_wf, hm.mem_in, hm.op_in, hm.buf_len⟩

theorem MemoryInv.finish (hm : MemoryInv s) : MemoryInv (s.setFlash s.flash.finish) :=
  Flash.InChip.memory ((Flash.keeps_finish _).inChip hm.inChip) hm.cfg_ok hm.buf_len

/-- Settles O52, by the agents whose move a step can be: the block, the host, the chip, none, or a reset. -/
theorem stepKeepsMemoryInv : Obligations.StepKeepsMemoryInv := by
  intro s t hm hstep
  obtain ⟨-, ⟨-, hblock⟩ | ⟨-, hhost⟩ | ⟨-, rfl⟩ | ⟨rfl, -⟩ | ⟨-, rfl | ⟨k, hcut⟩⟩⟩ := step_cases hstep
  · exact (blockMove_cases hblock).memory hm.takeTurn
  · exact (hostMove_frame hhost).memory hm.takeTurn
  · exact hm.takeTurn.finish
  · exact hm
  · exact hm.takeTurn.hardReset
  · obtain ⟨i, u, -, hi, -, hexec, rfl⟩ | rfl := cutMove_next hcut
    · exact hm.takeTurn.cutShort k hi hexec
    · exact hm.takeTurn.hardReset

/-! ## Which steps change the content (R6, R110, R155) -/

theorem Flash.torn_identity (f : Flash) (d : Nat) :
    (f.torn d).chipMfr = f.chipMfr ∧ (f.torn d).chipDev = f.chipDev := by
  unfold Flash.torn; split <;> exact ⟨rfl, rfl⟩

theorem cutShort_identity {i : Instr} {u : State} (k : Nat) (hi : i.link = .spi) (h : exec i s = .next u) :
    (s.cutShort k i u).flash.chipMfr = s.flash.chipMfr ∧ (s.cutShort k i u).flash.chipDev = s.flash.chipDev := by
  obtain ⟨hmfr, hdev⟩ := exec_spi_identity hi h
  by_cases hraw : ∃ b, i = .tRaw b
  · obtain ⟨b, rfl⟩ := hraw
    exact cutShort_raw ▸ Flash.torn_identity ..
  · have htorn := Flash.torn_identity u.flash u.noise
    rw [cutShort_flash (fun b hb => hraw ⟨b, hb⟩)]
    split <;> exact ⟨htorn.1.trans hmfr, htorn.2.trans hdev⟩

/-- Over an idle chip, cutting a transaction that is no program and no erase changes nothing of the content. -/
theorem cutShort_spares {i : Instr} {u : State} (k : Nat) (hi : Instr.SparesContent i) (h : exec i s = .next u)
    (hidle : s.flash.wip = false) :
    (s.cutShort k i u).flash.mem = s.flash.mem ∧ (s.cutShort k i u).flash.wip = false := by
  by_cases hraw : ∃ b, i = .tRaw b
  · obtain ⟨b, rfl⟩ := hraw
    rw [cutShort_raw, Flash.torn_idle (f := s.flash.raw (b.take k)) hidle]
    exact ⟨rfl, hidle⟩
  · have hne : ∀ b, i ≠ .tRaw b := fun b hb => hraw ⟨b, hb⟩
    have hkeeps := Flash.keeps_exec hi h
    have hu : u.flash.wip = false := Bool.eq_false_of_not_eq_true fun hwip => by simp [hkeeps.wip hwip] at hidle
    rw [cutShort_mem hne, cutShort_wip hne, Flash.torn_idle hu, hu]
    exact ⟨hkeeps.mem, rfl⟩

/-- Outside the two write operations the transaction fetched is no program and no erase. -/
theorem fetch_sparesContent {i : Instr} (hf : s.fetch = some i) (hi : i.link = .spi) :
    Instr.SparesContent i ∨ s.seq = .wrErase ∨ s.seq = .wrProgram := by
  unfold State.fetch at hf
  cases hseq : s.seq <;> rw [hseq] at hf <;> simp only at hf
  case init =>
    obtain rfl := Option.some.inj hf
    obtain ⟨k, p, -, -, h⟩ | ⟨-, h⟩ := initInstr_cases s <;> rw [h]
    · exact .inl (.inl ⟨p, rfl⟩)
    · exact .inl (.inr (.inl rfl))
  case rdFill => exact .inl (.inr (.inr (.inr ⟨_, _, (Option.some.inj hf).symm⟩)))
  case wrErase => exact .inr (.inl rfl)
  case wrProgram => exact .inr (.inr rfl)
  case wrReady => obtain rfl := Option.some.inj hf; cases hi
  case waitCmd =>
    split at hf
    · cases hf
    · split at hf <;> cases hf; cases hi
  case hdr =>
    split at hf
    · cases hf
    · split at hf
      · obtain rfl := Option.some.inj hf
        unfold commandOf at hi
        split at hi <;> cases hi
      · cases hf
  all_goals cases hf

theorem hardReset_mem_of_idle (hidle : s.flash.wip = false) : s.hardReset.flash.mem = s.flash.mem :=
  congrArg Flash.mem (Flash.torn_idle hidle)

/-- A move of the block changes content only with a transaction of a write operation. -/
theorem BlockMoves.mem (h : BlockMoves s t) (hmem : t.flash.mem ≠ s.flash.mem) :
    s.seq = .wrErase ∨ s.seq = .wrProgram := by
  obtain hkeeps | ⟨main, done, u, hop, -, -⟩ := h.flash
  · exact absurd hkeeps.mem hmem
  · cases hop with
    | erase hseq => exact .inl hseq
    | program hseq => exact .inr hseq

theorem BlockMoves.identity (h : BlockMoves s t) :
    t.flash.chipMfr = s.flash.chipMfr ∧ t.flash.chipDev = s.flash.chipDev := by
  obtain hkeeps | ⟨main, done, u, hop, hexec, hflash⟩ := h.flash
  · exact ⟨hkeeps.chipMfr, hkeeps.chipDev⟩
  · exact hflash ▸ exec_spi_identity hop.link_spi hexec

/-- What a hardware reset, between two transactions or inside one, does to the chip. -/
theorem reset_flash (h : t = s.hardReset ∨ ∃ k, cutMove k s = .next t) :
    t.cfg = s.cfg ∧ t.flash.chipMfr = s.flash.chipMfr ∧ t.flash.chipDev = s.flash.chipDev ∧
      (t.flash.mem ≠ s.flash.mem → s.seq = .wrErase ∨ s.seq = .wrProgram ∨ s.flash.wip = true) := by
  have hplain : s.hardReset.flash.mem ≠ s.flash.mem → s.seq = .wrErase ∨ s.seq = .wrProgram ∨ s.flash.wip = true :=
    fun hmem => .inr (.inr (Bool.eq_true_of_not_eq_false fun hidle => hmem (hardReset_mem_of_idle hidle)))
  obtain rfl | ⟨k, hcut⟩ := h
  · exact ⟨rfl, (Flash.torn_identity ..).1, (Flash.torn_identity ..).2, hplain⟩
  obtain ⟨i, u, hf, hi, -, hexec, rfl⟩ | rfl := cutMove_next hcut
  · obtain ⟨hmfr, hdev⟩ := cutShort_identity k hi hexec
    refine ⟨(exec_spiFrame hi hexec).cfg, hmfr, hdev, fun hmem => ?_⟩
    obtain hspares | hseq | hseq := fetch_sparesContent hf hi
    · exact .inr (.inr (Bool.eq_true_of_not_eq_false fun hidle => hmem (cutShort_spares k hspares hexec hidle).1))
    · exact .inl hseq
    · exact .inr (.inl hseq)
  · exact ⟨rfl, (Flash.torn_identity ..).1, (Flash.torn_identity ..).2, hplain⟩

/-- Settles O57, by the agents whose move a step can be. -/
theorem flashContentChangesOnlyWhileWriting : Obligations.FlashContentChangesOnlyWhileWriting := by
  intro s t hstep
  obtain ⟨-, ⟨-, hblock⟩ | ⟨-, hhost⟩ | ⟨-, rfl⟩ | ⟨rfl, -⟩ | ⟨hnow, hreset⟩⟩ := step_cases hstep
  · have hmove := blockMove_cases hblock
    obtain ⟨hmfr, hdev⟩ := hmove.identity
    exact ⟨hmove.cfg_turns.1, hmfr, hdev, fun hmem => (hmove.mem hmem).imp_right .inl⟩
  · obtain ⟨⟨_, _, rfl⟩, -⟩ := hostMove_frame hhost
    exact ⟨rfl, rfl, rfl, fun hmem => absurd rfl hmem⟩
  · exact ⟨rfl, rfl, rfl, fun hmem => absurd rfl hmem⟩
  · exact ⟨rfl, rfl, rfl, fun hmem => absurd rfl hmem⟩
  · obtain ⟨hcfg, hmfr, hdev, hmem⟩ := reset_flash hreset
    exact ⟨hcfg, hmfr, hdev, fun hne => (hmem hne).imp_right (Or.imp_right (⟨hnow, ·⟩))⟩

end Sys2Proof.Machine
end

section
/-!
The run invariant (R22 to R31, R67, R146, R152): it holds at power-on, and every step without a reset keeps it.
-/
namespace Sys2Proof.Machine
variable {s t : State}

/-! ## The opcode of the control state (R24) -/

theorem isOpcode_iff {b : Byte} : isOpcode b = true ↔ b = opReadFlash ∨ b = opWriteFlash := by
  simp [isOpcode]

theorem Operates.opOk {main : Instr} {done : State → State} (hop : Operates s main done) (h : s.opOk) :
    s.op = opWriteFlash := by
  cases hop with
  | erase hseq => simpa only [State.opOk, hseq] using h
  | program hseq => simpa only [State.opOk, hseq] using h

/-- A state with the opcode 0x20 in any control state of a `WRITE_FLASH`. -/
theorem opOk_of_write (hop : t.op = opWriteFlash) (hread : t.seq ≠ .rdFill ∧ t.seq ≠ .rdDrain) : t.opOk := by
  unfold State.opOk
  cases hseq : t.seq <;> simp_all [isOpcode]

theorem Operates.done_op {main : Instr} {done : State → State} (hop : Operates s main done) (ht : t.seq = s.seq) :
    (done t).op = t.op ∧ (done t).seq ≠ .rdFill ∧ (done t).seq ≠ .rdDrain := by
  cases hop with
  | erase hseq =>
    obtain h | ⟨-, h⟩ | h := eraseStepDone_cases t <;> rw [h]
    · exact ⟨rfl, nofun, nofun⟩
    · exact ⟨rfl, by simp [ht, hseq], by simp [ht, hseq]⟩
    · exact ⟨rfl, nofun, nofun⟩
  | program hseq =>
    obtain ⟨-, h⟩ | h := programStepDone_cases t <;> rw [h]
    · exact ⟨rfl, by simp [ht, hseq], by simp [ht, hseq]⟩
    · exact ⟨rfl, nofun, nofun⟩

theorem Operates.not_read {main : Instr} {done : State → State} (hop : Operates s main done) :
    s.seq ≠ .rdFill ∧ s.seq ≠ .rdDrain := by
  cases hop with
  | erase hseq => simp [hseq]
  | program hseq => simp [hseq]

theorem BlockMoves.opOk (h : BlockMoves s t) (hop : s.opOk) : t.opOk := by
  cases h with
  | halted | waits => exact hop
  | leavesReset | initRaw hseq | ignores hseq => simp_all [State.opOk, State.afterRaw]
  | initReadId => obtain ⟨-, h⟩ | ⟨-, h⟩ := checkIdentity_cases s.afterReadId <;> rw [h] <;> trivial
  | opens _ _ hb => exact hb
  | latches hseq => simpa [State.opOk, hseq] using hop
  | accepts => exact isOpcode_iff.2 (ite_eq_or_eq ..)
  | endsCommand => trivial
  | beginsChunk hseq =>
    simp only [State.opOk, hseq] at hop
    by_cases hread : s.op = opReadFlash
    · simp [State.opOk, hread]
    · have hwrite := (isOpcode_iff.1 hop).resolve_left hread
      exact opOk_of_write hwrite (by simp [hread])
  | fillsNothing hseq | fills hseq | drains hseq =>
    simp only [State.opOk, hseq] at hop
    exact hop
  | drainsLast hseq =>
    simp only [State.opOk, hseq] at hop
    exact isOpcode_iff.2 (.inl hop)
  | sendsReady hseq | stores hseq | storesLast hseq | erasesNothing hseq | programsNothing hseq =>
    simp only [State.opOk, hseq] at hop
    exact opOk_of_write hop ⟨nofun, nofun⟩
  | sendsPrelude hop' | pollsBusy hop' => exact opOk_of_write (hop'.opOk hop) hop'.not_read
  | sendsOwn hop' hexec =>
    obtain ⟨_, _, _, _, _, _, rfl⟩ := hop'.exec_transacts hexec
    exact opOk_of_write (hop'.opOk hop) hop'.not_read
  | pollsReady hop' =>
    have hdone := hop'.done_op (t := s.afterReadStatus) rfl
    exact opOk_of_write (hdone.1.trans (hop'.opOk hop)) hdone.2

/-! ## What each control state assumes of the data registers -/

/-- A chunk begins: it is not empty, at most a sector, part of what is left (R145). -/
theorem chunkIn_beginChunk (hok : s.cfg.ok = true) (hcursor : s.cursorIn) (hrem : s.rem ≠ 0) : s.beginChunk.chunkIn := by
  have hpos : s.rem.toNat ≠ 0 := fun h => hrem (BitVec.eq_of_toNat_eq h)
  have hsector := (Config.ok_geometry hok).1
  have hmin := Nat.min_le_left s.rem.toNat s.cfg.sectorSize
  have hlen : s.beginChunk.chunkLen.toNat = min s.rem.toNat s.cfg.sectorSize :=
    Nat.mod_eq_of_lt (lt_of_le_of_lt hmin s.rem.isLt)
  refine ⟨hcursor, ?_, ?_, ?_⟩ <;> rw [hlen]
  · omega
  · exact Nat.min_le_right ..
  · exact hmin

/-- The cursor advances inside the request (R149). -/
theorem cursorIn_advanceCursor (hok : s.cfg.ok = true) (hchunk : s.chunkIn) : s.advanceCursor.cursorIn := by
  obtain ⟨hcursor, -, -, hrem⟩ := hchunk
  have htotal := (Config.ok_sizes hok).1
  unfold State.cursorIn at hcursor ⊢
  have hcur : s.advanceCursor.curAddr.toNat = s.curAddr.toNat + s.chunkLen.toNat :=
    BitVec.toNat_add_of_lt (by omega)
  have hleft : s.advanceCursor.rem.toNat = s.rem.toNat - s.chunkLen.toNat :=
    BitVec.toNat_sub_of_le (BitVec.le_def.2 hrem)
  rw [hcur, hleft, State.advanceCursor_cfg]
  omega

/-- The operands of the `erase_region` call of a chunk (R152): the chunk's covering sectors, inside the chip. -/
theorem erasing_of_chunkIn (hok : s.cfg.ok = true) (hchunk : s.chunkIn) :
    Erasing s.beginErase (s.coverFirst * s.cfg.sectorSize) s.coverCount :=
  have h := erasing_beginErase (v := { s with drv := .ready, turns := [] }) ⟨hok, rfl, rfl⟩ hchunk
  ⟨rfl, rfl, h.erAddr_eq, h.count_eq, h.aligned, h.fits⟩

theorem eraseIn_beginErase (hok : s.cfg.ok = true) (hchunk : s.chunkIn) : s.beginErase.eraseIn := by
  have herasing := erasing_of_chunkIn hok hchunk
  have hcount := (coverCount_le hchunk).1
  have hsome : s.beginErase.erCount.toNat ≠ 0 := by rw [herasing.count_eq]; omega
  refine ⟨herasing.erAddr_eq, herasing.count_eq, erasePending_iff.2 ⟨hsome, ?_⟩⟩
  cases hwhole : eraseWholeChip s.beginErase.cfg s.beginErase.erAddr s.beginErase.erCount with
  | true => exact .inl rfl
  | false =>
    have hfirst : s.beginErase.erIdx = 0 := if_neg (by simpa using hwhole)
    exact .inr (hfirst ▸ Nat.pos_of_ne_zero hsome)

theorem dataIn_beginErase (hok : s.cfg.ok = true) (hidle : s.flash.wip = false) (hchunk : s.chunkIn) :
    s.beginErase.dataIn :=
  ⟨.inr hidle, hchunk, Nat.zero_le _, eraseIn_beginErase hok hchunk⟩

/-- A call of `write_bytes` begins with all of the chunk pending (R118, R153). -/
theorem dataIn_beginProgram (hidle : s.flash.wip = false) (hchunk : s.chunkIn) : s.beginProgram.dataIn :=
  ⟨.inr hidle, hchunk, Nat.zero_le _, rfl, hchunk.2.1, fun _ => Nat.zero_mod _⟩

section Operates
variable {main : Instr} {done : State → State} (hop : Operates s main done) (hd : s.dataIn)
include hop hd

theorem Operates.chunkIn : s.chunkIn := by
  cases hop with
  | erase hseq =>
    simp only [State.dataIn, hseq] at hd
    exact hd.2.1
  | program hseq =>
    simp only [State.dataIn, hseq] at hd
    exact hd.2.1

theorem Operates.busyOnlyPolling : s.busyOnlyPolling := by
  cases hop with
  | erase hseq =>
    simp only [State.dataIn, hseq] at hd
    exact hd.1
  | program hseq =>
    simp only [State.dataIn, hseq] at hd
    exact hd.1

/-- Within a step only the position in it, and whether the chip is busy, are at stake. -/
theorem Operates.dataIn (ht : Transacts s t) (hbusy : t.busyOnlyPolling) (hmicro : t.micro.within t.cfg.writePrelude) :
    t.dataIn := by
  obtain ⟨_, _, _, _, _, _, rfl⟩ := ht
  cases hop with
  | erase hseq =>
    simp only [State.dataIn, hseq] at hd ⊢
    exact ⟨hbusy, hd.2.1, hmicro, hd.2.2.2⟩
  | program hseq =>
    simp only [State.dataIn, hseq] at hd ⊢
    exact ⟨hbusy, hd.2.1, hmicro, hd.2.2.2⟩

/-- A step is done with the chip idle: the next sector or the program, the next bytes or the next chunk. -/
theorem Operates.dataIn_done (ht : Transacts s t) (hok : s.cfg.ok = true) (hbuf : s.buf.length = s.cfg.sectorSize)
    (hidle : t.flash.wip = false) : (done t).dataIn := by
  have hchunk := hop.chunkIn hd
  have htchunk : t.chunkIn := by obtain ⟨_, _, _, _, _, _, rfl⟩ := ht; exact hchunk
  cases hop with
  | erase hseq =>
    obtain h | ⟨hpending, h⟩ | h := eraseStepDone_cases t <;> rw [h]
    · exact dataIn_beginProgram hidle htchunk
    · obtain ⟨_, _, _, _, _, _, rfl⟩ := ht
      simp only [State.dataIn, hseq, State.nextSector_seq] at hd ⊢
      obtain ⟨-, -, -, haddr, hcount, -⟩ := hd
      exact ⟨.inr hidle, hchunk, Nat.zero_le _, haddr, hcount, hpending⟩
    · exact dataIn_beginProgram (s := t.nextSector) hidle htchunk
  | program hseq =>
    simp only [State.dataIn, hseq] at hd
    obtain ⟨-, -, -, hin⟩ := hd
    obtain ⟨hpending, h⟩ | h := programStepDone_cases t <;> rw [h]
    · have hprog : Programming { s with micro := .issue 0 } := ⟨hseq, rfl, hchunk, hin, hbuf⟩
      have hfrom : Transacts { s with micro := .issue 0 } t := by
        obtain ⟨_, _, _, _, _, _, rfl⟩ := ht
        exact ⟨_, _, _, _, _, _, rfl⟩
      have hlen : t.chunkLen = s.chunkLen := by obtain ⟨_, _, _, _, _, _, rfl⟩ := ht; rfl
      have hoff := toNat_wrOff_nextProgram hin ht
      have hmore : s.wrOff.toNat + s.programLen < s.chunkLen.toNat := by
        have hlt : t.nextProgram.wrOff.toNat < t.nextProgram.chunkLen.toNat := of_decide_eq_true hpending
        rwa [hoff, State.nextProgram_chunkLen, hlen] at hlt
      have hnext := hprog.nextProgram hfrom hmore
      have hnextSeq := hnext.seq_eq
      simp only [State.dataIn, hnextSeq]
      exact ⟨.inr hidle, hnext.chunk, Nat.zero_le _, hnext.call⟩
    · have htok : t.cfg.ok = true := by obtain ⟨_, _, _, _, _, _, rfl⟩ := ht; exact hok
      exact ⟨hidle, cursorIn_advanceCursor (s := t.nextProgram) htok htchunk⟩

end Operates

/-- The block keeps what its control states assume. -/
theorem BlockMoves.dataIn (h : BlockMoves s t) (hm : MemoryInv s) (hd : s.dataIn) : t.dataIn := by
  have hok := hm.cfg_ok
  cases h with
  | halted | waits => exact hd
  | leavesReset hseq =>
    simp only [State.dataIn, hseq] at hd
    exact ⟨hd, Nat.zero_le _⟩
  | initRaw hseq _ hp =>
    simp only [State.dataIn, hseq] at hd
    have hwithin : (Micro.issue _).within s.cfg.initPrelude := lt_length_of_getElem?_eq_some hp
    simpa [State.dataIn, State.afterRaw, hseq, hd.1] using hwithin
  | initReadId hseq =>
    simp only [State.dataIn, hseq] at hd
    obtain ⟨-, h⟩ | ⟨-, h⟩ := checkIdentity_cases s.afterReadId <;> rw [h] <;> exact hd.1
  | ignores hseq =>
    simp only [State.dataIn, hseq, State.serialTake_seq] at hd ⊢
    exact hd
  | opens hseq | endsCommand hseq =>
    simp only [State.dataIn, hseq] at hd
    first | exact hd | exact hd.1
  | latches hseq =>
    simpa [State.dataIn, hseq] using hd
  | accepts hseq _ hfits =>
    simp only [State.dataIn, hseq] at hd
    exact ⟨by simpa using hd, by simpa [State.cursorIn] using hfits⟩
  | beginsChunk hseq hrem =>
    simp only [State.dataIn, hseq] at hd
    have hchunk := chunkIn_beginChunk hok hd.2 hrem
    by_cases hread : s.op = opReadFlash
    · have hnext : s.beginChunk.seq = .rdFill := by simp [hread]
      simp only [State.dataIn, hnext]
      exact ⟨hd.1, hchunk⟩
    · have hnext : s.beginChunk.seq = .wrReady := by simp [hread]
      have hidx : s.beginChunk.bufIdx = 0 := by simp [hread]
      simp only [State.dataIn, hnext, hidx]
      exact ⟨hd.1, hchunk, hchunk.2.1⟩
  | fillsNothing hseq | fills hseq =>
    simp only [State.dataIn, hseq] at hd
    exact ⟨hd.1, hd.2, hd.2.2.1⟩
  | drains hseq hmore | stores hseq _ hmore =>
    simp only [State.dataIn, hseq] at hd
    have hmore := of_decide_eq_true hmore
    exact ⟨hd.1, hd.2.1, (toNat_add_one_of_lt hd.2.2).trans_lt hmore⟩
  | drainsLast hseq =>
    simp only [State.dataIn, hseq] at hd
    exact ⟨hd.1, cursorIn_advanceCursor (s := s.serialWrite _) hok hd.2.1⟩
  | sendsReady hseq =>
    simp only [State.dataIn, hseq] at hd
    exact hd
  | storesLast hseq =>
    simp only [State.dataIn, hseq] at hd
    exact dataIn_beginErase (s := (s.serialTake _).storeByte _) hok hd.1 hd.2.1
  | erasesNothing hseq hpending =>
    simp only [State.dataIn, hseq] at hd
    obtain ⟨-, -, -, -, -, hsome⟩ := hd
    simp [hpending] at hsome
  | programsNothing hseq hpending =>
    simp only [State.dataIn, hseq] at hd
    obtain ⟨-, -, -, -, hsome, -⟩ := hd
    exact absurd hsome (of_decide_eq_false hpending)
  | sendsPrelude hop' hmicro hp =>
    have hpolling : s.busyOnlyPolling := hop'.busyOnlyPolling hd
    have hidle : s.flash.wip = false := hpolling.resolve_left (by rw [hmicro]; nofun)
    exact hop'.dataIn hd ⟨_, _, _, _, _, _, rfl⟩ (.inr hidle) (lt_length_of_getElem?_eq_some hp)
  | sendsOwn hop' hexec =>
    exact hop'.dataIn hd ((hop'.exec_transacts hexec).trans ⟨_, _, _, _, _, _, rfl⟩) (.inl rfl) trivial
  | pollsBusy hop' hmicro =>
    exact hop'.dataIn hd (transacts_afterReadStatus s) (.inl hmicro) (by
      show s.micro.within _
      rw [hmicro]
      trivial)
  | pollsReady hop' hbusy =>
    exact hop'.dataIn_done hd (transacts_afterReadStatus s) hok hm.buf_len
      ((flashBusy_afterReadStatus hok).symm.trans hbusy)

/-! ## The whole invariant -/

theorem BlockMoves.run (h : BlockMoves s t) (hr : RunInv s) : RunInv t where
  control := h.control hr.control
  memory := h.memory hr.memory
  op_ok := h.opOk hr.op_ok
  data_in := h.dataIn hr.memory hr.data_in

theorem RunInv.takeTurn (h : RunInv s) : RunInv s.takeTurn := ⟨h.control.takeTurn, h.memory.takeTurn, h.op_ok, h.data_in⟩

theorem HostFrame.run (h : HostFrame s t) (hr : RunInv s) : RunInv t := by
  have hcontrol := h.control hr.control
  have hmemory := h.memory hr.memory
  obtain ⟨⟨_, _, rfl⟩, -⟩ := h
  exact ⟨hcontrol, hmemory, hr.op_ok, hr.data_in⟩

/-- No control state assumes a busy chip (R59, R235). -/
theorem dataIn_finish (h : s.dataIn) : (s.setFlash s.flash.finish).dataIn := by
  unfold State.dataIn at h ⊢
  simp only [State.setFlash_seq]
  cases hseq : s.seq <;> rw [hseq] at h <;> simp only at h ⊢
  case wrErase => exact ⟨.inr rfl, h.2⟩
  case wrProgram => exact ⟨.inr rfl, h.2⟩
  case init => exact ⟨rfl, h.2⟩
  case chunk => exact ⟨rfl, h.2⟩
  case rdFill => exact ⟨rfl, h.2⟩
  case rdDrain => exact ⟨rfl, h.2⟩
  case wrReady => exact ⟨rfl, h.2⟩
  case wrRecv => exact ⟨rfl, h.2⟩
  all_goals rfl

theorem RunInv.finish (h : RunInv s) : RunInv (s.setFlash s.flash.finish) :=
  ⟨⟨h.control.drv_eq, h.control.cause_iff, h.control.led_eq, h.control.cs_low⟩, h.memory.finish, h.op_ok,
    dataIn_finish h.data_in⟩

theorem noReset_of_turns (h : t.turns = s.turns) (hs : s.noReset) : t.noReset := fun u hu => hs u (h ▸ hu)

/-- Settles O53: a step without a reset is a move of the block, the host or the chip, or none. -/
theorem stepKeepsRunInv : Obligations.StepKeepsRunInv := by
  intro s t hr hno hstep
  obtain ⟨hnow, hno'⟩ := noReset_step hno
  obtain ⟨-, ⟨-, hblock⟩ | ⟨-, hhost⟩ | ⟨-, rfl⟩ | ⟨rfl, -⟩ | ⟨hreset, -⟩⟩ := step_cases hstep
  · have hmove := blockMove_cases hblock
    exact ⟨hmove.run hr.takeTurn, noReset_of_turns hmove.cfg_turns.2 hno'⟩
  · have hframe := hostMove_frame hhost
    refine ⟨hframe.run hr.takeTurn, ?_⟩
    obtain ⟨⟨_, _, rfl⟩, -⟩ := hframe
    exact hno'
  · exact ⟨hr.takeTurn.finish, hno'⟩
  · exact ⟨hr, hno⟩
  · exact absurd hreset hnow

/-- At power-on the block is in `S_RESET`, which assumes an idle chip and no more. -/
theorem run_atReset {c : Config} (hok : c.ok = true) : RunInv (State.atReset c) where
  control := ⟨rfl, by simp [State.atReset], rfl, rfl⟩
  memory := ⟨hok, rfl, rfl, nofun, List.length_replicate⟩
  op_ok := trivial
  data_in := rfl

theorem resetConfig_ok : resetConfig.ok = true := by decide

/-- Settles O54: the reset state of the machine is that of an admitted configuration. -/
theorem resetMeetsTheInvariants : Obligations.ResetMeetsTheInvariants :=
  have hreset : RunInv State.reset := run_atReset resetConfig_ok
  ⟨fun _ hok => ⟨run_atReset hok, nofun⟩, hreset.control, hreset.memory, hreset⟩

end Sys2Proof.Machine
end

section
/-!
What every move of the block shows on its links: serial bytes are taken in three control states only (R160, R231), and no
serial or indicator event lies inside a transaction (R66, R71, R90). Where the block stops (R146), and that it is silent
in `S_HALT` (R194).
-/
namespace Sys2Proof.Machine
variable {s t : State}

/-! ## Serial bytes -/

theorem mem_trace_led {e : Event} (h : e ∈ s.trace) (v : Bool) : e ∈ (s.led v).trace := by
  rw [State.led_trace]
  split
  · exact h
  · exact List.mem_append_left _ h

theorem rx_mem_serialTake (s : State) (b : Byte) : Event.rx b ∈ (s.serialTake b).trace :=
  List.mem_append_right _ List.mem_cons_self

/-- A move leaves `rx_q` alone, or takes its oldest byte in one of the three reading states and records it. -/
theorem BlockMoves.rxQ (h : BlockMoves s t) : t.rxQ = s.rxQ ∨
    (s.seq = .waitCmd ∨ s.seq = .hdr ∨ s.seq = .wrRecv) ∧ ∃ b, s.rxQ = b :: t.rxQ ∧ Event.rx b ∈ t.trace := by
  cases h with
  | @ignores b rest hseq hq => exact .inr ⟨.inl hseq, b, by simp [hq], rx_mem_serialTake s b⟩
  | @opens b rest hseq hq => exact .inr ⟨.inl hseq, b, by simp [hq], mem_trace_led (rx_mem_serialTake s b) true⟩
  | @latches b rest hseq hq => exact .inr ⟨.inr (.inl hseq), b, by simp [hq], by simp⟩
  | @accepts b rest hseq hq =>
    have hrx : Event.rx b ∈ ((s.serialTake b).latchHeader b).trace := by simp
    exact .inr ⟨.inr (.inl hseq), b, by simp [hq], mem_trace_led hrx true⟩
  | @stores b rest hseq hq | @storesLast b rest hseq hq =>
    exact .inr ⟨.inr (.inr hseq), b, by simp [hq], rx_mem_serialTake s b⟩
  | initReadId => obtain ⟨-, h⟩ | ⟨-, h⟩ := checkIdentity_cases s.afterReadId <;> rw [h] <;> exact .inl rfl
  | sendsOwn hop hexec => exact .inl (exec_spiFrame hop.link_spi hexec).rxQ
  | pollsReady hop => exact .inl (hop.done_frame _).rxQ
  | _ => exact .inl rfl

/-- Settles O56. -/
theorem serialBytesAreTakenOnlyInThreeStates : Obligations.SerialBytesAreTakenOnlyInThreeStates :=
  fun _ _ h hne => (blockMove_cases h).rxQ.resolve_left hne

/-! ## Events -/

/-- An event of the serial link or of the indicator. -/
abbrev Event.OffSpi (e : Event) : Prop := (∃ b, e = .rx b) ∨ (∃ b, e = .tx b) ∨ ∃ v, e = .led v

/-- The events of one transaction: chip-select, one or more exchanges, chip-select (R90). -/
abbrev IsTransaction (es : List Event) : Prop :=
  ∃ xs, es = .cs true :: xs ++ [.cs false] ∧ xs ≠ [] ∧ ∀ e, e ∈ xs → ∃ m r, e = .xfer m r

theorem mem_sent {bs : List Byte} {e : Event} (h : e ∈ sent bs) : ∃ m r, e = .xfer m r := by
  obtain ⟨b, -, rfl⟩ := List.mem_map.1 h
  exact ⟨_, _, rfl⟩

theorem mem_kept {c : Config} {bs : List Byte} {e : Event} (h : e ∈ kept c bs) : ∃ m r, e = .xfer m r := by
  obtain ⟨b, -, rfl⟩ := List.mem_map.1 h
  exact ⟨_, _, rfl⟩

/-- The events of one move of the block. -/
def OneLink (s t : State) : Prop := ∃ es, Appends s t es ∧ ((∀ e, e ∈ es → Event.OffSpi e) ∨ IsTransaction es)

theorem OneLink.of_trace {u : State} (h : OneLink s u) (ht : t.trace = u.trace) : OneLink s t := by
  obtain ⟨es, hes, hone⟩ := h
  exact ⟨es, ht.trans hes, hone⟩

theorem oneLink_of_same (h : t.trace = s.trace) : OneLink s t := ⟨[], h.trans (List.append_nil _).symm, .inl nofun⟩

theorem oneLink_of_events {es : List Event} (h : t.trace = s.trace ++ es) (hes : ∀ e, e ∈ es → Event.OffSpi e) :
    OneLink s t := ⟨es, h, .inl hes⟩

/-- Bytes driven, then bytes kept: one transaction, if there is a byte. -/
theorem oneLink_of_transaction {c : Config} {bs rs : List Byte} (hne : bs ≠ [])
    (h : t.trace = s.trace ++ (.cs true :: (sent bs ++ kept c rs) ++ [.cs false])) : OneLink s t :=
  ⟨_, h, .inr ⟨_, rfl, by simp [sent, hne], fun _ he => (List.mem_append.1 he).elim mem_sent mem_kept⟩⟩

theorem oneLink_of_sent {bs : List Byte} (hne : bs ≠ [])
    (h : t.trace = s.trace ++ (.cs true :: sent bs ++ [.cs false])) : OneLink s t :=
  ⟨_, h, .inr ⟨_, rfl, by simp [sent, hne], fun _ => mem_sent⟩⟩

/-- The events of an instruction of the SPI link: one transaction, or none where there is no byte to carry (R90, R114,
R120). -/
theorem exec_spi_oneLink {i : Instr} (hi : i.link = .spi) (h : exec i s = .next t) : OneLink s t := by
  cases i <;> cases hi
  case tRaw => obtain ⟨-, hne, rfl⟩ := execTRaw_next.1 h; exact oneLink_of_sent hne rfl
  case tReadId => obtain ⟨-, rfl⟩ := execTReadId_next.1 h; exact oneLink_of_transaction (by simp) rfl
  case tReadStatus => obtain ⟨-, rfl⟩ := execTReadStatus_next.1 h; exact oneLink_of_transaction (by simp) rfl
  case tRead =>
    obtain ⟨-, ⟨-, rfl⟩ | ⟨-, -, -, -, rfl⟩⟩ := execTRead_next.1 h
    · exact oneLink_of_same rfl
    · exact oneLink_of_transaction (List.cons_ne_nil _ _) rfl
  case tProgram =>
    obtain ⟨-, ⟨-, rfl⟩ | ⟨-, -, -, rfl⟩⟩ := execTProgram_next.1 h
    · exact oneLink_of_same rfl
    · exact oneLink_of_sent (List.cons_ne_nil _ _) rfl
  case tSectorErase =>
    obtain ⟨-, -, -, -, rfl⟩ := execTSectorErase_next.1 h
    exact oneLink_of_sent (List.cons_ne_nil _ _) rfl
  case tChipErase => obtain ⟨-, -, rfl⟩ := execTChipErase_next.1 h; exact oneLink_of_sent (List.cons_ne_nil _ _) rfl

/-- The indicator's event, if its level changes (R14). -/
theorem oneLink_led {u : State} {es : List Event} (v : Bool) (h : u.trace = s.trace ++ es)
    (hes : ∀ e, e ∈ es → Event.OffSpi e) : OneLink s (u.led v) := by
  by_cases hv : u.ledBusy = v
  · exact oneLink_of_events (by rw [State.led_trace, if_pos hv, h]) hes
  · refine oneLink_of_events (es := es ++ [.led v]) (by rw [State.led_trace, if_neg hv, h, List.append_assoc]) ?_
    intro e he
    obtain he | he := List.mem_append.1 he
    · exact hes e he
    · exact .inr (.inr ⟨v, List.mem_singleton.1 he⟩)

theorem offSpi_rx (b : Byte) : ∀ e, e ∈ [Event.rx b] → Event.OffSpi e :=
  fun _ he => .inl ⟨b, List.mem_singleton.1 he⟩

theorem offSpi_tx (b : Byte) : ∀ e, e ∈ [Event.tx b] → Event.OffSpi e :=
  fun _ he => .inr (.inl ⟨b, List.mem_singleton.1 he⟩)

theorem BlockMoves.oneLink (h : BlockMoves s t) : OneLink s t := by
  cases h with
  | initRaw _ _ _ hne | sendsPrelude _ _ _ hne => exact oneLink_of_sent hne rfl
  | initReadId =>
    have hread : OneLink s s.afterReadId := oneLink_of_transaction (List.cons_ne_nil _ _) rfl
    obtain ⟨-, h⟩ | ⟨-, h⟩ := checkIdentity_cases s.afterReadId <;> rw [h] <;> exact hread
  | sendsOwn hop hexec => exact (exec_spi_oneLink hop.link_spi hexec).of_trace rfl
  | pollsBusy => exact oneLink_of_transaction (List.cons_ne_nil _ _) rfl
  | pollsReady hop =>
    have hread : OneLink s s.afterReadStatus := oneLink_of_transaction (List.cons_ne_nil _ _) rfl
    exact hread.of_trace (hop.done_frame _).trace
  | fills => exact oneLink_of_transaction (List.cons_ne_nil _ _) rfl
  | ignores | stores | storesLast => exact oneLink_of_events rfl (offSpi_rx _)
  | @latches b => exact oneLink_of_events (es := [.rx b]) (by simp) (offSpi_rx b)
  | drains | drainsLast | sendsReady => exact oneLink_of_events rfl (offSpi_tx _)
  | opens => exact (oneLink_led true rfl (offSpi_rx _)).of_trace rfl
  | @accepts b =>
    exact (oneLink_led true (u := (s.serialTake b).latchHeader b) (by simp) (offSpi_rx b)).of_trace rfl
  | endsCommand => exact (oneLink_led false (List.append_nil _).symm nofun).of_trace rfl
  | _ => exact oneLink_of_same rfl

/-- Settles O58. -/
theorem oneLinkAtATime : Obligations.OneLinkAtATime := fun _ _ h => (blockMove_cases h).oneLink

/-! ## The block goes on -/

theorem andThen_goes_on {o : Outcome} (h : ∃ u, o = .next u) (f : State → State) :
    ∃ t, andThen o (fun u => .next (f u)) = .next t := by
  obtain ⟨u, rfl⟩ := h
  exact ⟨f u, rfl⟩

theorem exec_raw_goes_on {p : List Byte} (hdrv : s.drv ≠ .faulted) (hp : p ≠ []) : ∃ u, exec (.tRaw p) s = .next u :=
  ⟨_, execTRaw_next.2 ⟨hdrv, hp, rfl⟩⟩

theorem eraseRegion_of_not_refused (hseq : s.seq = .wrErase) (hpending : s.erasePending = true)
    (h : s.eraseRefused = false) : s.erAddr.toNat % s.cfg.sectorSize = 0 ∧
      s.erAddr.toNat + s.erCount.toNat * s.cfg.sectorSize ≤ s.cfg.totalSize := by
  simpa [State.eraseRefused, hseq, hpending, eraseRegionOk] using h

/-- Sector `er_idx` of the region is aligned and lies in the chip (R121, R122). -/
theorem toNat_sectorAddr (hok : s.cfg.ok = true) (hidx : s.erIdx.toNat < s.erCount.toNat)
    (hend : s.erAddr.toNat + s.erCount.toNat * s.cfg.sectorSize ≤ s.cfg.totalSize) :
    s.erAddr.toNat + s.erIdx.toNat * s.cfg.sectorSize + s.cfg.sectorSize ≤ s.cfg.totalSize ∧
      (BitVec.ofNat 32 (s.erAddr.toNat + s.erIdx.toNat * s.cfg.sectorSize)).toNat =
        s.erAddr.toNat + s.erIdx.toNat * s.cfg.sectorSize := by
  have hsector := (Config.ok_geometry hok).1
  have htotal := (Config.ok_sizes hok).1
  have hnext : s.erIdx.toNat * s.cfg.sectorSize + s.cfg.sectorSize ≤ s.erCount.toNat * s.cfg.sectorSize := by
    rw [← Nat.succ_mul]
    exact Nat.mul_le_mul_right _ hidx
  exact ⟨by omega, Nat.mod_eq_of_lt (by omega)⟩

/-- The erase of a pending sector, or of the chip, is run by an idle chip (R122, R124). -/
theorem exec_eraseInstr_goes_on (hok : s.cfg.ok = true) (hdrv : s.drv = .ready) (hidle : s.flash.wip = false)
    (hseq : s.seq = .wrErase) (hpending : s.erasePending = true) (hregion : s.eraseRefused = false) :
    ∃ u, exec s.eraseInstr s = .next u := by
  cases hwhole : eraseWholeChip s.cfg s.erAddr s.erCount with
  | true =>
    rw [State.eraseInstr, if_pos hwhole]
    exact ⟨_, execTChipErase_next.2 ⟨hdrv, hidle, rfl⟩⟩
  | false =>
    have hidx : s.erIdx.toNat < s.erCount.toNat := by simpa [hwhole] using (erasePending_iff.1 hpending).2
    obtain ⟨haligned, hend⟩ := eraseRegion_of_not_refused hseq hpending hregion
    obtain ⟨hfits, haddr⟩ := toNat_sectorAddr hok hidx hend
    have hsector := (Config.ok_geometry hok).1
    have hspi := spiAddr_of_lt hok (a := BitVec.ofNat 32 (s.erAddr.toNat + s.erIdx.toNat * s.cfg.sectorSize))
      (by rw [haddr]; omega)
    rw [State.eraseInstr, if_neg (by simp [hwhole])]
    refine ⟨_, execTSectorErase_next.2 ⟨hdrv, ?_, ?_, hidle, rfl⟩⟩ <;> rw [hspi, haddr]
    · rw [Nat.add_mul_mod_self_right, haligned]
    · exact hfits

/-- The program of the next bytes is run by an idle chip (R118). -/
theorem exec_programInstr_goes_on (hok : s.cfg.ok = true) (hdrv : s.drv = .ready) (hidle : s.flash.wip = false)
    (haddr : s.programAddr.toNat < s.cfg.totalSize) : ∃ u, exec s.programInstr s = .next u := by
  by_cases hdata : s.programData = []
  · exact ⟨s, execTProgram_next.2 ⟨hdrv, .inl ⟨hdata, rfl⟩⟩⟩
  · exact ⟨_, execTProgram_next.2 ⟨hdrv, .inr ⟨hdata, by rwa [spiAddr_of_lt hok haddr], hidle, rfl⟩⟩⟩

/-- A step of `erase_region` or `write_bytes` goes on if its own transaction does. -/
theorem Operates.goes_on {main : Instr} {done : State → State} (hop : Operates s main done) (hok : s.cfg.ok = true)
    (hdrv : s.drv = .ready) (hmain : s.micro ≠ .poll → ∃ u, exec main s = .next u) :
    ∃ t, Machine.blockMove s = .next t := by
  rw [hop.blockMove]
  refine andThen_goes_on ?_ _
  obtain ⟨k, p, -, hp, hi⟩ | ⟨k, hmicro, -, hi⟩ | ⟨-, hi⟩ := stepInstr_cases s main <;> rw [hi]
  · exact exec_raw_goes_on (by simp [hdrv]) ((Config.ok_preludes hok).2 p (List.mem_of_getElem? hp))
  · exact hmain (by simp [hmicro])
  · exact ⟨_, execTReadStatus_next.2 ⟨hdrv, rfl⟩⟩

theorem init_goes_on (hok : s.cfg.ok = true) (hseq : s.seq = .init) (hdrv : s.drv ≠ .faulted) :
    ∃ t, blockMove s = .next t := by
  rw [blockMove_init hseq]
  refine andThen_goes_on ?_ _
  obtain ⟨k, p, -, hp, hi⟩ | ⟨-, hi⟩ := initInstr_cases s <;> rw [hi]
  · exact exec_raw_goes_on hdrv ((Config.ok_preludes hok).1 p (List.mem_of_getElem? hp))
  · exact ⟨_, execTReadId_next.2 ⟨hdrv, rfl⟩⟩

theorem acceptRequest_refuses (hdrv : s.drv = .ready) {a n : Word} (h : s.cfg.totalSize < a.toNat + n.toNat) (o : Byte) :
    acceptRequest s o a n = .refused .outOfContract := by
  rw [acceptRequest, whenReady_of hdrv, if_neg (by simpa [inContract] using h)]

/-- What `S_HDR` refuses is a request out of contract (R146). -/
theorem hdr_goes_on_or_refuses (hseq : s.seq = .hdr) (hdrv : s.drv = .ready) :
    (∃ t, blockMove s = .next t) ∨
      (s.seq = .hdr ∧ s.hdrIdx = 7#3 ∧ blockMove s = .refused .outOfContract ∧
        ∃ h rest, s.rxQ = h :: rest ∧ s.cfg.totalSize < s.reqAddr.toNat + (shiftIn s.reqLen h).toNat) := by
  cases hq : s.rxQ with
  | nil => exact .inl ⟨_, blockMove_hdr_nil hseq hq⟩
  | cons b rest =>
    by_cases hidx : s.hdrIdx = 7
    · rw [blockMove_hdr_last hseq hq hidx]
      by_cases hfits : s.reqAddr.toNat + (shiftIn s.reqLen b).toNat ≤ s.cfg.totalSize
      · exact .inl ⟨_, acceptRequest_next.2 ⟨by simpa using hdrv, by simpa using hfits, rfl⟩⟩
      · have hbeyond := Nat.lt_of_not_le hfits
        exact .inr ⟨hseq, hidx, acceptRequest_refuses (by simpa using hdrv) (by simpa using hbeyond) _, b, rest, rfl,
          hbeyond⟩
    · exact .inl ⟨_, blockMove_hdr_byte hseq hq hidx⟩

theorem ne_zero_of_one_le {n : Word} (h : 1 ≤ n.toNat) : n ≠ 0 := fun h0 => absurd (h0 ▸ h) (by decide)

theorem rdFill_goes_on (hok : s.cfg.ok = true) (hseq : s.seq = .rdFill) (hdrv : s.drv = .ready)
    (hidle : s.flash.wip = false) (hchunk : s.chunkIn) : ∃ t, blockMove s = .next t := by
  obtain ⟨hcursor, hpos, hsector, hrem⟩ := hchunk
  unfold State.cursorIn at hcursor
  have haddr := spiAddr_of_lt hok (a := s.curAddr) (by omega)
  rw [blockMove_rdFill hseq]
  exact andThen_goes_on
    ⟨_, execTRead_next.2 ⟨hdrv, .inr ⟨ne_zero_of_one_le hpos, hsector, by rw [haddr]; omega, hidle, rfl⟩⟩⟩ _

theorem rdDrain_goes_on (hseq : s.seq = .rdDrain) (hidx : s.bufIdx.toNat < s.buf.length) :
    ∃ t, blockMove s = .next t := by
  rw [blockMove_rdDrain hseq, drainByte, List.getElem?_eq_getElem hidx]
  exact (ite_eq_or_eq ..).elim (fun h => ⟨_, h⟩) (fun h => ⟨_, h⟩)

theorem wrRecv_goes_on (hseq : s.seq = .wrRecv) (hidx : s.bufIdx.toNat < s.buf.length) :
    ∃ t, blockMove s = .next t := by
  cases hq : s.rxQ with
  | nil => exact ⟨_, blockMove_wrRecv_nil hseq hq⟩
  | cons b rest =>
    rw [blockMove_wrRecv_byte hseq hq, recvByte, if_pos hidx]
    exact (ite_eq_or_eq ..).elim (fun h => ⟨_, h⟩) (fun h => ⟨_, h⟩)

theorem waitCmd_goes_on (hseq : s.seq = .waitCmd) : ∃ t, blockMove s = .next t := by
  cases hq : s.rxQ with
  | nil => exact ⟨_, blockMove_waitCmd_nil hseq hq⟩
  | cons b rest =>
    cases hb : isOpcode b with
    | false => exact ⟨_, blockMove_waitCmd_ignored hseq hq hb⟩
    | true => exact ⟨_, blockMove_waitCmd_opcode hseq hq hb⟩

/-- The `erase_region` call of R152 meets the precondition of R121. -/
theorem eraseIn_not_refused (hok : s.cfg.ok = true) (hseq : s.seq = .wrErase) (hchunk : s.chunkIn) (h : s.eraseIn) :
    s.eraseRefused = false :=
  have hregion := erasing_of_chunkIn hok hchunk
  Erasing.not_refused (s := { s with micro := .issue 0 }) ⟨hseq, rfl, h.1, h.2.1, hregion.aligned, hregion.fits⟩

theorem RunInv.drv_ready (h : RunInv s) (hseq : s.seq.inCommand = true) : s.drv = .ready :=
  h.control.drv_eq.trans (Seq.drvOf_eq_ready_of_inCommand hseq)

theorem State.busyOnlyPolling.idle (h : s.busyOnlyPolling) (hmicro : s.micro ≠ .poll) : s.flash.wip = false :=
  h.resolve_left hmicro

/-- Settles O55, by the control state: the run invariant rules out every stop but R146's. -/
theorem blockStopsOnlyOutOfContract : Obligations.BlockStopsOnlyOutOfContract := by
  intro s hr
  have hok := hr.memory.cfg_ok
  have hbuf := hr.memory.buf_len
  have hd := hr.data_in
  cases hseq : s.seq with
  | reset => exact .inl ⟨_, blockMove_reset hseq⟩
  | init => exact .inl (init_goes_on hok hseq (by rw [hr.control.drv_eq, hseq]; decide))
  | halt => exact .inl ⟨_, blockMove_halt hseq⟩
  | waitCmd => exact .inl (waitCmd_goes_on hseq)
  | hdr => exact hseq ▸ hdr_goes_on_or_refuses hseq (hr.drv_ready (by rw [hseq]; rfl))
  | chunk => exact .inl ⟨_, blockMove_chunk hseq⟩
  | rdFill =>
    simp only [State.dataIn, hseq] at hd
    exact .inl (rdFill_goes_on hok hseq (hr.drv_ready (by rw [hseq]; rfl)) hd.1 hd.2)
  | rdDrain =>
    simp only [State.dataIn, hseq] at hd
    obtain ⟨-, ⟨-, -, hsector, -⟩, hidx⟩ := hd
    exact .inl (rdDrain_goes_on hseq (by omega))
  | wrReady =>
    refine .inl ⟨_, (blockMove_wrReady hseq).trans (whenReady_of (hr.drv_ready (by rw [hseq]; rfl)) _)⟩
  | wrRecv =>
    simp only [State.dataIn, hseq] at hd
    obtain ⟨-, ⟨-, -, hsector, -⟩, hidx⟩ := hd
    exact .inl (wrRecv_goes_on hseq (by omega))
  | wrErase =>
    simp only [State.dataIn, hseq] at hd
    obtain ⟨hpolling, hchunk, -, herase⟩ := hd
    have hdrv := hr.drv_ready (by rw [hseq]; rfl)
    have hregion := eraseIn_not_refused hok hseq hchunk herase
    exact .inl ((Operates.erase hseq herase.2.2 hregion).goes_on hok hdrv fun hmicro =>
      exec_eraseInstr_goes_on hok hdrv (hpolling.idle hmicro) hseq herase.2.2 hregion)
  | wrProgram =>
    simp only [State.dataIn, hseq] at hd
    obtain ⟨hpolling, hchunk, -, hprogram⟩ := hd
    have hdrv := hr.drv_ready (by rw [hseq]; rfl)
    have hend := programEnd_le hchunk hprogram
    have hpos := (programLen_bounds hprogram).1
    exact .inl ((Operates.program hseq (decide_eq_true hprogram.2.1)).goes_on hok hdrv fun hmicro =>
      exec_programInstr_goes_on hok hdrv (hpolling.idle hmicro)
        (by rw [toNat_programAddr hok hchunk hprogram]; omega))

/-! ## The halted block (R194) -/

/-- The host takes bytes of its inbox from the front. -/
theorem hostMove_inbox (h : hostMove s = .next t) : t.host.inbox <:+ s.host.inbox := by
  unfold hostMove at h
  split at h
  · next a rest _ =>
    cases a with
    | send b =>
      simp only [hostAct, hostSend] at h
      split at h
      · cases h; exact List.suffix_refl _
      · split at h <;> cases h
        exact List.suffix_refl _
    | awaitReady =>
      cases h
      simp only [State.setHost_host, HostSide.takeReady]
      split
      · exact List.suffix_refl _
      · next b more hinbox =>
        have hsuffix : more <:+ s.host.inbox := hinbox ▸ List.suffix_cons b more
        split
        · exact hsuffix
        · split <;> exact hsuffix
    | takeData =>
      cases h
      simp only [State.setHost_host, HostSide.takeData]
      split
      · exact List.suffix_refl _
      · next b more hinbox =>
        have hsuffix : more <:+ s.host.inbox := hinbox ▸ List.suffix_cons b more
        split <;> exact hsuffix
  · split at h
    · cases h; exact List.suffix_refl _
    · next c cs _ =>
      cases c with
      | r a n => obtain rfl := execCliR_next.1 h; exact List.suffix_refl _
      | w a n f => obtain rfl := execCliW_next.1 h; exact List.suffix_refl _
      | d a n => obtain ⟨-, rfl⟩ := execCliD_next.1 h; exact List.suffix_refl _

/-- Settles O9, by the agents whose move a step can be. -/
theorem haltedBlockIsSilent : Obligations.HaltedBlockIsSilent := by
  intro s hseq
  refine ⟨blockMove_halt hseq, fun t hreset hstep => ?_⟩
  have hnoMore : ∃ more, s.rxQ = s.rxQ ++ more := ⟨[], (List.append_nil _).symm⟩
  obtain ⟨-, ⟨-, hblock⟩ | ⟨-, hhost⟩ | ⟨hturn, rfl⟩ | ⟨rfl, -⟩ | ⟨hnow, -⟩⟩ := step_cases hstep
  · rw [blockMove_halt (s := s.takeTurn) hseq] at hblock
    obtain rfl := next_eq.1 hblock
    exact ⟨hseq, rfl, rfl, rfl, rfl, rfl, rfl, rfl, .inl rfl, hnoMore, List.suffix_refl _⟩
  · have hinbox := hostMove_inbox hhost
    obtain ⟨⟨_, _, rfl⟩, hmore⟩ := hostMove_frame hhost
    exact ⟨hseq, rfl, rfl, rfl, rfl, rfl, rfl, rfl, .inl rfl, hmore, hinbox⟩
  · refine ⟨hseq, rfl, rfl, rfl, rfl, rfl, rfl, rfl, ?_, hnoMore, List.suffix_refl _⟩
    cases hwip : s.flash.wip with
    | false => exact .inl (Flash.finish_idle hwip)
    | true => exact .inr ⟨hturn, rfl, Flash.finish_busy hwip⟩
  · exact ⟨hseq, rfl, rfl, rfl, rfl, rfl, rfl, rfl, .inl rfl, hnoMore, List.suffix_refl _⟩
  · exact absurd hnow hreset

end Sys2Proof.Machine
end

section
/-!
Every well-formed instruction comes back from its bytes (R81 to R100): frames and command lines by their header, SPI
transactions by their command byte and length.
-/
namespace Sys2Proof

/-! ## The two serial links -/

/-- The frame of a command line is the header of the command it stands for (R99). -/
theorem decodeFrame_readHeader (a n : Word) (rest : List Byte) :
    decodeFrame (frameHeader opReadFlash a n ++ rest) = .instr (.readFlash a n) rest :=
  decodeFrame_frameHeader rfl a n rest

theorem decodeFrame_writeHeader (a n : Word) (rest : List Byte) :
    decodeFrame (frameHeader opWriteFlash a n ++ rest) = .instr (.writeFlash a n) rest :=
  decodeFrame_frameHeader rfl a n rest

/-- Off the SPI link no configuration is needed. -/
theorem decode_encode_serial {c : Config} {i : Instr} (hwf : i.wellFormed c = true) (hi : i.link ≠ .spi)
    (rest : List Byte) : decode c i.link (encode c i ++ rest) = .instr i.direct (i.payload ++ rest) := by
  cases i with
  | readFlash a n => exact decodeFrame_readHeader a n rest
  | writeFlash a n => exact decodeFrame_writeHeader a n rest
  | ignored b =>
    have hb : b ≠ opReadFlash ∧ b ≠ opWriteFlash := by simpa [Instr.wellFormed] using hwf
    exact decodeFrame_of_not_isOpcode (isOpcode_eq_false_iff.2 hb) rest
  | ready => rfl
  | cliR a n => exact decodeFrame_readHeader a n rest
  | cliW a n file =>
    rw [encode, List.append_assoc]
    exact decodeFrame_writeHeader a n _
  | cliD a n => exact decodeFrame_readHeader a (dumpLength n) rest
  | tRaw | tReadId | tReadStatus | tRead | tProgram | tSectorErase | tChipErase => exact absurd rfl hi

/-! ## The SPI link -/

section Spi
variable {c : Config}

/-- What carries no command byte of the record is a raw transaction (R97). -/
theorem decodeSpi_raw {m : Byte} (h : m ∉ c.commandBytes) (bs : List Byte) :
    decodeSpi c (m :: bs) = .instr (.tRaw (m :: bs)) [] := by
  simp only [Config.commandBytes, List.mem_cons, not_or] at h
  simp [decodeSpi, h]

/-- A transaction with one of the six command bytes is the instruction of that byte, if the bytes after it are as many as
that instruction has (R92 to R95). -/
theorem decodeSpi_command (hnodup : c.commandBytes.Nodup) (bs : List Byte) :
    (bs.length = 3 → decodeSpi c (c.cmdReadId :: bs) = .instr .tReadId []) ∧
    (bs.length = 1 → decodeSpi c (c.cmdReadStatus :: bs) = .instr .tReadStatus []) ∧
    (c.addrBytes < bs.length → decodeSpi c (c.cmdRead :: bs) =
      .instr (.tRead (joinAddr (bs.take c.addrBytes)) (BitVec.ofNat 32 (bs.length - c.addrBytes))) []) ∧
    (c.addrBytes < bs.length → decodeSpi c (c.cmdProgram :: bs) =
      .instr (.tProgram (joinAddr (bs.take c.addrBytes)) (bs.drop c.addrBytes)) []) ∧
    (bs.length = c.addrBytes → decodeSpi c (c.cmdSectorErase :: bs) = .instr (.tSectorErase (joinAddr bs)) []) ∧
    decodeSpi c [c.cmdChipErase] = .instr .tChipErase [] := by
  simp only [Config.commandBytes, List.nodup_cons, List.mem_cons, List.not_mem_nil, or_false, not_or] at hnodup
  obtain ⟨⟨h1, h2, h3, h4, h5⟩, ⟨h6, h7, h8, h9⟩, ⟨h10, h11, h12⟩, ⟨h13, h14⟩, h15, -⟩ := hnodup
  refine ⟨fun h => ?_, fun h => ?_, fun h => ?_, fun h => ?_, fun h => ?_, ?_⟩ <;>
    simp [decodeSpi, Ne.symm, *]

theorem addressFits_iff {a : Word} : c.addressFits a = true ↔ a.toNat < 2 ^ (8 * c.addrBytes) := by
  simp [Config.addressFits]

/-- The address bytes and what follows them, told apart by their number (R91). -/
theorem take_drop_addrBytesOf (hwidth : c.addrBytes ≤ 4) (a : Word) (bs : List Byte) :
    (addrBytesOf c a ++ bs).take c.addrBytes = addrBytesOf c a ∧ (addrBytesOf c a ++ bs).drop c.addrBytes = bs ∧
      (addrBytesOf c a ++ bs).length = c.addrBytes + bs.length := by
  have hlen := length_addrBytesOf hwidth a
  exact ⟨List.take_left' hlen, List.drop_left' hlen, by rw [List.length_append, hlen]⟩

theorem decode_encode_spi {i : Instr} (hok : c.ok = true) (hwf : i.wellFormed c = true) (hi : i.link = .spi)
    (hnodup : c.commandBytes.Nodup) (hraw : ∀ m bs, i = .tRaw (m :: bs) → m ∉ c.commandBytes) :
    decodeSpi c (encode c i) = .instr i [] := by
  obtain ⟨-, -, -, -, -, hwidth, -⟩ := Machine.Config.ok_geometry hok
  have hwidth4 : c.addrBytes ≤ 4 := by omega
  have hcommand := decodeSpi_command hnodup
  cases i with
  | readFlash | writeFlash | ignored | ready | cliR | cliW | cliD => cases hi
  | tRaw bytes =>
    cases bytes with
    | nil => cases hwf
    | cons m bs => exact decodeSpi_raw (hraw m bs rfl) bs
  | tReadId =>
    obtain ⟨hreadId, -⟩ := hcommand [c.dummy, c.dummy, c.dummy]
    exact hreadId rfl
  | tReadStatus =>
    obtain ⟨-, hreadStatus, -⟩ := hcommand [c.dummy]
    exact hreadStatus rfl
  | tRead a n =>
    obtain ⟨hfits, hpos⟩ : a.toNat < 2 ^ (8 * c.addrBytes) ∧ 1 ≤ n.toNat := by
      simpa [Instr.wellFormed, addressFits_iff] using hwf
    obtain ⟨htake, -, hlen⟩ := take_drop_addrBytesOf hwidth4 a (List.replicate n.toNat c.dummy)
    rw [List.length_replicate] at hlen
    obtain ⟨-, -, hread, -⟩ := hcommand (addrBytesOf c a ++ List.replicate n.toNat c.dummy)
    rw [encode, hread (by omega), htake, hlen, joinAddr_addrBytesOf hwidth hfits, Nat.add_sub_cancel_left,
      BitVec.ofNat_toNat, BitVec.setWidth_eq]
  | tProgram a d =>
    obtain ⟨⟨hfits, hsome⟩, -⟩ : (a.toNat < 2 ^ (8 * c.addrBytes) ∧ d ≠ []) ∧ d.length ≤ c.programLimit := by
      simpa [Instr.wellFormed, addressFits_iff] using hwf
    obtain ⟨htake, hdrop, hlen⟩ := take_drop_addrBytesOf hwidth4 a d
    have hpos := List.length_pos_iff.2 hsome
    obtain ⟨-, -, -, hprogram, -⟩ := hcommand (addrBytesOf c a ++ d)
    rw [encode, hprogram (by omega), htake, hdrop, joinAddr_addrBytesOf hwidth hfits]
  | tSectorErase a =>
    obtain ⟨hfits, -⟩ : a.toNat < 2 ^ (8 * c.addrBytes) ∧ a.toNat % c.sectorSize = 0 := by
      simpa [Instr.wellFormed, addressFits_iff] using hwf
    obtain ⟨-, -, -, -, herase, -⟩ := hcommand (addrBytesOf c a)
    rw [encode, herase (length_addrBytesOf hwidth4 a), joinAddr_addrBytesOf hwidth hfits]
  | tChipErase =>
    obtain ⟨-, -, -, -, -, hchipErase⟩ := hcommand []
    exact hchipErase

end Spi

/-- Settles O3, by the link: the serial links need no condition, the SPI link the command bytes' (log 24). -/
theorem decodeEncodeAgree : Obligations.DecodeEncodeAgree :=
  fun _ _ rest hok hwf => ⟨fun hi => decode_encode_serial hwf hi rest, decode_encode_spi hok hwf⟩

/-- Settles O4: the decoders evaluate on each of the words. -/
theorem specWordsDecode : Obligations.SpecWordsDecode := by
  unfold Obligations.SpecWordsDecode
  decide

end Sys2Proof
end

section
/-!
Each SPI transaction as an equation: its events, its latches, what the chip makes of it, and where it stops (R56 to R61,
R90 to R97, R110 to R125).
-/
namespace Sys2Proof.Machine
variable {s : State} {c : Config} {f : Flash}

/-! ## Transactions that write nothing -/

/-- Settles O11. -/
theorem rawTransactionDrivesItsBytes : Obligations.RawTransactionDrivesItsBytes :=
  fun _ _ hb hdrv => execTRaw_next.2 ⟨hdrv, hb, rfl⟩

/-- The state after an identity read: the latches take what the chip reports, manufacturer first (R61, R113). -/
theorem afterReadId_eq (s : State) : s.afterReadId = { s with
    cs := false, idMfr := s.flash.chipMfr, idDev := s.flash.chipDev,
    trace := s.trace ++ [.cs true, .xfer s.cfg.cmdReadId none, .xfer s.cfg.dummy (some s.flash.chipMfr),
      .xfer s.cfg.dummy (some (s.flash.chipDev.extractLsb' 8 8)),
      .xfer s.cfg.dummy (some (s.flash.chipDev.extractLsb' 0 8)), .cs false],
    flash := { s.flash with rawRun := [] } } := by
  rw [State.afterReadId, deviceId_bytes]
  rfl

/-- Settles O12: the two device id bytes the chip sends make its device id again. -/
theorem identityReadLatchesWhatTheChipReports : Obligations.IdentityReadLatchesWhatTheChipReports :=
  fun s hdrv => execTReadId_next.2 ⟨hdrv, (afterReadId_eq s).symm⟩

/-- Settles O13: the busy bit of the status byte tells the operation in progress, whatever the free bits are. -/
theorem statusReadReportsTheOperation : Obligations.StatusReadReportsTheOperation := by
  intro s hok hdrv
  obtain ⟨-, -, -, -, -, -, hmask⟩ := Config.ok_geometry hok
  refine ⟨statusByte s.cfg s.flash.poll.wip s.noise, s.flash.poll, execTReadStatus_next.2 ⟨hdrv, rfl⟩,
    statusByte_and_wipMask hmask .., ?_, Flash.poll_mem _, Flash.poll_opBase _, Flash.poll_opLen _, Flash.poll_draws _,
    Flash.poll_chipMfr _, Flash.poll_chipDev _⟩
  simp [Flash.poll_wip]

/-- Settles O14: the burst is `afterRead`, whose data is a slice of the content. -/
theorem readBurstFillsTheStagingBuffer : Obligations.ReadBurstFillsTheStagingBuffer := by
  rintro a n s hdrv hpos hsector hfits hidle data rfl
  refine execTRead_next.2 ⟨hdrv, .inr ⟨ne_zero_of_one_le hpos, hsector, hfits, hidle, ?_⟩⟩
  have hlen : (Memory.slice s.flash.mem (spiAddr s.cfg a) n.toNat).length = n.toNat := Memory.length_slice ..
  rw [State.afterRead, State.fillBuf, hlen]
  rfl

/-! ## Programs and erases -/

/-- The chip is write enabled exactly if the write prelude came directly before (R60). -/
theorem Flash.wel_iff : f.wel c = true ↔ c.writePrelude <:+ f.rawRun := List.isSuffixOf_iff_suffix

/-- What programming makes of one byte, with the data bytes numbered. -/
theorem programmedByte_eq_foldl (c : Config) (a x : Nat) : ∀ (d : List Byte) (i : Nat) (v : Byte),
    programmedByte c a i d x v =
      (List.range d.length).foldl (fun v j => if progTarget c a (i + j) = x then v &&& d.getD j 0 else v) v
  | [], _, _ => rfl
  | b :: d, i, v => by
    rw [programmedByte, programmedByte_eq_foldl c a x d (i + 1), List.length_cons, List.range_succ_eq_map,
      List.foldl_cons, List.foldl_map]
    simp [Nat.add_assoc, Nat.add_comm 1]

/-- Settles O16: a write enabled program begins with the content that programming leaves. -/
theorem programAndsIntoThePage : Obligations.ProgramAndsIntoThePage := by
  rintro a d s _ hdrv hd ha hidle hwf hwel A P rfl rfl
  refine ⟨s.flash.program s.cfg (spiAddr s.cfg a) d, execTProgram_next.2 ⟨hdrv, .inr ⟨hd, ha, hidle, rfl⟩⟩, ?_⟩
  rw [Flash.program, Flash.modify_of_wel (Flash.wel_iff.2 hwel)]
  refine ⟨fun x => ?_, Memory.wf_program s.cfg _ d hwf, rfl, rfl, rfl⟩
  rw [Flash.begin_mem, Memory.read_program s.cfg _ x d hwf, programmedByte_eq_foldl]
  simp only [Nat.zero_add]
  rfl

/-- Settles O17: a program that stays in its page stores from its address upwards. -/
theorem programOnErasedBytesStoresTheData : Obligations.ProgramOnErasedBytesStoresTheData := by
  rintro a d s t _ hwf hwel hd A P rfl rfl hpage hblank hexec
  obtain ⟨-, ⟨hnone, -⟩ | ⟨-, -, -, rfl⟩⟩ := execTProgram_next.1 hexec
  · exact absurd hnone hd
  have hmem : (s.afterProgram a d).flash.mem = Memory.andFrom s.flash.mem (spiAddr s.cfg a) d := by
    rw [State.afterProgram, State.setFlash_flash, Flash.program, Flash.modify_mem_of_wel (Flash.wel_iff.2 hwel),
      Memory.program_eq_andFrom (a := spiAddr s.cfg a) _ hpage]
  rw [hmem]
  exact ⟨fun i hi => Memory.read_andFrom_blank hwf hi (hblank i hi), fun x hx => Memory.read_andFrom_outside hwf hx⟩

/-- Settles O18: a write enabled erase begins with the content that the erase leaves. -/
theorem erasesSetTheirBytes : Obligations.ErasesSetTheirBytes := by
  constructor
  · rintro a s hdrv hidle hwel A rfl haligned hfits
    refine ⟨s.flash.sectorErase s.cfg (spiAddr s.cfg a), execTSectorErase_next.2 ⟨hdrv, haligned, hfits, hidle, rfl⟩, ?_⟩
    rw [Flash.sectorErase, Flash.modify_of_wel (Flash.wel_iff.2 hwel)]
    exact ⟨fun x => Memory.read_erase .., rfl, rfl, rfl⟩
  · intro s hdrv hidle hwel
    refine ⟨s.flash.chipErase s.cfg, execTChipErase_next.2 ⟨hdrv, hidle, rfl⟩, ?_⟩
    rw [Flash.chipErase, Flash.modify_of_wel (Flash.wel_iff.2 hwel)]
    exact ⟨fun _ => rfl, rfl, rfl, rfl⟩

/-- Without the write enable a program or an erase only ends the run of raw transactions (R60). -/
theorem Flash.modify_of_not_wel (h : ¬ c.writePrelude <:+ f.rawRun) (m : Memory) (base len : Nat) :
    f.modify c m base len = { f with rawRun := [] } := if_neg (fun hwel => h (Flash.wel_iff.1 hwel))

/-- Settles O19, by the three transactions. -/
theorem withoutWriteEnableNothingIsStored : Obligations.WithoutWriteEnableNothingIsStored := by
  rintro a d s hdrv hidle hwel A rfl
  refine ⟨fun hd ha => execTProgram_next.2 ⟨hdrv, .inr ⟨hd, ha, hidle, ?_⟩⟩,
    fun haligned hfits => execTSectorErase_next.2 ⟨hdrv, haligned, hfits, hidle, ?_⟩,
    execTChipErase_next.2 ⟨hdrv, hidle, ?_⟩⟩
  · rw [State.afterProgram, Flash.program, Flash.modify_of_not_wel hwel]
    rfl
  · rw [State.afterSectorErase, Flash.sectorErase, Flash.modify_of_not_wel hwel]
    rfl
  · rw [State.afterChipErase, Flash.chipErase, Flash.modify_of_not_wel hwel]
    rfl

/-! ## Where transactions stop -/

theorem whenReady_refuses (h : s.drv ≠ .ready) (k : Outcome) : whenReady s k = .refused .driverNotReady := if_neg h

theorem unlessFaulted_refuses (h : s.drv = .faulted) (k : Outcome) : unlessFaulted s k = .refused .driverNotReady :=
  if_pos h

theorem unlessBusy_refuses (h : s.flash.wip = true) (k : Outcome) : unlessBusy s k = .refused .flashBusy := if_pos h

/-- Outside `Ready` no data operation is run (R110). -/
theorem data_operations_need_ready (hdrv : s.drv ≠ .ready) (a n : Word) (bs : List Byte) :
    exec .tReadStatus s = .refused .driverNotReady ∧ exec (.tRead a n) s = .refused .driverNotReady ∧
      exec (.tProgram a bs) s = .refused .driverNotReady ∧ exec (.tSectorErase a) s = .refused .driverNotReady ∧
      exec .tChipErase s = .refused .driverNotReady :=
  ⟨whenReady_refuses hdrv _, whenReady_refuses hdrv _, whenReady_refuses hdrv _, whenReady_refuses hdrv _,
    whenReady_refuses hdrv _⟩

section Ready
variable (hdrv : s.drv = .ready) {a n : Word}
include hdrv

/-- A burst longer than the staging buffer, beyond the chip, or sent to a busy chip (R30, R52, R59). -/
theorem read_stops :
    (s.cfg.sectorSize < n.toNat → exec (.tRead a n) s = .fault .stagingIndex) ∧
    (1 ≤ n.toNat → n.toNat ≤ s.cfg.sectorSize → s.cfg.totalSize < spiAddr s.cfg a + n.toNat →
      exec (.tRead a n) s = .refused .flashAddress) ∧
    (1 ≤ n.toNat → n.toNat ≤ s.cfg.sectorSize → spiAddr s.cfg a + n.toNat ≤ s.cfg.totalSize → s.flash.wip = true →
      exec (.tRead a n) s = .refused .flashBusy) := by
  simp only [exec, execTRead, whenReady_of hdrv]
  refine ⟨fun hlong => ?_, fun hpos hsector hbeyond => ?_, fun hpos hsector hfits hbusy => ?_⟩
  · rw [if_neg (ne_zero_of_one_le (Nat.one_le_of_lt hlong)), if_pos hlong]
  · rw [if_neg (ne_zero_of_one_le hpos), if_neg (Nat.not_lt.2 hsector), if_pos hbeyond]
  · rw [if_neg (ne_zero_of_one_le hpos), if_neg (Nat.not_lt.2 hsector), if_neg (Nat.not_lt.2 hfits),
      unlessBusy_refuses hbusy]

/-- A program beyond the chip, or sent to a busy chip (R52, R59). -/
theorem program_stops {d : List Byte} (hd : d ≠ []) :
    (s.cfg.totalSize ≤ spiAddr s.cfg a → exec (.tProgram a d) s = .refused .flashAddress) ∧
    (spiAddr s.cfg a < s.cfg.totalSize → s.flash.wip = true → exec (.tProgram a d) s = .refused .flashBusy) := by
  simp only [exec, execTProgram, whenReady_of hdrv, if_neg hd]
  exact ⟨fun hbeyond => if_pos hbeyond, fun hin hbusy => by rw [if_neg (Nat.not_le.2 hin), unlessBusy_refuses hbusy]⟩

/-- A sector erase that is not aligned, beyond the chip, or sent to a busy chip (R58, R52, R59). -/
theorem sectorErase_stops :
    (spiAddr s.cfg a % s.cfg.sectorSize ≠ 0 → exec (.tSectorErase a) s = .refused .eraseUnaligned) ∧
    (spiAddr s.cfg a % s.cfg.sectorSize = 0 → s.cfg.totalSize < spiAddr s.cfg a + s.cfg.sectorSize →
      exec (.tSectorErase a) s = .refused .flashAddress) ∧
    (spiAddr s.cfg a % s.cfg.sectorSize = 0 → spiAddr s.cfg a + s.cfg.sectorSize ≤ s.cfg.totalSize →
      s.flash.wip = true → exec (.tSectorErase a) s = .refused .flashBusy) := by
  simp only [exec, execTSectorErase, whenReady_of hdrv]
  refine ⟨fun hunaligned => if_pos hunaligned, fun haligned hbeyond => ?_, fun haligned hfits hbusy => ?_⟩
  · rw [if_neg (not_not.2 haligned), if_pos hbeyond]
  · rw [if_neg (not_not.2 haligned), if_neg (Nat.not_lt.2 hfits), unlessBusy_refuses hbusy]

/-- A burst or a program of no bytes is no transaction (R114, R120). -/
theorem empty_data_does_nothing (a : Word) : exec (.tRead a 0) s = .next s ∧ exec (.tProgram a []) s = .next s :=
  ⟨execTRead_next.2 ⟨hdrv, .inl ⟨rfl, rfl⟩⟩, execTProgram_next.2 ⟨hdrv, .inl ⟨rfl, rfl⟩⟩⟩

theorem chipErase_stops (hbusy : s.flash.wip = true) : exec .tChipErase s = .refused .flashBusy := by
  simp only [exec, execTChipErase, whenReady_of hdrv, unlessBusy_refuses hbusy]

end Ready

/-- Settles O15, by the driver state and the transaction. -/
theorem whereTransactionsStop : Obligations.WhereTransactionsStop := by
  intro s a n b bs
  refine ⟨fun hfaulted => ⟨unlessFaulted_refuses hfaulted _, unlessFaulted_refuses hfaulted _⟩,
    fun hdrv => unlessFaulted_of hdrv _, fun hdrv => data_operations_need_ready hdrv a n bs, fun hdrv => ?_⟩
  obtain ⟨hread, hprogram⟩ := empty_data_does_nothing hdrv a
  obtain ⟨hlong, hreadBeyond, hreadBusy⟩ := read_stops hdrv (a := a) (n := n)
  obtain ⟨hprogramBeyond, hprogramBusy⟩ := program_stops hdrv (a := a) (List.cons_ne_nil b bs)
  obtain ⟨hunaligned, heraseBeyond, heraseBusy⟩ := sectorErase_stops hdrv (a := a)
  exact ⟨hread, hprogram, hlong, hreadBeyond, hreadBusy, hprogramBeyond, hprogramBusy, hunaligned, heraseBeyond,
    heraseBusy, chipErase_stops hdrv⟩

end Sys2Proof.Machine
end

section
/-!
Single steps: what a reset leaves, the executor's moves on serial bytes and chunks, the host's and the chip's turn, and
the command lines (R45, R59, R99, R140 to R150, R173 to R177, R190, R220).
-/
namespace Sys2Proof.Machine
variable {s : State}

/-! ## Reset and the exception -/

/-- Settles O6: every register R45 names takes its reset value, whatever the state was. -/
theorem resetValues : Obligations.ResetValues :=
  ⟨fun _ => ⟨rfl, rfl, rfl, rfl, rfl, rfl, rfl, rfl, rfl, rfl⟩, rfl, rfl, rfl, rfl, rfl, rfl, rfl, rfl, rfl⟩

/-- With the prelude done, the move of `S_INIT` reads the identity and decides (R111). -/
theorem blockMove_init_last (hseq : s.seq = .init) (hdrv : s.drv ≠ .faulted)
    (hlast : ∀ k, s.micro = .issue k → s.cfg.initPrelude.length ≤ k) :
    blockMove s = .next s.afterReadId.checkIdentity := by
  have hi : s.initInstr = .tReadId := by
    obtain ⟨k, p, hmicro, hp, -⟩ | ⟨-, hi⟩ := initInstr_cases s
    · exact absurd (lt_length_of_getElem?_eq_some hp) (Nat.not_lt.2 (hlast k hmicro))
    · exact hi
  have hexec : exec .tReadId s = .next s.afterReadId := execTReadId_next.2 ⟨hdrv, rfl⟩
  rw [blockMove_init hseq, hi, hexec, andThen, afterInit_last (s := s.afterReadId) hlast]

/-- All 24 bits decide (R112). -/
theorem identityOk_iff (c : Config) (m : Byte) (d : Half) : identityOk c m d = true ↔ m = c.expMfr ∧ d = c.expDev := by
  simp [identityOk]

theorem afterReadId_identityOk (s : State) :
    identityOk s.afterReadId.cfg s.afterReadId.idMfr s.afterReadId.idDev = true ↔
      s.flash.chipMfr = s.cfg.expMfr ∧ s.flash.chipDev = s.cfg.expDev := by
  rw [afterReadId_eq]
  exact identityOk_iff ..

/-- Settles O8: the identity read, then the one exception. -/
theorem identityMismatchEntry : Obligations.IdentityMismatchEntry := by
  intro s hok hturn hseq hdrv hlast hdiffers
  have hbad : ¬ identityOk s.takeTurn.afterReadId.cfg s.takeTurn.afterReadId.idMfr s.takeTurn.afterReadId.idDev = true :=
    fun h => hdiffers ((afterReadId_identityOk s.takeTurn).1 h)
  rw [step_block hok hturn, blockMove_init_last (s := s.takeTurn) hseq (by rw [State.takeTurn_drv, hdrv]; nofun) hlast,
    State.checkIdentity, if_neg hbad, afterReadId_eq]
  rfl

/-- Settles O59: outside the bytes of the operation in progress a reset tears nothing. -/
theorem resetKeepsBytesOutsideTheOperation : Obligations.ResetKeepsBytesOutsideTheOperation := by
  intro s hok hturn hwf
  refine ⟨_, step_reset hok hturn, rfl, rfl, rfl, rfl, rfl, rfl, rfl, rfl, rfl, Flash.torn_wip .., fun x hx => ?_⟩
  obtain hidle | hx := hx
  · exact congrArg (Memory.read · x) (hardReset_mem_of_idle (s := s.takeTurn) hidle)
  · exact Flash.read_torn hwf hx

/-! ## The header (R141, R143) -/

/-- Settles O22. -/
theorem opcodeOpensTheHeader : Obligations.OpcodeOpensTheHeader := by
  refine ⟨fun _ => blockMove_waitCmd_nil, fun b rest s hok hturn hseq hrx hb => ?_⟩
  rw [step_block hok hturn, blockMove_waitCmd_opcode (s := s.takeTurn) hseq hrx (isOpcode_iff.2 hb)]
  simp only [State.openHeader, State.led, State.serialTake, State.takeTurn, hrx, List.tail_cons]
  split <;> simp

/-- Settles O23, by the field the byte goes to. -/
theorem headerByteIsShiftedIn : Obligations.HeaderByteIsShiftedIn := by
  intro h rest s hok hturn hseq hrx hidx
  rw [step_block hok hturn, blockMove_hdr_byte (s := s.takeTurn) hseq hrx hidx]
  simp only [State.latchHeader, State.nextHeader, State.serialTake, State.takeTurn, hrx, List.tail_cons]
  split <;> rfl

/-! ## Requests (R144, R146) -/

/-- Settles O25. -/
theorem requestInContractIsAccepted : Obligations.RequestInContractIsAccepted :=
  fun _ _ _ hdrv hfits => ⟨execReadFlash_next.2 ⟨hdrv, hfits, rfl⟩, execWriteFlash_next.2 ⟨hdrv, hfits, rfl⟩⟩

/-- Settles O26. -/
theorem requestOutOfContractIsRefused : Obligations.RequestOutOfContractIsRefused :=
  fun _ _ _ => ⟨fun hdrv h => ⟨acceptRequest_refuses hdrv h _, acceptRequest_refuses hdrv h _⟩,
    fun hdrv => ⟨whenReady_refuses hdrv _, whenReady_refuses hdrv _⟩⟩

/-! ## Chunks and bytes (R145, R148 to R150, R154) -/

theorem step_chunk (hok : s.cfg.ok = true) (hturn : s.blockTurn) (hseq : s.seq = .chunk) :
    step s = .next s.takeTurn.decideChunk := by
  rw [step_block hok hturn, blockMove_chunk (s := s.takeTurn) hseq]

/-- Settles O27, by what is left and by the opcode. -/
theorem chunkDecision : Obligations.ChunkDecision := by
  intro s hok hturn hseq
  rw [step_chunk hok hturn hseq]
  refine ⟨fun hrem => ?_, fun hrem hop => ?_, fun hrem hop => ?_⟩
  · rw [State.decideChunk, if_pos (by exact hrem)]
    rfl
  · rw [State.decideChunk, if_neg (by exact hrem), State.beginChunk, State.takeTurn_op, if_pos hop, if_pos hop]
    rfl
  · have hne : s.op ≠ opReadFlash := by rw [hop]; decide
    rw [State.decideChunk, if_neg (by exact hrem), State.beginChunk, State.takeTurn_op, if_neg hne, if_neg hne]
    rfl

/-- Settles O28, by whether the byte is the last of the chunk. -/
theorem drainSendsOneByte : Obligations.DrainSendsOneByte := by
  intro b s hok hturn hseq hbyte
  have hbyte' : s.takeTurn.buf[s.takeTurn.bufIdx.toNat]? = some b := hbyte
  rw [step_block hok hturn, blockMove_rdDrain (s := s.takeTurn) hseq, drainByte, hbyte']
  refine ⟨fun hmore => ?_, fun hlast => ?_⟩
  · rw [show s.takeTurn.moreBytes = true from decide_eq_true hmore]
    simp [State.nextByte, State.serialWrite, State.takeTurn, HostSide.receive, hseq]
  · rw [show s.takeTurn.moreBytes = false from decide_eq_false (Nat.not_lt.2 hlast)]
    rfl

/-- Settles O29. -/
theorem readyByteIsSent : Obligations.ReadyByteIsSent := by
  refine ⟨fun s hdrv => execReady_next.2 ⟨hdrv, rfl⟩, fun s hdrv => whenReady_refuses hdrv _,
    fun s hok hdrv hturn hseq => ?_⟩
  rw [step_block hok hturn, blockMove_wrReady (s := s.takeTurn) hseq, whenReady_of (s := s.takeTurn) hdrv]
  rfl

/-- Settles O49: the turn changes nothing the control state fetches from. -/
theorem stepRunsTheFetchedInstruction : Obligations.StepRunsTheFetchedInstruction := by
  intro s i hok hturn hfetch hregion
  have hfetch' : s.takeTurn.fetch = some i := hfetch
  have hregion' : s.takeTurn.eraseRefused = false := hregion
  simp only [step_block hok hturn, blockMove, hfetch', hregion', Bool.false_eq_true, if_false]

/-! ## The chip's turn (R59) -/

/-- Settles O48: the chip's own step, and the status read that finds the operation ended. -/
theorem chipEndsItsOperation : Obligations.ChipEndsItsOperation := by
  refine ⟨fun s hok hturn => ?_, fun s t hbusy hexec hended => ?_, fun c f hprelude hrun => ?_⟩
  · rw [step_flash hok hturn, flashMove, State.takeTurn_flash]
    exact ⟨fun hbusy => by rw [Flash.finish_busy hbusy]; rfl, fun hidle => by rw [Flash.finish_idle hidle]; rfl⟩
  · obtain ⟨-, rfl⟩ := execTReadStatus_next.1 hexec
    exact Flash.poll_ends hbusy hended
  · rw [Flash.wel_of_rawRun_nil hrun]
    simpa using hprelude

/-! ## The host's turn (R40, R173 to R175) -/

theorem step_hostAct (hok : s.cfg.ok = true) (hturn : s.hostTurn) {a : HostAct} {rest : List HostAct}
    (hscript : s.host.script = a :: rest) : step s = hostAct a rest s.takeTurn := by
  have hscript' : s.takeTurn.host.script = a :: rest := hscript
  rw [step_host hok hturn, hostMove, hscript']

/-- There is room in the receive holding (R40). -/
theorem rxRoom_iff : s.rxRoom = true ↔ ∀ d, s.cfg.rxDepth = some d → s.rxQ.length < d := by
  unfold State.rxRoom
  cases s.cfg.rxDepth <;> simp

theorem hostSend_of_room (h : s.rxRoom = true) (b : Byte) (rest : List HostAct) :
    hostSend b rest s = .next ((s.rxArrive b).setHost (s.host.goOn rest)) := if_pos h

theorem hostSend_of_no_room (h : s.rxRoom = false) (b : Byte) (rest : List HostAct) : hostSend b rest s =
    if s.seq = .halt then .next (s.setHost (s.host.goOn rest)) else .refused .rxOverrun := if_neg (by simp [h])

/-- Settles O45, by whether there is room and whether the block is halted. -/
theorem receiveHoldingAndOverrun : Obligations.ReceiveHoldingAndOverrun := by
  intro b rest d s hok hturn hscript
  have hfull (hdepth : s.cfg.rxDepth = some d) (hlen : d ≤ s.rxQ.length) : s.takeTurn.rxRoom = false := by
    refine Bool.eq_false_of_not_eq_true fun hroom => ?_
    exact absurd (rxRoom_iff.1 hroom d hdepth) (Nat.not_lt.2 hlen)
  rw [step_hostAct hok hturn hscript, hostAct]
  refine ⟨fun hroom => ?_, fun hdepth hlen hseq => ?_, fun hdepth hlen hseq => ?_⟩
  · have hroom' : s.takeTurn.rxRoom = true := rxRoom_iff.2 fun e he => by
      have he : s.cfg.rxDepth = some e := he
      obtain hnone | ⟨hsome, hlt⟩ := hroom
      · cases hnone.symm.trans he
      · cases hsome.symm.trans he
        exact hlt
    exact hostSend_of_room hroom' b rest
  · exact (hostSend_of_no_room (hfull hdepth hlen) b rest).trans (if_neg hseq)
  · exact (hostSend_of_no_room (hfull hdepth hlen) b rest).trans (if_pos hseq)

/-- Settles O46, by the byte and the policy. -/
theorem hostFlowPolicy : Obligations.HostFlowPolicy := by
  intro b more rest s hok hturn hscript hinbox
  rw [step_hostAct hok hturn hscript]
  refine ⟨fun hb => ?_, fun hb hpolicy => ?_, fun hb hpolicy => ?_⟩
  · simp [hostAct, HostSide.takeReady, hinbox, hb, State.setHost, State.takeTurn]
  · simp [hostAct, HostSide.takeReady, hinbox, hb, hpolicy, State.setHost, State.takeTurn]
  · simp [hostAct, HostSide.takeReady, hinbox, hb, hpolicy, State.setHost, State.takeTurn]

/-- Settles O47, by the room the destination has left. -/
theorem hostStopsWhenItsDestinationFails : Obligations.HostStopsWhenItsDestinationFails := by
  intro b more rest s hok hturn hscript hinbox
  rw [step_hostAct hok hturn hscript]
  refine ⟨fun hroom => ?_, fun k hroom => ?_, fun hroom => ?_⟩
  · simp [hostAct, HostSide.takeData, hinbox, hroom, State.setHost, State.takeTurn]
  · simp [hostAct, HostSide.takeData, hinbox, hroom, State.setHost, State.takeTurn]
  · simp [hostAct, HostSide.takeData, hinbox, hroom, State.setHost, State.takeTurn]

/-! ## The command lines (R99, R173, R174, R177) -/

/-- Settles O43, by whether the file yields as many bytes as its size says. -/
theorem commandLinesSendTheirFrames : Obligations.CommandLinesSendTheirFrames := by
  refine fun a n file s => ⟨execCliR_next.2 rfl, fun hwhole => execCliW_next.2 ?_, fun hshort => execCliW_next.2 ?_⟩
  · rw [payloadScript, if_neg (Nat.not_lt.2 hwhole), List.append_nil]
    rfl
  · rw [payloadScript, if_pos hshort, List.take_of_length_le hshort.le]
    rfl

/-- Word `w` of a dump is made of the four bytes from `4 * w` on. -/
theorem dumpWords_getElem? : ∀ (bs : List Byte) (w : Nat), 4 * w + 3 < bs.length → ∃ b0 b1 b2 b3 : Byte,
    bs[4 * w]? = some b0 ∧ bs[4 * w + 1]? = some b1 ∧ bs[4 * w + 2]? = some b2 ∧ bs[4 * w + 3]? = some b3 ∧
    (dumpWords bs)[w]? = some (b3 ++ b2 ++ b1 ++ b0)
  | b0 :: b1 :: b2 :: b3 :: rest, 0, _ => ⟨b0, b1, b2, b3, rfl, rfl, rfl, rfl, rfl⟩
  | _ :: _ :: _ :: _ :: rest, w + 1, h => dumpWords_getElem? rest w (by simp only [List.length_cons] at h; omega)
  | [], _, h | [_], _, h | [_, _], _, h | [_, _, _], _, h => by simp at h

/-- Settles O44: the byte count of a dump that fits 32 bits is the product itself. -/
theorem dumpReadsFourBytesAWord : Obligations.DumpReadsFourBytesAWord := by
  refine ⟨fun a n s => ⟨fun hfits => ?_, fun hlong => if_pos hlong⟩, dumpWords_getElem?⟩
  have hlen : (dumpLength n).toNat = n.toNat * 4 := Nat.mod_eq_of_lt hfits
  refine ⟨dumpLength n, hlen, execCliD_next.2 ⟨hfits, ?_⟩⟩
  rw [hlen]
  rfl

end Sys2Proof.Machine
end

section
/-!
The steps of `erase_region` and `write_bytes` at the block's turn: prelude, own transaction, polls (R117, R118, R122,
R124, R126), and the call that begins for a chunk (R152, R153).
-/
namespace Sys2Proof.Machine
variable {s t : State}

/-- Settles O31: the operands are those of the chunk's covering sectors. -/
theorem eraseCallCoversTheChunk : Obligations.EraseCallCoversTheChunk := by
  intro b rest s hok hturn hseq hrx hroom hlast hchunk
  have herasing := erasing_of_chunkIn (s := (s.takeTurn.serialTake b).storeByte b) hok hchunk
  have hcount := herasing.count_eq
  have hcover := coverCount_le hchunk
  refine ⟨((s.takeTurn.serialTake b).storeByte b).beginErase, ?_, rfl, rfl, rfl, ?_, rfl, herasing.erAddr_eq, hcount, ?_,
    ?_, rfl, rfl, rfl, rfl, rfl⟩
  · rw [step_block hok hturn, blockMove_wrRecv_last (s := s.takeTurn) hseq hrx hroom hlast.le]
  · simp [hrx]
  · have hcount' : _ = s.coverCount := hcount
    omega
  · rw [herasing.erAddr_eq, hcount]
    exact herasing.fits

/-! ## One transaction of a step -/

section Operates
variable {main : Instr} {done : State → State} (hop : Operates s main done)
include hop

theorem Operates.takeTurn : Operates s.takeTurn main done := by
  cases hop with
  | erase hseq hpending hok => exact .erase hseq hpending hok
  | program hseq hpending => exact .program hseq hpending

theorem Operates.fetch : s.fetch = some (s.stepInstr main) := by
  cases hop with
  | erase hseq hpending => simp [State.fetch, hseq, hpending]
  | program hseq hpending => simp [State.fetch, hseq, hpending]

variable (hok : s.cfg.ok = true) (hturn : s.blockTurn)
include hok hturn

theorem Operates.turn_step {i : Instr} {u : State} (hi : s.stepInstr main = i) (hu : exec i s.takeTurn = .next u) :
    Machine.step s = .next (u.afterTransaction (done u)) := by
  have hi' : s.takeTurn.stepInstr main = i := hi
  rw [step_block hok hturn, hop.takeTurn.blockMove, hi', hu]
  rfl

/-- Transaction `k` of the prelude is followed by transaction `k + 1` (R117, R124). -/
theorem Operates.prelude_turn {k : Nat} {p : List Byte} (hdrv : s.drv ≠ .faulted) (hmicro : s.micro = .issue k)
    (hp : s.cfg.writePrelude[k]? = some p) : s.fetch = some (.tRaw p) ∧
      ∃ u, exec (.tRaw p) s.takeTurn = .next u ∧ Machine.step s = .next { u with micro := .issue (k + 1) } := by
  have hi : s.stepInstr main = .tRaw p := by simp only [State.stepInstr, hmicro, preludeOr, hp]
  have hne : p ≠ [] := (Config.ok_preludes hok).2 p (List.mem_of_getElem? hp)
  have hexec : exec (.tRaw p) s.takeTurn = .next (s.takeTurn.afterRaw p) := execTRaw_next.2 ⟨hdrv, hne, rfl⟩
  refine ⟨by rw [hop.fetch, hi], _, hexec, ?_⟩
  rw [hop.turn_step hok hturn hi hexec,
    afterTransaction_issue (s := s.takeTurn.afterRaw p) hmicro (lt_length_of_getElem?_eq_some hp)]
  rfl

/-- The own transaction comes after the prelude and is followed by the first poll (R117, R124). -/
theorem Operates.own_turn {k : Nat} (hmicro : s.micro = .issue k) (hlast : s.cfg.writePrelude.length ≤ k) :
    s.fetch = some main ∧
      ∀ u, exec main s.takeTurn = .next u → Machine.step s = .next { u with micro := .poll } := by
  have hi : s.stepInstr main = main := by
    simp only [State.stepInstr, hmicro, preludeOr, List.getElem?_eq_none hlast]
  refine ⟨by rw [hop.fetch, hi], fun u hexec => ?_⟩
  have hframe := exec_spiFrame hop.link_spi hexec
  rw [hop.turn_step hok hturn hi hexec, afterTransaction_own (hframe.micro.trans hmicro) (hframe.cfg ▸ hlast)]
  rfl

omit hok hturn in
theorem Operates.poll_fetch (hmicro : s.micro = .poll) : s.fetch = some .tReadStatus := by
  rw [hop.fetch, stepInstr_poll hmicro]

end Operates

theorem eraseInstr_eq (s : State) : s.eraseInstr =
    if s.erAddr = 0 ∧ s.erCount.toNat = s.cfg.sectorCount then .tChipErase
    else .tSectorErase (BitVec.ofNat 32 (s.erAddr.toNat + s.erIdx.toNat * s.cfg.sectorSize)) := by
  simp [State.eraseInstr, eraseWholeChip]

/-- Settles O32, by the position in the step. -/
theorem eraseStepIssuesPreludeEraseThenPolls : Obligations.EraseStepIssuesPreludeEraseThenPolls := by
  intro s hok hturn hdrv hseq hpending hregion
  have hop := Operates.erase hseq hpending hregion
  refine ⟨fun k p hmicro hp => hop.prelude_turn hok hturn (by simp [hdrv]) hmicro hp, fun k i hmicro hlast hi => ?_,
    hop.poll_fetch⟩
  rw [hi, ← eraseInstr_eq]
  obtain ⟨hfetch, hown⟩ := hop.own_turn hok hturn hmicro hlast
  refine ⟨hfetch, fun hidle => ?_⟩
  obtain ⟨u, hexec⟩ := exec_eraseInstr_goes_on (s := s.takeTurn) hok hdrv hidle hseq hpending hregion
  exact ⟨u, hexec, hown u hexec⟩

/-- Settles O33, by the position in the step. -/
theorem programStepIssuesPreludeProgramThenPolls : Obligations.ProgramStepIssuesPreludeProgramThenPolls := by
  intro s hok hturn hdrv hseq hmore
  have hop := Operates.program hseq (decide_eq_true hmore)
  refine ⟨fun k p hmicro hp => hop.prelude_turn hok hturn (by simp [hdrv]) hmicro hp, ?_, hop.poll_fetch⟩
  rintro k a d hmicro hlast rfl rfl
  obtain ⟨hfetch, hown⟩ := hop.own_turn hok hturn hmicro hlast
  refine ⟨hfetch, fun hidle haddr => ?_⟩
  obtain ⟨u, hexec⟩ := exec_programInstr_goes_on (s := s.takeTurn) hok hdrv hidle haddr
  exact ⟨u, hexec, hown u hexec⟩

/-! ## The mode of write_bytes (R118, R153) -/

/-- Inside a call of `write_bytes` the mode stays. -/
theorem BlockMoves.keeps_pageMode (h : BlockMoves s t) (hs : s.seq = .wrProgram) : t.wrPageMode = s.wrPageMode := by
  cases h with
  | sendsOwn hop hexec => exact (exec_spiFrame hop.link_spi hexec).wrPageMode
  | pollsReady hop =>
    cases hop with
    | erase hseq => cases hs.symm.trans hseq
    | program => obtain ⟨-, h⟩ | h := programStepDone_cases s.afterReadStatus <;> rw [h] <;> rfl
  | initReadId hseq | erasesNothing hseq | latches hseq | accepts hseq => cases hs.symm.trans hseq
  | _ => rfl

/-- The mode of a call is chosen from its address as it begins. -/
theorem pageMode_beginProgram (s : State) : s.beginProgram.wrOff = 0 ∧
    (s.beginProgram.wrPageMode = true ↔ s.cfg.pageSize ≠ 0 ∧ s.curAddr.toNat % s.cfg.pageSize = 0) :=
  ⟨rfl, pageAligned_iff⟩

/-- A move from `S_WR_ERASE` to `S_WR_PROGRAM` begins the call. -/
theorem BlockMoves.begins_program (h : BlockMoves s t) (hs : s.seq = .wrErase) (ht : t.seq = .wrProgram) :
    t.wrOff = 0 ∧ (t.wrPageMode = true ↔ s.cfg.pageSize ≠ 0 ∧ s.curAddr.toNat % s.cfg.pageSize = 0) := by
  cases h with
  | erasesNothing => exact pageMode_beginProgram s
  | pollsReady hop =>
    cases hop with
    | program hseq => cases hs.symm.trans hseq
    | erase =>
      obtain h | ⟨-, h⟩ | h := eraseStepDone_cases s.afterReadStatus <;> rw [h] at ht ⊢
      · exact pageMode_beginProgram s.afterReadStatus
      · cases hs.symm.trans ht
      · exact pageMode_beginProgram s.afterReadStatus
  | sendsOwn hop hexec => cases hs.symm.trans ((exec_spiFrame hop.link_spi hexec).seq.symm.trans ht)
  | initReadId hseq | latches hseq | accepts hseq | beginsChunk hseq => cases hs.symm.trans hseq
  | initRaw | halted | waits | ignores | sendsPrelude | pollsBusy => cases hs.symm.trans ht
  | _ => cases ht

/-- Settles O34: short of a reset only a move of the block writes these registers. -/
theorem writeModeIsChosenOncePerCall : Obligations.WriteModeIsChosenOncePerCall := by
  intro s t hreset hstep ht
  obtain ⟨-, ⟨-, hblock⟩ | ⟨-, hhost⟩ | ⟨-, rfl⟩ | ⟨rfl, -⟩ | ⟨hnow, -⟩⟩ := step_cases hstep
  · have hmove := blockMove_cases hblock
    exact ⟨hmove.keeps_pageMode, fun hs => hmove.begins_program hs ht⟩
  · obtain ⟨⟨_, _, rfl⟩, -⟩ := hostMove_frame hhost
    exact ⟨fun _ => rfl, fun hs => by cases hs.symm.trans ht⟩
  · exact ⟨fun _ => rfl, fun hs => by cases hs.symm.trans ht⟩
  · exact ⟨fun _ => rfl, fun hs => by cases hs.symm.trans ht⟩
  · exact absurd hnow hreset

/-! ## After a poll (R126, R122, R118) -/

section Polls
variable {main : Instr} {done : State → State}

/-- A poll at the block's turn: it is repeated while it reads busy, and the first that does not ends the step. -/
theorem Operates.poll_turn (hop : Operates s main done) (hok : s.cfg.ok = true) (hturn : s.blockTurn)
    (hdrv : s.drv = .ready) (hmicro : s.micro = .poll) :
    (s.takeTurn.afterReadStatus.status &&& s.cfg.wipMask ≠ 0 → Machine.step s = .next s.takeTurn.afterReadStatus) ∧
      (s.takeTurn.afterReadStatus.status &&& s.cfg.wipMask = 0 →
        Machine.step s = .next (done s.takeTurn.afterReadStatus)) := by
  have hexec : exec .tReadStatus s.takeTurn = .next s.takeTurn.afterReadStatus := execTReadStatus_next.2 ⟨hdrv, rfl⟩
  have hbusy : s.takeTurn.afterReadStatus.flashBusy = (s.takeTurn.afterReadStatus.status &&& s.cfg.wipMask != 0) := rfl
  rw [hop.turn_step hok hturn (stepInstr_poll hmicro main) hexec,
    afterTransaction_poll (s := s.takeTurn.afterReadStatus) hmicro, hbusy]
  exact ⟨fun h => by rw [if_pos (bne_iff_ne.2 h)], fun h => by rw [if_neg (by simpa using h)]⟩

theorem eraseWholeChip_iff {c : Config} {a n : Word} :
    eraseWholeChip c a n = true ↔ a = 0 ∧ n.toNat = c.sectorCount := by
  simp [eraseWholeChip]

/-- The whole chip is one step, whatever `er_idx` holds (R122). -/
theorem eraseStepDone_of_whole (h : eraseWholeChip s.cfg s.erAddr s.erCount = true) :
    s.eraseStepDone = s.beginProgram := if_pos h

end Polls

section Done
variable {u : State} (hframe : SpiFrame s u)
include hframe

/-- What follows the last poll of an `erase_step`: the next sector, or the program of the chunk (R122). -/
theorem eraseStepDone_turn {whole : Prop} (hwhole : whole ↔ s.erAddr = 0 ∧ s.erCount.toNat = s.cfg.sectorCount) :
    (¬whole → (s.erIdx + 1).toNat < s.erCount.toNat →
      u.eraseStepDone = { u with erIdx := s.erIdx + 1, micro := .issue 0 }) ∧
    (whole ∨ s.erCount.toNat ≤ (s.erIdx + 1).toNat → ∃ e : Word, (¬whole → e = s.erIdx + 1) ∧
      u.eraseStepDone = { u with
        erIdx := e, seq := .wrProgram, micro := .issue 0, wrOff := 0,
        wrPageMode := decide (s.cfg.pageSize ≠ 0) && decide (s.curAddr.toNat % s.cfg.pageSize = 0) }) := by
  rw [← eraseWholeChip_iff, ← hframe.cfg, ← hframe.erAddr, ← hframe.erCount] at hwhole
  rw [← hframe.erIdx, ← hframe.erCount, ← hframe.cfg, ← hframe.curAddr]
  have hpart (h : ¬whole) := eraseStepDone_of_part (.refl u) (Bool.eq_false_of_not_eq_true fun h' => h (hwhole.2 h'))
  refine ⟨fun hnot hmore => ?_, fun hend => ?_⟩
  · rw [hpart hnot, if_pos hmore, State.nextSector]
  · by_cases h : whole
    · exact ⟨u.erIdx, fun hnot => absurd h hnot, eraseStepDone_of_whole (hwhole.1 h)⟩
    · refine ⟨u.erIdx + 1, fun _ => rfl, ?_⟩
      rw [hpart h, if_neg (Nat.not_lt.2 (hend.resolve_left h))]
      simp only [State.beginProgram, State.nextSector]
      rfl

/-- What follows the last poll of a `program_step`: the next bytes, or the end of the chunk (R118, R149). -/
theorem programStepDone_turn {w : Word} (hw : w = s.wrOff + BitVec.ofNat 32 s.programLen) :
    (w.toNat < s.chunkLen.toNat → u.programStepDone = { u with wrOff := w, micro := .issue 0 }) ∧
    (s.chunkLen.toNat ≤ w.toNat → u.programStepDone = { u with
      wrOff := w, micro := .issue 0, seq := .chunk,
      curAddr := s.curAddr + s.chunkLen, rem := s.rem - s.chunkLen }) := by
  have hlen : u.programLen = s.programLen := by
    simp only [State.programLen, hframe.cfg, hframe.wrPageMode, hframe.chunkLen, hframe.wrOff]
  rw [← hlen, ← hframe.wrOff] at hw
  rw [← hframe.chunkLen, ← hframe.curAddr, ← hframe.rem, State.programStepDone, State.programPending,
    State.nextProgram_wrOff, State.nextProgram_chunkLen, ← hw]
  refine ⟨fun hmore => ?_, fun hend => ?_⟩
  · rw [if_pos (decide_eq_true hmore), State.nextProgram, ← hw]
  · rw [if_neg (by simpa using hend)]
    simp only [State.advanceCursor, State.nextProgram, ← hw]

end Done

/-- Settles O36, by the operation, and in each by whether another step of it is pending. -/
theorem pollsUntilNotBusy : Obligations.PollsUntilNotBusy := by
  intro s hok hturn hdrv hmicro hregion hpending
  have hexec : exec .tReadStatus s.takeTurn = .next s.takeTurn.afterReadStatus := execTReadStatus_next.2 ⟨hdrv, rfl⟩
  have hframe := exec_spiFrame rfl hexec
  refine ⟨s.takeTurn.afterReadStatus, hexec, rfl, ?_⟩
  obtain ⟨hseq, hpending⟩ | ⟨hseq, hpending⟩ := hpending
  · obtain ⟨hbusy, hready⟩ := (Operates.erase hseq hpending hregion).poll_turn hok hturn hdrv hmicro
    refine ⟨hbusy, fun hstatus _ whole hwhole => ?_, fun _ hother => by simp [hseq] at hother⟩
    obtain ⟨hmore, hend⟩ := eraseStepDone_turn hframe (s := s.takeTurn) hwhole
    rw [hready hstatus]
    refine ⟨fun hnot h => congrArg _ (hmore hnot h), fun h => ?_⟩
    obtain ⟨e, he, hdone⟩ := hend h
    exact ⟨e, he, congrArg _ hdone⟩
  · obtain ⟨hbusy, hready⟩ := (Operates.program hseq hpending).poll_turn hok hturn hdrv hmicro
    refine ⟨hbusy, fun _ hother => by simp [hseq] at hother, fun hstatus _ w hw => ?_⟩
    obtain ⟨hmore, hend⟩ := programStepDone_turn hframe (s := s.takeTurn) hw
    rw [hready hstatus]
    exact ⟨fun h => congrArg _ (hmore h), fun h => congrArg _ (hend h)⟩

end Sys2Proof.Machine
end

section
/-!
Runs with no turn scheduled: out of reset (R111, R221), a whole frame (R140, R143), one chunk of payload (R158), and a
`WRITE_FLASH` to its end (R156).
-/
namespace Sys2Proof.Machine
variable {s : State}

theorem step_unscheduled (hok : s.cfg.ok = true) (hturns : s.turns = []) (hcan : s.blockCanMove = true) :
    step s = blockMove s := by
  rw [step_block hok (.inr ⟨hturns, hcan⟩), takeTurn_of_nil hturns]

theorem Reaches.cons {k : Nat} {t u : State} (h : step s = .next t) (ht : Reaches k t u) : Reaches (k + 1) s u :=
  reaches_succ.2 ⟨t, h, ht⟩

theorem Reaches.one {t : State} (h : step s = .next t) : Reaches 1 s t := .cons h rfl

/-- What every step keeps, a run keeps. -/
theorem Reaches.preserves {P : State → Prop} (hstep : ∀ s t, step s = .next t → P s → P t) : ∀ {k : Nat} {s u : State},
    Reaches k s u → P s → P u
  | 0, _, _, h, hs => by cases h; exact hs
  | _ + 1, _, _, h, hs =>
    have ⟨t, ht, h⟩ := reaches_succ.1 h
    h.preserves hstep (hstep _ _ ht hs)

/-! ## Out of reset -/

/-- The events of one transaction of a prelude (R97). -/
def rawEvents (p : List Byte) : List Event := .cs true :: p.map (fun b => .xfer b none) ++ [.cs false]

theorem blockCanMove_init (hseq : s.seq = .init) : s.blockCanMove = true :=
  blockCanMove_of_not_reads (by simp [hseq]) (by simp [State.reads, hseq])

/-- Transaction `k` of the prelude (R111). -/
theorem init_prelude_step {k : Nat} (hok : s.cfg.ok = true) (hturns : s.turns = []) (hseq : s.seq = .init)
    (hdrv : s.drv ≠ .faulted) (hmicro : s.micro = .issue k) (hk : k < s.cfg.initPrelude.length) :
    step s = .next ((s.afterRaw s.cfg.initPrelude[k]).setMicro (.issue (k + 1))) := by
  have hp : s.cfg.initPrelude[k]? = some s.cfg.initPrelude[k] := List.getElem?_eq_getElem hk
  have hne : s.cfg.initPrelude[k] ≠ [] := (Config.ok_preludes hok).1 _ (List.getElem_mem hk)
  have hi : s.initInstr = .tRaw s.cfg.initPrelude[k] := by simp only [State.initInstr, hmicro, preludeOr, hp]
  have hexec : exec (.tRaw s.cfg.initPrelude[k]) s = .next (s.afterRaw s.cfg.initPrelude[k]) :=
    execTRaw_next.2 ⟨hdrv, hne, rfl⟩
  rw [step_unscheduled hok hturns (blockCanMove_init hseq), blockMove_init hseq, hi, hexec, andThen,
    afterInit_issue (s := s.afterRaw _) hmicro hk]

/-- The rest of the prelude goes out in list order, from transaction `k` on, one step each. -/
theorem init_prelude_reaches {j : Nat} : ∀ {s : State} {k : Nat}, s.cfg.ok = true → s.turns = [] → s.seq = .init →
    s.drv ≠ .faulted → s.micro = .issue k → k + j = s.cfg.initPrelude.length →
    ∃ u, Reaches j s u ∧ Transacts s u ∧ s.flash.Keeps u.flash ∧ u.micro = .issue s.cfg.initPrelude.length ∧
      Appends s u ((s.cfg.initPrelude.drop k).flatMap rawEvents) := by
  induction j with
  | zero =>
    intro s k _ _ _ _ hmicro hk
    refine ⟨s, rfl, .refl s, Flash.keeps_refl _, hk ▸ hmicro, ?_⟩
    rw [List.drop_of_length_le (Nat.add_zero k ▸ hk.ge)]
    exact (List.append_nil _).symm
  | succ j ih =>
    intro s k hok hturns hseq hdrv hmicro hk
    have hlt : k < s.cfg.initPrelude.length := by omega
    have hstep := init_prelude_step hok hturns hseq hdrv hmicro hlt
    obtain ⟨u, hreaches, hframe, hkeeps, humicro, happends⟩ :=
      ih (s := (s.afterRaw s.cfg.initPrelude[k]).setMicro (.issue (k + 1))) hok hturns hseq hdrv rfl
        ((Nat.add_right_comm k 1 j).trans hk)
    refine ⟨u, .cons hstep hreaches, Transacts.trans ⟨_, _, _, _, _, _, rfl⟩ hframe,
      (Flash.keeps_raw _ _).trans hkeeps, humicro, ?_⟩
    rw [List.drop_eq_getElem_cons hlt, List.flatMap_cons, Appends, ← List.append_assoc]
    exact happends

/-- The registers after the identity read decide as the chip's identity does (R111, R112, R190). -/
theorem checkIdentity_afterReadId (s : State) :
    if s.flash.chipMfr = s.cfg.expMfr ∧ s.flash.chipDev = s.cfg.expDev then
      s.afterReadId.checkIdentity.drv = .ready ∧ s.afterReadId.checkIdentity.seq = .waitCmd ∧
        s.afterReadId.checkIdentity.faultCause = s.faultCause
    else s.afterReadId.checkIdentity.drv = .faulted ∧ s.afterReadId.checkIdentity.seq = .halt ∧
      s.afterReadId.checkIdentity.faultCause = .identityMismatch := by
  rw [State.checkIdentity, if_congr (afterReadId_identityOk s) rfl rfl]
  split <;> exact ⟨rfl, rfl, rfl⟩

/-- Neither outcome of the identity check writes the latches, the chip-select or the record. -/
theorem checkIdentity_keeps (t : State) : t.checkIdentity.idMfr = t.idMfr ∧ t.checkIdentity.idDev = t.idDev ∧
    t.checkIdentity.cs = t.cs ∧ t.checkIdentity.trace = t.trace := by
  obtain ⟨-, h⟩ | ⟨-, h⟩ := checkIdentity_cases t <;> rw [h] <;> exact ⟨rfl, rfl, rfl, rfl⟩

/-- Settles O7: one step out of `S_RESET`, one for each transaction of the prelude, one for the identity read. -/
theorem initializeRunsPreludeThenChecksIdentity : Obligations.InitializeRunsPreludeThenChecksIdentity := by
  refine ⟨identityOk_iff, fun s hok hseq hturns => ?_⟩
  have hreset : step s = .next s.enterInit := by
    rw [step_unscheduled hok hturns (blockCanMove_of_not_reads (by simp [hseq]) (by simp [State.reads, hseq])),
      blockMove_reset hseq]
  obtain ⟨v, hprelude, hframe, hkeeps, hmicro, hevents⟩ :=
    init_prelude_reaches (s := s.enterInit) (j := s.cfg.initPrelude.length) hok hturns rfl nofun rfl (Nat.zero_add _)
  have hregs : v.cfg = s.cfg ∧ v.turns = [] ∧ v.seq = .init ∧ v.drv = .verifying ∧ v.faultCause = s.faultCause := by
    obtain ⟨_, _, _, _, _, _, rfl⟩ := hframe
    exact ⟨rfl, hturns, rfl, rfl, rfl⟩
  obtain ⟨hcfg, hvturns, hvseq, hvdrv, hcause⟩ := hregs
  have hmfr : v.flash.chipMfr = s.flash.chipMfr := hkeeps.chipMfr
  have hdev : v.flash.chipDev = s.flash.chipDev := hkeeps.chipDev
  have hlast : step v = .next v.afterReadId.checkIdentity := by
    rw [step_unscheduled (hcfg ▸ hok) hvturns (blockCanMove_init hvseq), blockMove_init_last hvseq (by simp [hvdrv])]
    rw [hmicro, hcfg]
    rintro _ ⟨⟩
    exact Nat.le_refl _
  obtain ⟨hidMfr, hidDev, hcs, htrace⟩ := checkIdentity_keeps v.afterReadId
  have houtcome := checkIdentity_afterReadId v
  rw [hmfr, hdev, hcfg, hcause] at houtcome
  refine ⟨v.afterReadId.checkIdentity, ?_, ?_, ?_, ?_, ?_, houtcome⟩
  · have hrest := hprelude.trans (.one hlast)
    rw [Nat.add_comm] at hrest
    exact .cons hreset hrest
  · have hevents : v.trace = s.trace ++ s.cfg.initPrelude.flatMap rawEvents := hevents
    rw [Appends, htrace, afterReadId_eq, hevents, hcfg, hmfr, hdev, List.append_assoc]
    rfl
  · rw [hidMfr, afterReadId_eq, ← hmfr]
  · rw [hidDev, afterReadId_eq, ← hdev]
  · rw [hcs, afterReadId_eq]

/-! ## A whole frame -/

/-- The block in `S_HDR` under opcode `b`: `i` header bytes are in, the fields built so far are `a` and `n`, the bytes `q`
wait and `tr` has been recorded. -/
def State.inHeader (s : State) (b : Byte) (i : BitVec 3) (a n : Word) (q : List Byte) (tr : List Event) : State :=
  { s with op := b, seq := .hdr, hdrIdx := i, reqAddr := a, reqLen := n, rxQ := q, ledBusy := true, trace := tr }

section Frame
variable {b h : Byte} {i : BitVec 3} {a n : Word} {q : List Byte} {tr : List Event}

/-- A byte of the address (R143). -/
theorem step_inHeader_address (hok : s.cfg.ok = true) (hturns : s.turns = []) (hi : i.toNat < 4) :
    step (s.inHeader b i a n (h :: q) tr) = .next (s.inHeader b (i + 1) (shiftIn a h) n q (tr ++ [.rx h])) := by
  have hcan : (s.inHeader b i a n (h :: q) tr).blockCanMove = true := blockCanMove_of_rxQ nofun rfl
  have hnot : i ≠ 7 := by rintro rfl; exact absurd hi (by decide)
  rw [step_unscheduled (s := s.inHeader b i a n (h :: q) tr) hok hturns hcan, blockMove_hdr_byte rfl rfl hnot,
    State.latchHeader, if_pos (by exact hi)]
  rfl

/-- A byte of the length that is not the last (R143). -/
theorem step_inHeader_length (hok : s.cfg.ok = true) (hturns : s.turns = []) (hi : 4 ≤ i.toNat) (hnot : i ≠ 7) :
    step (s.inHeader b i a n (h :: q) tr) = .next (s.inHeader b (i + 1) a (shiftIn n h) q (tr ++ [.rx h])) := by
  have hcan : (s.inHeader b i a n (h :: q) tr).blockCanMove = true := blockCanMove_of_rxQ nofun rfl
  rw [step_unscheduled (s := s.inHeader b i a n (h :: q) tr) hok hturns hcan, blockMove_hdr_byte rfl rfl hnot,
    State.latchHeader, if_neg (by exact Nat.not_lt.2 hi)]
  rfl

/-- The first opcode byte opens the header (R141). -/
theorem step_opens (hok : s.cfg.ok = true) (hturns : s.turns = []) (hseq : s.seq = .waitCmd) (hrx : s.rxQ = b :: q)
    (hb : isOpcode b = true) : step s = .next (s.inHeader b 0 0 0 q
      (s.trace ++ (.rx b :: if s.ledBusy = true then [] else [.led true]))) := by
  rw [step_unscheduled hok hturns (blockCanMove_of_rxQ (by simp [hseq]) hrx), blockMove_waitCmd_opcode hseq hrx hb]
  simp only [State.openHeader, State.led, State.serialTake, State.inHeader, hrx, List.tail_cons]
  split <;> simp

theorem fetch_inHeader : (s.inHeader b 7 a n (h :: q) tr).fetch = some (commandOf b a (shiftIn n h)) := by
  simp [State.fetch, State.inHeader]

theorem beforeInstr_inHeader : (s.inHeader b 7 a n (h :: q) tr).beforeInstr =
    s.inHeader b 7 a (shiftIn n h) q (tr ++ [.rx h]) := by
  simp [State.beforeInstr, State.inHeader, State.latchHeader, State.serialTake]

/-- Either command of a frame is the request its opcode stands for (R145). -/
theorem exec_commandOf (t : State) (b : Byte) (a n : Word) : exec (commandOf b a n) t =
    acceptRequest t (if b = opReadFlash then opReadFlash else opWriteFlash) a n := by
  rw [commandOf]
  split <;> rfl

/-- The step that takes the last header byte is the command (R143, R144). -/
theorem step_inHeader_last (hok : s.cfg.ok = true) (hturns : s.turns = []) :
    step (s.inHeader b 7 a n (h :: q) tr) =
      exec (commandOf b a (shiftIn n h)) (s.inHeader b 7 a n (h :: q) tr).beforeInstr := by
  have hcan : (s.inHeader b 7 a n (h :: q) tr).blockCanMove = true := blockCanMove_of_rxQ nofun rfl
  rw [step_unscheduled (s := s.inHeader b 7 a n (h :: q) tr) hok hturns hcan, blockMove_hdr_last rfl rfl rfl]
  exact (exec_commandOf _ b a _).symm

end Frame

/-- The opcode and the seven header bytes before the last are taken one a step (R140, R143). -/
theorem header_reaches {b h1 h2 h3 h4 h5 h6 h7 : Byte} {q : List Byte} (hok : s.cfg.ok = true) (hturns : s.turns = [])
    (hseq : s.seq = .waitCmd) (hrx : s.rxQ = b :: h1 :: h2 :: h3 :: h4 :: h5 :: h6 :: h7 :: q) (hb : isOpcode b = true) :
    Reaches 8 s (s.inHeader b 7 (joinBe32 h1 h2 h3 h4) (shiftIn (shiftIn (shiftIn 0 h5) h6) h7) q
      (s.trace ++ ((Event.rx b :: if s.ledBusy = true then [] else [Event.led true])
        ++ [h1, h2, h3, h4, h5, h6, h7].map Event.rx))) := by
  have haddress {i : BitVec 3} {a n h q tr} (hi : i.toNat < 4) := step_inHeader_address (b := b) (i := i) (a := a)
    (n := n) (h := h) (q := q) (tr := tr) hok hturns hi
  have hlength {i : BitVec 3} {a n h q tr} (hi : 4 ≤ i.toNat) (hnot : i ≠ 7) := step_inHeader_length (b := b) (i := i)
    (a := a) (n := n) (h := h) (q := q) (tr := tr) hok hturns hi hnot
  have hevents (es : List Event) : s.trace ++ (es ++ [h1, h2, h3, h4, h5, h6, h7].map Event.rx) =
      s.trace ++ es ++ [Event.rx h1] ++ [Event.rx h2] ++ [Event.rx h3] ++ [Event.rx h4] ++ [Event.rx h5]
        ++ [Event.rx h6] ++ [Event.rx h7] := by simp
  rw [← shiftIn_four, hevents]
  exact .cons (step_opens hok hturns hseq hrx hb) <| .cons (haddress (by decide)) <| .cons (haddress (by decide)) <|
    .cons (haddress (by decide)) <| .cons (haddress (by decide)) <| .cons (hlength (by decide) (by decide)) <|
    .cons (hlength (by decide) (by decide)) <| .one (hlength (by decide) (by decide))

/-- Settles O24: after the eight bytes, the step that takes the ninth is the command. -/
theorem frameIsRunByItsLastByte : Obligations.FrameIsRunByItsLastByte := by
  intro b h1 h2 h3 h4 h5 h6 h7 h8 rest i s hok hseq hturns hb hrx hdecode
  have hop : isOpcode b = true := isOpcode_iff.2 hb
  obtain rfl : commandOf b (joinBe32 h1 h2 h3 h4) (joinBe32 h5 h6 h7 h8) = i := by
    rw [hrx, decodeFrame, if_pos hop] at hdecode
    exact (Decoded.instr.inj hdecode).1
  rw [← shiftIn_four h5]
  refine ⟨_, _, header_reaches hok hturns hseq hrx hop, fetch_inHeader, rfl, step_inHeader_last hok hturns, ?_⟩
  rw [beforeInstr_inHeader, ← shiftIn_four h1, Appends]
  exact ⟨rfl, rfl, rfl, rfl, rfl, rfl, rfl, rfl, rfl, by simp [State.inHeader]⟩

end Sys2Proof.Machine
end

section
/-! One chunk of payload (R158), and a `WRITE_FLASH` to its end (R156). -/
namespace Sys2Proof.Machine
variable {s : State}

/-- Settles O39: what the run of the payload leaves alone and what it leaves in the staging buffer. -/
theorem readyAndPayloadAlternate : Obligations.ReadyAndPayloadAlternate := by
  intro D way s hok hseq hdrv hturns hidx hD hlen hbuf hway
  have hzero : s.bufIdx.toNat = 0 := by rw [hidx]; rfl
  obtain ⟨v, ⟨⟨k, hreaches⟩, hevents⟩, hframe, hvbuf, hdone⟩ := payload_arrives ⟨hok, hdrv, hturns⟩ hseq hD
    (by rw [hzero, hlen, Nat.zero_add]) (hlen ▸ hbuf) hway
  have hflash : v.flash = s.flash := by
    obtain ⟨_, _, _, _, _, _, _, rfl⟩ := hframe
    rfl
  refine ⟨v.beginErase, k, hreaches, hevents, rfl, ?_, hflash, hdone⟩
  rw [← splice_zero, ← hzero]
  exact hvbuf

/-- No step leaves the chip selected. -/
theorem step_cs {t : State} (hstep : step s = .next t) (hcs : s.cs = false) : t.cs = false := by
  obtain ⟨-, ⟨-, hblock⟩ | ⟨-, hhost⟩ | ⟨-, rfl⟩ | ⟨rfl, -⟩ | ⟨-, rfl | ⟨k, hcut⟩⟩⟩ := step_cases hstep
  · exact (blockMove_cases hblock).cs hcs
  · obtain ⟨⟨_, _, rfl⟩, -⟩ := hostMove_frame hhost
    exact hcs
  · exact hcs
  · exact hcs
  · rfl
  · obtain ⟨i, u, -, -, -, -, rfl⟩ | rfl := cutMove_next hcut <;> rfl

/-- With an aligned address, or one chunk, no chunk erases what an earlier one stored (R157). -/
theorem kept_of_aligned_or_one_chunk {S a i n : Nat} (hS : 0 < S) (hi : i < n) (h : a % S = 0 ∨ n ≤ S) :
    i / S = (n - 1) / S ∨ i % S < S - a % S := by
  obtain haligned | hone := h
  · exact .inr (by rw [haligned]; exact Nat.mod_lt i hS)
  · exact .inl (by rw [Nat.div_eq_of_lt (by omega), Nat.div_eq_of_lt (by omega)])

/-- The covering sectors are erased, and nothing if there is no payload (R156). -/
theorem Memory.read_storeChunks_not_payload {S : Nat} {m : Memory} {a x : Nat} {D : List Byte} (hS : 0 < S)
    (hm : m.wf = true) (hx : x < a ∨ a + D.length ≤ x) : Memory.read (Memory.storeChunks S m a D) x =
      if 1 ≤ D.length ∧ a / S ≤ x / S ∧ x / S ≤ (a + D.length - 1) / S then Memory.blank else Memory.read m x := by
  by_cases hD : 1 ≤ D.length
  · rw [Memory.read_storeChunks_outside hS D hm hD hx, if_congr (and_iff_right hD) rfl rfl]
  · obtain rfl : D = [] := List.eq_nil_of_length_eq_zero (by omega)
    rw [Memory.storeChunks_nil, if_neg fun h => hD h.1]

/-- Settles O41: the command runs to its end and leaves the chunks of the payload, none of which erases another. -/
theorem writeFlashStoresThePayload : Obligations.WriteFlashStoresThePayload := by
  intro a n D way s hok hdrv hturns hidle hwf hbelow hbuf hcs hdraws hfits hlen hway hkept
  rw [← hlen] at hkept ⊢
  have hsector := (Config.ok_geometry hok).1
  have hstart := writing_loadCursor (a := a) ⟨hok, hdrv, hturns⟩ hfits hbuf hlen hway ⟨rfl, hidle, hdraws⟩ hwf hbelow
  obtain ⟨u, ⟨es, ⟨⟨k, hreaches⟩, happends⟩, hserial⟩, hframe, hseq, hled, hrem, hdone, hrests⟩ :=
    Writing.runs hok D (s := s.loadCursor opWriteFlash a n) rfl hstart
  have hucs : u.cs = false := hreaches.preserves (P := fun t => t.cs = false) (fun _ _ => step_cs) hcs
  refine ⟨s.loadCursor opWriteFlash a n, u, k, es, execWriteFlash_next.2 ⟨hdrv, hfits, rfl⟩, hreaches, hseq,
    hframe.drv.trans hdrv, hled, hucs, hrem, hrests.wip_eq, hdone, happends, hserial, fun i hi => ?_, fun x hx => ?_,
    hframe.idMfr, hframe.idDev, hframe.faultCause⟩
  · rw [hrests.mem_eq]
    exact Memory.read_storeChunks_kept hsector D hwf hi (kept_of_aligned_or_one_chunk hsector hi hkept)
  · rw [hrests.mem_eq]
    exact Memory.read_storeChunks_not_payload hsector hwf hx

end Sys2Proof.Machine
end

section
/-! A `READ_FLASH` to its end, chunk by chunk (R145 to R149, R154, R155). -/
namespace Sys2Proof.Machine
variable {s t u : State}

/-- What a `READ_FLASH` leaves alone, of the registers outside it and of the chip. -/
structure ReadFrame (s t : State) : Prop where
  command : CommandFrame s t
  rxQ     : t.rxQ = s.rxQ
  status  : t.status = s.status
  mem     : t.flash.mem = s.flash.mem
  wip     : t.flash.wip = s.flash.wip

theorem ReadFrame.trans (h : ReadFrame s t) (ht : ReadFrame t u) : ReadFrame s u :=
  ⟨h.command.trans ht.command, ht.rxQ.trans h.rxQ, ht.status.trans h.status, ht.mem.trans h.mem, ht.wip.trans h.wip⟩

/-- Some number of steps leads from `s` to `t` and sends the host the bytes `E`. -/
def Sends (s : State) (E : List Byte) (t : State) : Prop :=
  (∃ k, Reaches k s t) ∧ ReadFrame s t ∧ t.host.inbox = s.host.inbox ++ E

theorem Sends.trans {E F : List Byte} (h : Sends s E t) (ht : Sends t F u) : Sends s (E ++ F) u := by
  obtain ⟨⟨k, hk⟩, hframe, hinbox⟩ := h
  obtain ⟨⟨j, hj⟩, htframe, htinbox⟩ := ht
  exact ⟨⟨j + k, hk.trans hj⟩, hframe.trans htframe, by rw [htinbox, hinbox, List.append_assoc]⟩

theorem Sends.of_step {E : List Byte} (h : step s = .next t) (hframe : ReadFrame s t)
    (hinbox : t.host.inbox = s.host.inbox ++ E) : Sends s E t :=
  ⟨⟨1, .one h⟩, hframe, hinbox⟩

/-! ## Draining a chunk (R148, R149) -/

/-- What is left of the chunk in the staging buffer is sent byte by byte, and the cursor advances. -/
theorem drains {E : List Byte} : ∀ {s : State} {rest : List Byte}, Running s → s.seq = .rdDrain → E ≠ [] →
    s.chunkLen.toNat = s.bufIdx.toNat + E.length → s.buf.drop s.bufIdx.toNat = E ++ rest →
    ∃ t, Sends s E t ∧ t.seq = .chunk ∧ t.op = s.op ∧ t.curAddr = s.curAddr + s.chunkLen ∧
      t.rem = s.rem - s.chunkLen := by
  induction E with
  | nil => intro _ _ _ _ hE; contradiction
  | cons b E ih =>
    intro s rest hrun hseq _ hlen hbuf
    rw [List.length_cons] at hlen
    have hbyte : s.buf[s.bufIdx.toNat]? = some b := by
      rw [← Nat.add_zero s.bufIdx.toNat, ← List.getElem?_drop, hbuf]
      rfl
    have hcan : s.blockCanMove = true := blockCanMove_of_not_reads (by simp [hseq]) (by simp [State.reads, hseq])
    have hstep := hrun.step_block hcan
    rw [blockMove_rdDrain hseq, drainByte, hbyte] at hstep
    by_cases hE : E = []
    · subst hE
      rw [show s.moreBytes = false from decide_eq_false (Nat.not_lt.2 hlen.le)] at hstep
      exact ⟨_, .of_step hstep ⟨⟨rfl, rfl, rfl, rfl, rfl, rfl, rfl⟩, rfl, rfl, rfl, rfl⟩ rfl, rfl, rfl, rfl, rfl⟩
    · have hpos : 0 < E.length := List.length_pos_iff.2 hE
      have hnext : (s.bufIdx + 1).toNat = s.bufIdx.toNat + 1 := toNat_add_one_of_lt (y := s.chunkLen) (by omega)
      rw [show s.moreBytes = true from decide_eq_true (by omega)] at hstep
      obtain ⟨t, hsends, hrest⟩ := ih (s := (s.serialWrite b).nextByte .rdDrain) (rest := rest)
        ⟨hrun.cfg_ok, hrun.drv_eq, hrun.turns_nil⟩ rfl hE (show s.chunkLen.toNat = (s.bufIdx + 1).toNat + _ by omega)
        (show s.buf.drop (s.bufIdx + 1).toNat = _ by rw [hnext, ← List.tail_drop, hbuf]; rfl)
      have hfirst : Sends s [b] ((s.serialWrite b).nextByte .rdDrain) :=
        .of_step hstep ⟨⟨rfl, rfl, rfl, rfl, rfl, rfl, rfl⟩, rfl, rfl, rfl, rfl⟩ rfl
      exact ⟨t, hfirst.trans hsends, hrest⟩

/-! ## The command -/

/-- The block is in `S_CHUNK` of a `READ_FLASH` with `n` bytes still to be read from `a`, and the chip is idle. -/
structure Reading (s : State) (a n : Nat) : Prop where
  running : Running s
  seq_eq  : s.seq = .chunk
  op_eq   : s.op = opReadFlash
  cur_eq  : s.curAddr.toNat = a
  rem_eq  : s.rem.toNat = n
  fits    : a + n ≤ s.cfg.totalSize
  idle    : s.flash.wip = false

theorem Memory.slice_add (m : Memory) (a j k : Nat) :
    Memory.slice m a (j + k) = Memory.slice m a j ++ Memory.slice m (a + j) k := by
  simp [Memory.slice, List.range_add, Nat.add_assoc]

section Chunk
variable {a n : Nat}

theorem Reading.step (h : Reading s a n) : step s = .next s.decideChunk := by
  have hcan : s.blockCanMove = true := blockCanMove_of_not_reads (by simp [h.seq_eq]) (by simp [State.reads, h.seq_eq])
  rw [h.running.step_block hcan, blockMove_chunk h.seq_eq]

/-- The chunk that begins has `min(rem, SECTOR_SIZE)` bytes (R145). -/
theorem Reading.toNat_chunkLen (h : Reading s a n) : s.beginChunk.chunkLen.toNat = min n s.cfg.sectorSize := by
  rw [← h.rem_eq]
  exact Nat.mod_eq_of_lt (lt_of_le_of_lt (Nat.min_le_left ..) s.rem.isLt)

theorem Reading.beginChunk_sends (h : Reading s a n) (hn : 1 ≤ n) : Sends s [] s.beginChunk := by
  have hrem : s.rem ≠ 0 := ne_zero_of_one_le (h.rem_eq ▸ hn)
  have hstep := h.step
  rw [State.decideChunk, if_neg hrem] at hstep
  exact .of_step hstep ⟨⟨rfl, rfl, rfl, rfl, rfl, rfl, rfl⟩, rfl, rfl, rfl, rfl⟩ (List.append_nil _).symm

/-- The burst of the chunk fills the staging buffer (R147). -/
theorem Reading.fills_sends (h : Reading s a n) (hn : 1 ≤ n) :
    Sends s.beginChunk [] (s.beginChunk.afterRead s.curAddr s.beginChunk.chunkLen).beginDrain := by
  have hsector := (Config.ok_geometry h.running.cfg_ok).1
  have hcur := h.cur_eq
  have hfits := h.fits
  have hlen := h.toNat_chunkLen
  have haddr := spiAddr_of_lt h.running.cfg_ok (a := s.curAddr) (by omega)
  have hseq : s.beginChunk.seq = .rdFill := if_pos h.op_eq
  have hcan : s.beginChunk.blockCanMove = true :=
    blockCanMove_of_not_reads (by rw [hseq]; decide) (by simp [State.reads, h.op_eq])
  have hread : execTRead s.curAddr s.beginChunk.chunkLen s.beginChunk =
      .next (s.beginChunk.afterRead s.curAddr s.beginChunk.chunkLen) :=
    execTRead_next.2 ⟨h.running.drv_eq, .inr ⟨ne_zero_of_one_le (by omega), by rw [State.beginChunk_cfg]; omega,
      by rw [State.beginChunk_cfg, haddr]; omega, h.idle, rfl⟩⟩
  have hstep : Machine.step s.beginChunk =
      .next (s.beginChunk.afterRead s.curAddr s.beginChunk.chunkLen).beginDrain := by
    rw [step_unscheduled (s := s.beginChunk) h.running.cfg_ok h.running.turns_nil hcan, blockMove_rdFill hseq,
      State.beginChunk_curAddr, hread]
    rfl
  exact .of_step hstep ⟨⟨rfl, rfl, rfl, rfl, rfl, rfl, rfl⟩, rfl, rfl, rfl, rfl⟩ (List.append_nil _).symm

/-- A chunk is read and sent: the same holds of the rest, from the next address on. -/
theorem Reading.chunk_sends (h : Reading s a n) (hn : 1 ≤ n) :
    ∃ t, Sends s (Memory.slice s.flash.mem a (min n s.cfg.sectorSize)) t ∧
      Reading t (a + min n s.cfg.sectorSize) (n - min n s.cfg.sectorSize) := by
  have hsector := (Config.ok_geometry h.running.cfg_ok).1
  have hcur := h.cur_eq
  have hrem := h.rem_eq
  have hfits := h.fits
  have hlen := h.toNat_chunkLen
  have htotal := (Config.ok_sizes h.running.cfg_ok).1
  have haddr := spiAddr_of_lt h.running.cfg_ok (a := s.curAddr) (by omega)
  have hslice : Memory.slice s.flash.mem (spiAddr s.cfg s.curAddr) s.beginChunk.chunkLen.toNat =
      Memory.slice s.flash.mem a (min n s.cfg.sectorSize) := by rw [haddr, hcur, hlen]
  have hE : Memory.slice s.flash.mem a (min n s.cfg.sectorSize) ≠ [] :=
    List.ne_nil_of_length_pos (by rw [Memory.length_slice]; omega)
  obtain ⟨t, hdrained, hseq, hop, htcur, htrem⟩ :=
    drains (s := (s.beginChunk.afterRead s.curAddr s.beginChunk.chunkLen).beginDrain)
      (rest := s.buf.drop (Memory.slice s.flash.mem a (min n s.cfg.sectorSize)).length)
      ⟨h.running.cfg_ok, h.running.drv_eq, h.running.turns_nil⟩ rfl hE
      (by rw [Memory.length_slice, ← hlen]; exact (Nat.zero_add _).symm) (by rw [← hslice]; rfl)
  have hsends := ((h.beginChunk_sends hn).trans (h.fills_sends hn)).trans hdrained
  have htcur : t.curAddr = s.curAddr + s.beginChunk.chunkLen := htcur
  have htrem : t.rem = s.rem - s.beginChunk.chunkLen := htrem
  have hframe := hsends.2.1
  refine ⟨t, hsends, h.running.commandFrame hframe.command, hseq, hframe.command.op.trans h.op_eq, ?_, ?_, ?_, ?_⟩
  · rw [htcur, BitVec.toNat_add_of_lt (by omega), hlen, hcur]
  · rw [htrem, BitVec.toNat_sub_of_le (by rw [BitVec.le_def]; omega), hlen, hrem]
  · rw [hframe.command.cfg]; omega
  · exact hframe.wip.trans h.idle

/-- With nothing left to read the command is complete (R145, R154). -/
theorem Reading.end_sends (h : Reading s a 0) : Sends s [] s.endCommand := by
  have hrem : s.rem = 0 := BitVec.eq_of_toNat_eq h.rem_eq
  have hstep := h.step
  rw [State.decideChunk, if_pos hrem] at hstep
  exact .of_step hstep ⟨⟨rfl, rfl, rfl, rfl, rfl, rfl, rfl⟩, rfl, rfl, rfl, rfl⟩ (List.append_nil _).symm

end Chunk

/-- A `READ_FLASH` runs to its end and has sent the bytes it was to read. -/
theorem Reading.sends {n : Nat} : ∀ {s : State} {a : Nat}, Reading s a n →
    ∃ u, Sends s (Memory.slice s.flash.mem a n) u ∧ u.seq = .waitCmd ∧ u.ledBusy = false ∧ u.rem = 0 := by
  induction n using Nat.strong_induction_on with
  | _ n ih =>
    intro s a h
    rcases Nat.eq_zero_or_pos n with rfl | hn
    · exact ⟨s.endCommand, h.end_sends, rfl, rfl, BitVec.eq_of_toNat_eq h.rem_eq⟩
    · have hsector := (Config.ok_geometry h.running.cfg_ok).1
      obtain ⟨t, hchunk, hrest⟩ := h.chunk_sends hn
      obtain ⟨u, hsends, hend⟩ := ih _ (by omega) hrest
      rw [hchunk.2.1.mem] at hsends
      have hall := hchunk.trans hsends
      rw [← Memory.slice_add, Nat.add_sub_cancel' (Nat.min_le_left ..)] at hall
      exact ⟨u, hall, hend⟩

/-- Settles O40: the request begins the command with all of its bytes still to be read. -/
theorem readFlashSendsFlashContent : Obligations.ReadFlashSendsFlashContent := by
  intro a n s hok hdrv hturns hidle _ hcs hfits
  have hstart : Reading (s.loadCursor opReadFlash a n) a.toNat n.toNat :=
    ⟨⟨hok, hdrv, hturns⟩, rfl, rfl, rfl, rfl, hfits, hidle⟩
  obtain ⟨u, ⟨⟨k, hreaches⟩, hframe, hinbox⟩, hseq, hled, hrem⟩ := hstart.sends
  have hucs : u.cs = false := hreaches.preserves (P := fun t => t.cs = false) (fun _ _ => step_cs) hcs
  exact ⟨s.loadCursor opReadFlash a n, u, k, execReadFlash_next.2 ⟨hdrv, hfits, rfl⟩, hreaches, hseq,
    hframe.command.drv.trans hdrv, hled, hucs, hrem, hinbox, hframe.rxQ, hframe.mem, hframe.wip.trans hidle,
    hframe.command.idMfr, hframe.command.idDev, hframe.status, hframe.command.faultCause⟩

end Sys2Proof.Machine
end

section
/-! A reset inside an SPI transaction, over an idle chip (R223, U8). -/
namespace Sys2Proof.Machine
variable {s u : State} {k : Nat}

/-- With an instruction of the SPI link fetched, the turn cuts its transaction short. -/
theorem step_cutShort {i : Instr} (hok : s.cfg.ok = true) (hturn : s.turns.head? = some (.cut k))
    (hfetch : s.fetch = some i) (hi : i.link = .spi) (hregion : s.eraseRefused = false)
    (hexec : exec i s.takeTurn = .next u) : step s = .next (s.takeTurn.cutShort k i u) := by
  have hfetch' : s.takeTurn.fetch = some i := hfetch
  have hregion' : s.takeTurn.eraseRefused = false := hregion
  rw [step_cut hok hturn]
  simp only [cutMove, hfetch', hi, hregion', hexec, andThen, if_true, Bool.false_eq_true, if_false]

/-- A program or erase torn by a reset changes no byte outside those it works on (R223, U8). -/
theorem Flash.read_torn_modify {c : Config} {f : Flash} {m : Memory} {b n d x : Nat} (hidle : f.wip = false)
    (hm : m.wf = true) (hx : x < b ∨ b + n ≤ x) (hsame : Memory.read m x = Memory.read f.mem x) :
    Memory.read ((f.modify c m b n).torn d).mem x = Memory.read f.mem x := by
  obtain ⟨-, h⟩ | ⟨-, h⟩ := Flash.modify_cases c f m b n <;> rw [h]
  · exact (Flash.read_torn (f := f.begin m b n) hm hx).trans hsame
  · rw [Flash.torn_idle (f := f.endRaw) hidle]
    rfl

theorem outside_page {p a x : Nat} (hx : x / p ≠ a / p) : x < a / p * p ∨ a / p * p + p ≤ x := by
  by_contra hin
  exact hx (Nat.div_eq_of_lt_le (by omega) (by rw [Nat.add_mul, Nat.one_mul]; omega))

/-- A cut program changes no byte outside its page (R57, R223). -/
theorem cutShort_tProgram_mem {a : Word} {d : List Byte} {x : Nat} (hwf : s.flash.mem.wf = true)
    (hidle : s.flash.wip = false) (hexec : exec (.tProgram a d) s = .next u)
    (hx : x / progPage s.cfg ≠ spiAddr s.cfg a / progPage s.cfg) :
    Memory.read (s.cutShort k (.tProgram a d) u).flash.mem x = Memory.read s.flash.mem x := by
  rw [cutShort_mem (i := .tProgram a d) nofun]
  obtain ⟨-, ⟨-, rfl⟩ | ⟨-, -, -, rfl⟩⟩ := execTProgram_next.1 hexec
  · rw [Flash.torn_idle hidle]
  · have hout := outside_page hx
    refine Flash.read_torn_modify hidle (Memory.wf_program _ _ _ hwf) hout ?_
    rw [Memory.read_program _ _ _ _ hwf]
    refine programmedByte_of_ne (fun i htarget => ?_) d 0
    have hpage := progTarget_mem_page s.cfg (spiAddr s.cfg a) i
    omega

/-- A cut sector erase changes no byte outside its sector (R58, R223). -/
theorem cutShort_tSectorErase_mem {a : Word} {x : Nat} (hwf : s.flash.mem.wf = true) (hidle : s.flash.wip = false)
    (hexec : exec (.tSectorErase a) s = .next u)
    (hx : x < spiAddr s.cfg a ∨ spiAddr s.cfg a + s.cfg.sectorSize ≤ x) :
    Memory.read (s.cutShort k (.tSectorErase a) u).flash.mem x = Memory.read s.flash.mem x := by
  rw [cutShort_mem (i := .tSectorErase a) nofun]
  obtain ⟨-, -, -, -, rfl⟩ := execTSectorErase_next.1 hexec
  refine Flash.read_torn_modify hidle (Memory.wf_erase _ _ hwf) hx ?_
  rw [Memory.read_erase, if_neg (by omega)]

/-- No operation begins before enough bytes of the transaction are out. -/
theorem cutShort_wip_of_not_begins {i : Instr} (h : ∀ b, i ≠ .tRaw b) (hbegins : opBegins s.cfg k i = false) :
    (s.cutShort k i u).flash.wip = false := by
  rw [cutShort_wip h, hbegins, Bool.and_false]

/-- Settles O60, by the transaction that is cut. -/
theorem resetInsideATransaction : Obligations.ResetInsideATransaction := by
  intro k i u s es hok hturn hfetch hi hregion hidle hwf hexec hevents
  have hframe := exec_spiFrame hi hexec
  refine ⟨_, step_cutShort hok hturn hfetch hi hregion hexec, cutShort_trace_of (s := s.takeTurn) hevents, rfl, rfl, rfl,
    rfl, rfl, rfl, hframe.host, hframe.turns, fun hspares => cutShort_spares k hspares hexec hidle, ?_, ?_⟩
  · rintro a d _ _ rfl rfl rfl
    exact ⟨fun x hx => cutShort_tProgram_mem hwf hidle hexec hx,
      fun hk => cutShort_wip_of_not_begins nofun (decide_eq_false (Nat.not_lt.2 hk))⟩
  · rintro a _ rfl rfl
    exact ⟨fun x hx => cutShort_tSectorErase_mem hwf hidle hexec hx,
      fun hk => cutShort_wip_of_not_begins nofun (decide_eq_false (by rw [State.takeTurn_cfg]; omega))⟩

end Sys2Proof.Machine
end
